-- ==== Sys2Proof/Word.lean ====
section
/-! DEFINITION. The byte and word types and the plainest arithmetic of the spec's notation (00_scope.md R11, R12). -/

namespace Sys2Proof

/-- A byte of a wire stream or of an arena slot (R11: bit 0 is the least significant bit). -/
abbrev Byte := BitVec 8

/-- A u32 operand, and a word of the engine's queues (`WORD_BITS` = 32, R9). -/
abbrev Word := BitVec 32

/-- `ceil(a/b)` in unbounded naturals (R12). -/
def ceilDiv (a b : Nat) : Nat := (a + b - 1) / b

/-- `clamp(x, lo, hi) = min(max(x, lo), hi)` (R12). The bounds stand first in each pair only so that the kernel does not
unfold `x` when `hi` is not a numeral. -/
def clamp (x lo hi : Nat) : Nat := min hi (max lo x)

end Sys2Proof
end

