-- ==== Sys2Proof/Config.lean ====
section
/-! DEFINITION. What an implementation fixes (the parameters of 00_scope.md R9, R10), the inputs of a step, and the
free values: opaque constants that nothing in Lean can evaluate. -/

namespace Sys2Proof

/-- `ENGINE_KIND` (R9, R23): hardware-accelerated or software-timed. -/
inductive EngineKind where
  | hw
  | sw
  deriving DecidableEq, Repr, Inhabited

/-- `HW_FAULT_POLICY` (R9, 60_exceptions.md R220, R221). -/
inductive HwFaultPolicy where
  | serveNonShift
  | haltAll
  deriving DecidableEq, Repr, Inhabited

/-- Which target is wired to the JTAG pins (R47): an arbitrary one, or the spec's own test fixture "loopback". -/
inductive TargetKind where
  | external
  | loopback
  deriving DecidableEq, Repr, Inhabited

/-- The target's state `T` (R47), coded as a natural number. DESIGN CHOICE, log 4. -/
abbrev TargetState := Nat

/-- The parameters of R9. None is writable by any command; State carries them so that a statement about every state is a
statement about every choice of them. DESIGN CHOICE, log 1. -/
structure Config where
  maxBits : Nat
  arenaSlots : Nat
  maxSessions : Nat
  engineKind : EngineKind
  divInit : Nat
  divMin : Nat
  divMax : Nat
  sysClkHz : Nat
  cyclesPerTck : Nat
  qdepth : Nat
  /-- `SW_HALF_DELAY`: timing only (R164). -/
  swHalfDelay : Nat
  /-- `IDLE_WINDOW`: read by no rule (R194). -/
  idleWindow : Nat
  /-- `TCP_PORT`: read by no rule (D39). -/
  tcpPort : Nat
  settckApplies : Bool
  checkFullPrefix : Bool
  hwFaultPolicy : HwFaultPolicy
  target : TargetKind
  deriving DecidableEq, Repr

/-- `SLOT_BYTES = ceil(MAX_BITS/8)` (R9, 20_memory.md R65). -/
def Config.slotBytes (c : Config) : Nat := ceilDiv c.maxBits 8

/-- The constraints of R10. -/
def Config.valid (c : Config) : Bool :=
  decide (1 ≤ c.maxBits) && decide (c.maxBits ≤ 2 ^ 32 - 8) && decide (1 ≤ c.arenaSlots) && decide (1 ≤ c.maxSessions) &&
  decide (1 ≤ c.qdepth) && decide (2 ≤ c.cyclesPerTck) && decide (c.cyclesPerTck % 2 = 0) && decide (1 ≤ c.divMin) &&
  decide (c.divMin ≤ c.divInit) && decide (c.divInit ≤ c.divMax)

/-- The "vectors" column of R9. The three parameters that column leaves "n/a" are 0 and read by no step.
DESIGN CHOICE, log 1: these are the parameters `State.reset` has. -/
def Config.vectors : Config where
  maxBits := 12288
  arenaSlots := 8
  maxSessions := 2
  engineKind := .hw
  divInit := 4
  divMin := 1
  divMax := 65536
  sysClkHz := 100000000
  cyclesPerTck := 4
  qdepth := 4
  swHalfDelay := 0
  idleWindow := 0
  tcpPort := 0
  settckApplies := true
  checkFullPrefix := false
  hwFaultPolicy := .serveNonShift
  target := .external

/-- The drawn outcome of a reply write (42_session.md R192, R193): whether it succeeds and, if it fails, how many of the
reply's bytes the host receives all the same ("any prefix"). -/
structure WriteOutcome where
  ok : Bool
  delivered : Nat
  deriving DecidableEq, Repr, Inhabited

/-- The engine steps of 41_shift_engine.md, by rule: Feed R152, Drain R153, BitStep R154, RxPush R155, HwEnd R157, and the
software loop's SwBitStep and SwEnd R163. -/
inductive EngineStep where
  | feed
  | drain
  | bitStep
  | rxPush
  | hwEnd
  | swBitStep
  | swEnd
  deriving DecidableEq, Repr, Inhabited

/-- What the environment and the schedule choose for one step (R13 `Draw`, R14, 42_session.md R197, R198). An input whose
event is not enabled in the state has no effect there. -/
inductive Input where
  /-- A connection arrives (R186). -/
  | accept
  /-- Bytes arrive on session `k` (R187). -/
  | arrive (k : Nat) (bytes : List Byte)
  /-- The peer of session `k` closes its sending side (R189). -/
  | eof (k : Nat)
  /-- The peer of session `k` resets the connection (R191). -/
  | peerReset (k : Nat)
  /-- The idle window of session `k` expires (R194). -/
  | idle (k : Nat)
  /-- Something outside the block moves the target to state `t` between transfers (41_shift_engine.md R143). -/
  | targetMoves (t : TargetState)
  /-- The hardware fault is drawn, with the pin levels and the target state it leaves (R166, R219). -/
  | hwFault (tck tms tdi : Bool) (t : TargetState)
  /-- The timing peripheral stops answering and nothing detects it (R166). -/
  | hang
  /-- The block is reset; `t` is the target state that a reset during a transfer leaves (70_reset_and_hazards.md R240, R242). -/
  | blockReset (t : TargetState)
  /-- The loop takes the next step of session `k` (R197); a reply write of that step has outcome `w`. -/
  | serve (k : Nat) (w : WriteOutcome)
  /-- The engine takes step `e` (R167); a reply write of that step has outcome `w`. -/
  | engine (e : EngineStep) (w : WriteOutcome)
  deriving DecidableEq, Repr, Inhabited

/-- FREE VALUE (log 2): the `n`-th input that nobody has chosen beforehand. -/
opaque Config.freeInput : Nat → Input

/-- FREE VALUE (log 4): `TdoOut` of the external, arbitrary target (R47, 93_implementation_defined.md I8). -/
opaque Config.externalTdoOut : TargetState → Bool

/-- FREE VALUE (log 4): `TargetStep` of the external, arbitrary target (R47, 93_implementation_defined.md I8). -/
opaque Config.externalTargetStep : TargetState → Bool → Bool → TargetState

end Sys2Proof
end

