-- ==== Sys2Proof/Syntax.lean ====
section
/-! DEFINITION. The commands of XVC 1.0 as values (00_scope.md R17, 30_encoding.md R86). -/

namespace Sys2Proof

/-- The command classes, the values of `S[s].KIND` other than none (10_state.md R31, 30_encoding.md R86). -/
inductive Kind where
  | getinfo
  | settck
  | shift
  deriving DecidableEq, Repr

/-- A decoded command (R17): one constructor per row of spec/opcode_table.json. -/
inductive Instr where
  /-- GETINFO, `getinfo:` (R87). -/
  | getinfo
  /-- SETTCK, `settck:` and the u32 period in nanoseconds (R88). -/
  | settck (period : Word)
  /-- SHIFT, `shift:`, the u32 bit count, the TMS bytes and the TDI bytes (R89). -/
  | shift (bitCount : Word) (tms tdi : List Byte)
  deriving DecidableEq, Repr

/-- The class of a command. -/
def Instr.kind : Instr → Kind
  | .getinfo => .getinfo
  | .settck _ => .settck
  | .shift _ _ _ => .shift

end Sys2Proof
end

