-- ==== Sys2Proof/WellFormed.lean ====
section
/-! DEFINITION. Which command values the encoder's notation admits (30_encoding.md R91, R98, R102). -/

namespace Sys2Proof

/-- A command of the notation (R102): every `settck` period is legal (R99); a `shift` has `1 <= N <= MAX_BITS` (R98) and
two vectors of `ceil(N/8)` bytes each. The trailing bits of a vector's last byte are free (20_memory.md R63). -/
def Instr.wf (c : Config) : Instr → Bool
  | .getinfo => true
  | .settck _ => true
  | .shift n tms tdi =>
    decide (1 ≤ n.toNat) && decide (n.toNat ≤ c.maxBits) &&
    decide (tms.length = ceilDiv n.toNat 8) && decide (tdi.length = ceilDiv n.toNat 8)

end Sys2Proof
end

