-- ==== Sys2Proof/Decode.lean ====
section
/-! DEFINITION. The byte encoding of the commands (30_encoding.md): the tables both decoders share (classes, literals,
header lengths, operand assembly), the decoder of a whole command, total on any bytes, and the encoder `Enc` of R102. -/

namespace Sys2Proof

/-! ## Byte order (20_memory.md R70) -/

/-- `LE32(b0,b1,b2,b3) = b0 + 2^8*b1 + 2^16*b2 + 2^24*b3` (R12): byte 3 lands in the high bits. -/
def le32 (b0 b1 b2 b3 : Byte) : Word := b3 ++ (b2 ++ (b1 ++ b0))

/-- The four bytes of a word, least significant byte first (R70, R102). -/
def le32Bytes (w : Word) : List Byte :=
  [w.extractLsb' 0 8, w.extractLsb' 8 8, w.extractLsb' 16 8, w.extractLsb' 24 8]

/-! ## Classes, literals and lengths -/

/-- The literal of a class, bytes from R87, R88, R89: `getinfo:`, `settck:`, `shift:`. -/
def literal : Kind → List Byte
  | .getinfo => [0x67, 0x65, 0x74, 0x69, 0x6E, 0x66, 0x6F, 0x3A]
  | .settck => [0x73, 0x65, 0x74, 0x74, 0x63, 0x6B, 0x3A]
  | .shift => [0x73, 0x68, 0x69, 0x66, 0x74, 0x3A]

/-- `Classify` as a function of the first two bytes (40_commands.md R112, 30_encoding.md R86). -/
def classify (b0 b1 : Byte) : Option Kind :=
  if b0 = 0x67 ∧ b1 = 0x65 then some .getinfo
  else if b0 = 0x73 ∧ b1 = 0x65 then some .settck
  else if b0 = 0x73 ∧ b1 = 0x68 then some .shift
  else none

/-- `HdrLen` of a class (R111). -/
def Kind.hdrLen : Kind → Nat
  | .getinfo => 8
  | .settck => 11
  | .shift => 10

/-- `PrefixLen` of a class (R111): the length of its literal. -/
def Kind.prefixLen : Kind → Nat
  | .getinfo => 8
  | .settck => 7
  | .shift => 6

/-- `HdrLen` of the KIND register; `HdrLen(none) = 2` (R111). -/
def hdrLen : Option Kind → Nat
  | none => 2
  | some k => k.hdrLen

/-- One comparison of `CheckTail` (R113): does byte `j` of a command of class `k` pass? Only with CHECK_FULL_PREFIX are
the literal's bytes after the first two compared (R93). -/
def tailByteOk (c : Config) (k : Kind) (j : Nat) (b : Byte) : Bool :=
  !c.checkFullPrefix || decide (j < 2) || decide (k.prefixLen ≤ j) || decide ((literal k)[j]? = some b)

/-- `B = ceil(N/8)`, the bytes of one vector of a `shift` (R89, R91). -/
def vectorBytes (n : Word) : Nat := ceilDiv n.toNat 8

/-! ## Decoding a whole command -/

/-- The decode failures of R98, by name. -/
inductive DecodeError where
  | badPrefix
  | prefixTail
  | lenZero
  | lenOver
  deriving DecidableEq, Repr

/-- What the decoder says of a byte sequence: a command and the bytes after it, "need more input" (40_commands.md R110), or
a decode failure (R98). -/
inductive DecodeResult where
  | done (i : Instr) (rest : List Byte)
  | more
  | reject (e : DecodeError)
  deriving DecidableEq, Repr

/-- The u32 operand whose least significant byte is byte `j` of the command (R90). -/
def operandAt (bs : List Byte) (j : Nat) : Word :=
  le32 (bs.getD j 0) (bs.getD (j + 1) 0) (bs.getD (j + 2) 0) (bs.getD (j + 3) 0)

/-- Do the bytes that have arrived agree with the literal, as far as it is compared (R93, R113)? -/
def tailOk (c : Config) (k : Kind) (bs : List Byte) : Bool :=
  (List.range (min bs.length k.prefixLen)).all fun j => tailByteOk c k j (bs.getD j 0)

/-- The check of a `shift` count (R98 (c), (d); 40_commands.md R115). -/
def countError (c : Config) (n : Word) : Option DecodeError :=
  if n.toNat = 0 then some .lenZero else if c.maxBits < n.toNat then some .lenOver else none

/-- A `shift` whose header is complete: its count, then its two vectors (R89). -/
def decodeShift (c : Config) (bs : List Byte) : DecodeResult :=
  let n := operandAt bs 6
  match countError c n with
  | some e => .reject e
  | none =>
    if bs.length < 10 + 2 * vectorBytes n then .more
    else
      let payload := bs.drop 10
      .done (.shift n (payload.take (vectorBytes n)) ((payload.drop (vectorBytes n)).take (vectorBytes n)))
        (payload.drop (2 * vectorBytes n))

/-- The command at the head of a byte sequence (R85-R93, R98): each check as early as its byte has arrived (60_exceptions.md
R218). -/
def decode (c : Config) (bs : List Byte) : DecodeResult :=
  match bs with
  | b0 :: b1 :: _ =>
    match classify b0 b1 with
    | none => .reject .badPrefix
    | some k =>
      if tailOk c k bs = false then .reject .prefixTail
      else if bs.length < k.hdrLen then .more
      else
        match k with
        | .getinfo => .done .getinfo (bs.drop 8)
        | .settck => .done (.settck (operandAt bs 7)) (bs.drop 11)
        | .shift => decodeShift c bs
  | _ => .more

/-! ## Encoding -/

/-- `Enc` (R102). -/
def encode : Instr → List Byte
  | .getinfo => literal .getinfo
  | .settck p => literal .settck ++ le32Bytes p
  | .shift n tms tdi => literal .shift ++ le32Bytes n ++ tms ++ tdi

/-! ## The opcode table's numbering -/

/-- Byte `j` of the command whose bits the opcode table numbers as `w`: the first word is 16 bits read as a big-endian pair,
byte 0 in bits 15:8 and byte 1 in bits 7:0 (R100); a later byte `j` is bits `8j+7 : 8j`. Bits at or above `nbits` are 0. -/
def tableByte (nbits w j : Nat) : Byte :=
  let v := w % 2 ^ nbits
  if j = 0 then BitVec.ofNat 8 (v / 2 ^ 8)
  else if j = 1 then BitVec.ofNat 8 v
  else BitVec.ofNat 8 (v / 2 ^ (8 * j))

/-- The longest command of the configuration, `10 + 2*ceil(MAX_BITS/8)` bytes (R85), or `settck`'s 11 where that is longer. -/
def longestCommand (c : Config) : Nat := max 11 (10 + 2 * c.slotBytes)

/-- The instruction the decoder reads from the word `w` of `nbits` bits, every later bit 0, at the parameters of
`State.reset`. The SHIFT row's word with zero operands has N = 0, which R98 (c) refuses: no instruction (log 12). -/
def decodeTableWord (nbits w : Nat) : Option Instr :=
  match decode Config.vectors ((List.range (longestCommand Config.vectors)).map (tableByte nbits w)) with
  | .done i _ => some i
  | .more => none
  | .reject _ => none

end Sys2Proof
end

