-- ==== Sys2Proof/Machine/State.lean ====
section
/-! DEFINITION. The state of the machine as plain data (10_state.md), the reasons a step can stop, and the state after
reset (10_state.md R51, 70_reset_and_hazards.md R241). -/

namespace Sys2Proof.Machine

/-! ## Reasons a step can stop -/

/-- Accesses to storage that does not exist. -/
inductive Fault where
  /-- `MemRead` or `MemWrite` of an arena slot number at or past ARENA_SLOTS (20_memory.md R60, R66). Raised by
  `State.memRead`, `State.memWrite`. Safe: R66 calls it unreachable and has the model go no further. -/
  | noSuchSlot (k : Nat)
  /-- `MemRead` or `MemWrite` past SLOT_BYTES of slot `k` (20_memory.md R60, R66). Raised by `State.memRead`,
  `State.memWrite`. Safe: R66 calls it unreachable and has the model go no further. -/
  | outsideSlot (k off : Nat)
  deriving DecidableEq, Repr

/-- Requests that the machine has no meaning for. -/
inductive Refusal where
  /-- An instruction with no meaning yet: raised by `exec`'s arms only. Safe. -/
  | notModelled (mnemonic : String)
  /-- The parameters break R10 of 00_scope.md, which has the model refuse them. Raised by `step`. Safe. -/
  | badConfig
  /-- `MemRead` or `MemWrite` of a slot that is free (20_memory.md R66: "a model refuses any other call (it is
  unreachable)"). Raised by `State.memRead`, `State.memWrite`. Safe. -/
  | slotNotOwned (k : Nat)
  /-- A `shift` of session `k` reads or writes a slot its session does not hold (20_memory.md R66). Raised by the
  payload step, the engine steps and the dispatch of `shift`; unreachable from reset. Safe. -/
  | slotNotHeld (k : Nat)
  /-- A `shift` value other than the one its session holds (40_commands.md R123 says which one it is). Raised by
  `execShift`; the step never hands it such a value. Safe. -/
  | commandNotHeld
  /-- There is no session slot `k` (10_state.md R29). Raised by the meanings and the decoder; the loop never serves such a
  slot. Safe. -/
  | noSuchSession (k : Nat)
  /-- An engine step with BUSY = 1 and no owner, which 10_state.md R25 excludes. Raised by the engine steps. Safe. -/
  | noOwner
  deriving DecidableEq, Repr

/-! ## The arena's bytes -/

/-- The bytes of one arena slot: (offset, byte) pairs in the canonical form of `Memory.wf`. DEDUCED, log 19. -/
abbrev Memory := List Host.Cell

/-! ## Registers -/

/-- The close reasons of 60_exceptions.md R213, in the order of their codes. -/
inductive CloseReason where
  | badPrefix
  | prefixTail
  | lenZero
  | lenOver
  | noSlot
  | eofMidCmd
  | peerClosed
  | peerReset
  | write
  | idle
  | hwFault
  | backendInvalid
  | halted
  deriving DecidableEq, Repr

/-- `S[s].PHASE` (R29). -/
inductive Phase where
  | closed
  | accepted
  | awaitingCommand
  | dispatching
  deriving DecidableEq, Repr

/-- What an arena slot is held for (R39). -/
inductive Role where
  | tms
  | tdi
  | tdo
  deriving DecidableEq, Repr

/-- The `info` of a fault record (60_exceptions.md R219 has one text). -/
inductive FaultInfo where
  /-- "peripheral unresponsive or desynchronized" -/
  | peripheralUnresponsiveOrDesynchronized
  deriving DecidableEq, Repr

/-- A record of `G.FAULT_LOG` (R26): session, bit index, info. -/
structure FaultRecord where
  session : Nat
  bitIndex : Nat
  info : FaultInfo
  deriving DecidableEq, Repr

/-- The global registers `G` (R22-R28). -/
structure Globals where
  /-- `G.DIV` (R22). -/
  div : Nat
  /-- `G.ENGINE` (R23). -/
  engine : EngineKind
  /-- `G.BACKEND_VALID` (R24). -/
  backendValid : Bool
  /-- `G.BUSY` (R25). -/
  busy : Bool
  /-- `G.OWNER` (R25). -/
  owner : Option Nat
  /-- `G.FAULT_LOG` (R26), oldest record first. -/
  faultLog : List FaultRecord
  /-- `G.HALTED` (R27). -/
  halted : Bool
  deriving DecidableEq, Repr

/-- One session slot `S[s]` (R29-R36) and, below the block's own registers, the environment's side of its connection. -/
structure Session where
  /-- `PHASE` (R29). -/
  phase : Phase
  /-- `HDR` (R30). -/
  hdr : Vector Byte 11
  /-- `HLEN` (R30). -/
  hlen : Nat
  /-- `KIND` (R31); `none` before the second byte of a command. -/
  kind : Option Kind
  /-- `N` (R32). -/
  n : Word
  /-- `PLEN` (R33). -/
  plen : Nat
  /-- `TMS_SLOT` (R34). -/
  tmsSlot : Option Nat
  /-- `TDI_SLOT` (R34). -/
  tdiSlot : Option Nat
  /-- `TDO_SLOT` (R34). -/
  tdoSlot : Option Nat
  /-- `TX` (R35): the bytes of the successful reply writes, in order. -/
  tx : List Byte
  /-- `REASON` (R36). -/
  reason : Option CloseReason
  /-- `RX[s]` (R46), oldest byte first. -/
  rx : List Byte
  /-- `EOF[s]` (R46). -/
  eof : Bool
  /-- The peer reset the connection while this session was `Dispatching`: its reply write will fail (42_session.md R191,
  R200). DEDUCED, log 10. -/
  gone : Bool
  /-- The bytes the host has received (42_session.md R192, R193). DEDUCED, log 11. -/
  seen : List Byte
  deriving DecidableEq, Repr

/-- One arena slot `A[k]` (R39); `owner = none` is `free`. -/
structure Slot where
  owner : Option (Nat × Role)
  bytes : Memory
  deriving DecidableEq, Repr

/-- The engine `E` (R40-R44). -/
structure Engine where
  /-- `RUN_A` (R40). -/
  runA : Bool
  /-- `RUN_B` (R40). -/
  runB : Bool
  /-- `CNT_A` (R41). -/
  cntA : Word
  /-- `CNT_B` (R41). -/
  cntB : Word
  /-- `OSR_A` (R42). -/
  osrA : Word
  /-- `OSRC_A` (R42). -/
  osrcA : Nat
  /-- `OSR_B` (R42). -/
  osrB : Word
  /-- `OSRC_B` (R42). -/
  osrcB : Nat
  /-- `ISR_B` (R42). -/
  isrB : Word
  /-- `ISRC_B` (R42). -/
  isrcB : Nat
  /-- `TXF_A` (R43), oldest word first. -/
  txfA : List Word
  /-- `TXF_B` (R43), oldest word first. -/
  txfB : List Word
  /-- `RXF_B` (R43), oldest word first. -/
  rxfB : List Word
  /-- `E.I` (R44). -/
  i : Nat
  /-- `IN_W` (R44). -/
  inW : Nat
  /-- `OUT_W` (R44). -/
  outW : Nat
  /-- `DIVL` (R44). -/
  divl : Nat
  /-- The peripheral has stopped answering, undetected (41_shift_engine.md R166). DEDUCED, log 8. -/
  hung : Bool
  deriving DecidableEq, Repr

/-- The output pins `P` (R45) and what they have shown the target. `P.TDO` is computed (`State.tdoPin`). -/
structure Pins where
  tck : Bool
  tms : Bool
  tdi : Bool
  /-- The (TMS, TDI) levels at every rising TCK edge since reset, oldest first (42_session.md R204, 41_shift_engine.md
  R144). DESIGN CHOICE, log 9. -/
  driven : List (Bool × Bool)
  deriving DecidableEq, Repr

/-- The machine (R20): the tuple `(G, S, A, E, P)`, the environment's target state `T` (R47), the parameters (R9), and the
model's own fields: what the loop latches for the current step, and the inputs. -/
structure State where
  /-- The parameters (R9), written by no step. -/
  cfg : Config
  g : Globals
  /-- `S[0 .. MAX_SESSIONS-1]`. -/
  sessions : List Session
  /-- `A[0 .. ARENA_SLOTS-1]`. -/
  arena : List Slot
  e : Engine
  p : Pins
  /-- `T` (R47). -/
  target : TargetState
  /-- The session the loop serves in this step (log 3). -/
  serving : Nat
  /-- FREE VALUE: the outcome of this step's reply write (42_session.md R192; log 3). -/
  write : WriteOutcome
  /-- The inputs already chosen for the coming steps, the next one first (log 2). -/
  inputs : List Input
  /-- How many inputs have been drawn from `Config.freeInput` (log 2). -/
  draws : Nat
  deriving DecidableEq, Repr

/-! ## Reset -/

/-- A closed session slot after reset (R51). HDR and N, which R51 leaves unspecified, are 0 (DESIGN CHOICE, log 7). -/
def Session.reset : Session where
  phase := .closed
  hdr := Vector.replicate 11 0
  hlen := 0
  kind := none
  n := 0
  plen := 0
  tmsSlot := none
  tdiSlot := none
  tdoSlot := none
  tx := []
  reason := none
  rx := []
  eof := false
  gone := false
  seen := []

/-- The engine after reset (R51). -/
def Engine.reset (c : Config) : Engine where
  runA := false
  runB := false
  cntA := 0
  cntB := 0
  osrA := 0
  osrcA := 0
  osrB := 0
  osrcB := 0
  isrB := 0
  isrcB := 0
  txfA := []
  txfB := []
  rxfB := []
  i := 0
  inW := 0
  outW := 0
  divl := c.divInit
  hung := false

/-- The state after reset of a block with parameters `c` whose target is in state `t` (R51, 70_reset_and_hazards.md R241,
R244). The model's own fields have the values of log 2 and log 3. -/
def State.resetWith (c : Config) (t : TargetState) : State where
  cfg := c
  g :=
    { div := c.divInit, engine := c.engineKind, backendValid := true, busy := false, owner := none, faultLog := [],
      halted := false }
  sessions := List.replicate c.maxSessions Session.reset
  arena := List.replicate c.arenaSlots { owner := none, bytes := [] }
  e := Engine.reset c
  p := { tck := false, tms := false, tdi := false, driven := [] }
  target := t
  serving := 0
  write := { ok := true, delivered := 0 }
  inputs := []
  draws := 0

/-- The machine right after reset, at the "vectors" parameters (DESIGN CHOICE, log 1), with the target in the state coded
0 (DESIGN CHOICE, log 7). -/
def State.reset : State := State.resetWith Config.vectors 0

end Sys2Proof.Machine
end

