-- ==== Sys2Proof/Machine/Ops.lean ====
section
/-! DEFINITION. The named operations over storage and registers: the arena primitives (20_memory.md R66-R68), session and
target accessors, the reply write (42_session.md R192, R193), and TAKING AN EXCEPTION, which on this block is a close
(60_exceptions.md R215), the halt (R221) and the hardware fault (R219). No return from a close exists (R216); the return to
the next command after a reply is `restart` (40_commands.md R119). -/

namespace Sys2Proof.Machine

/-! ## Results that may stop -/

/-- The answer of an operation that may stop the step. -/
abbrev Res (α : Type) := Host.Outcome α Fault Refusal

/-- Go on with the answer, or stop as it stopped. -/
def andThen {α β : Type} (r : Res α) (f : α → Res β) : Res β :=
  match r with
  | .next a => f a
  | .fault x => .fault x
  | .refused x => .refused x

/-! ## The bytes of a slot -/

/-- What a byte that nothing has written reads as (10_state.md R39, R51; 20_memory.md R67: zero-filled). -/
def Memory.unlisted : Byte := 0

/-- The byte at offset `a`. -/
def Memory.read : Memory → Nat → Byte
  | [], _ => Memory.unlisted
  | (x, b) :: m, a => if x = a then b else Memory.read m a

/-- Set the byte at offset `a`, keeping the canonical form. -/
def Memory.write : Memory → Nat → Byte → Memory
  | [], a, b => if b = Memory.unlisted then [] else [(a, b)]
  | (x, c) :: m, a, b =>
    if a < x then (if b = Memory.unlisted then (x, c) :: m else (a, b) :: (x, c) :: m)
    else if a = x then (if b = Memory.unlisted then m else (a, b) :: m)
    else (x, c) :: Memory.write m a b

/-- The canonical form: offsets strictly rising, and no entry equal to what an unlisted offset reads as. -/
def Memory.wf : Memory → Bool
  | [] => true
  | [(_, b)] => decide (b ≠ Memory.unlisted)
  | (x, b) :: (y, c) :: m => decide (b ≠ Memory.unlisted) && decide (x < y) && Memory.wf ((y, c) :: m)

/-- Every listed offset is below `n`. -/
def Memory.below (n : Nat) (m : Memory) : Bool := m.all fun cell => decide (cell.1 < n)

/-- The `n` bytes from offset `off`. -/
def Memory.readRange (m : Memory) (off n : Nat) : List Byte := (List.range n).map fun j => Memory.read m (off + j)

/-! ## Sessions and slots -/

/-- Update session slot `k`. -/
def State.mapSession (k : Nat) (f : Session → Session) (s : State) : State :=
  { s with sessions := s.sessions.modify k f }

/-- Update arena slot `k`. -/
def State.mapSlot (k : Nat) (f : Slot → Slot) (s : State) : State :=
  { s with arena := s.arena.modify k f }

/-- `MemRead(k, off, n)` (20_memory.md R66). -/
def State.memRead (s : State) (k off n : Nat) : Res (List Byte) :=
  match s.arena[k]? with
  | none => .fault (.noSuchSlot k)
  | some sl =>
    if s.cfg.slotBytes < off + n then .fault (.outsideSlot k off)
    else if sl.owner.isNone then .refused (.slotNotOwned k)
    else .next (sl.bytes.readRange off n)

/-- `MemWrite(k, off, 1, b)` (20_memory.md R66). -/
def State.memWrite (k off : Nat) (b : Byte) (s : State) : Res State :=
  match s.arena[k]? with
  | none => .fault (.noSuchSlot k)
  | some sl =>
    if s.cfg.slotBytes < off + 1 then .fault (.outsideSlot k off)
    else if sl.owner.isNone then .refused (.slotNotOwned k)
    else .next (s.mapSlot k fun sl => { sl with bytes := sl.bytes.write off b })

/-- `MemWrite(k, off + j, 1, v_j)` for every byte `v_j` of `v`, in order (20_memory.md R66). -/
def State.memWriteAll (k off : Nat) (v : List Byte) (s : State) : Res State :=
  match v with
  | [] => .next s
  | b :: v => andThen (s.memWrite k off b) (State.memWriteAll k (off + 1) v)

/-- `AcquireSlot(s, role)` (20_memory.md R67): the lowest free slot, zero-filled, or none. -/
def State.acquireSlot (k : Nat) (r : Role) (s : State) : Option (Nat × State) :=
  match s.arena.findIdx? fun sl => sl.owner.isNone with
  | none => none
  | some a => some (a, s.mapSlot a fun _ => { owner := some (k, r), bytes := [] })

/-- `ReleaseSlot(k)` (20_memory.md R68): the bytes stay as they are. -/
def State.releaseSlot (k : Nat) (s : State) : State := s.mapSlot k fun sl => { sl with owner := none }

/-- Release the slot a session register names, if it names one. -/
def State.releaseHeld (slot : Option Nat) (s : State) : State :=
  match slot with
  | none => s
  | some k => s.releaseSlot k

/-- Release the three slots of session `k` and set its slot registers to none (40_commands.md R130, 60_exceptions.md
R215). -/
def State.releaseSlots (k : Nat) (s : State) : State :=
  match s.sessions[k]? with
  | none => s
  | some se =>
    (((s.releaseHeld se.tmsSlot).releaseHeld se.tdiSlot).releaseHeld se.tdoSlot).mapSession k fun se =>
      { se with tmsSlot := none, tdiSlot := none, tdoSlot := none }

/-! ## The target (10_state.md R47) -/

/-- `TdoOut(T)`: the loopback fixture drives its one bit; the external target is arbitrary. -/
def targetOut (c : Config) (t : TargetState) : Bool :=
  match c.target with
  | .external => Config.externalTdoOut t
  | .loopback => decide (t ≠ 0)

/-- `TargetStep(T, tms, tdi)`: the loopback fixture takes TDI; the external target is arbitrary. -/
def targetNext (c : Config) (t : TargetState) (tms tdi : Bool) : TargetState :=
  match c.target with
  | .external => Config.externalTargetStep t tms tdi
  | .loopback => if tdi then 1 else 0

/-- `P.TDO` (R45): the level the target drives. -/
def State.tdoPin (s : State) : Bool := targetOut s.cfg s.target

/-! ## Close: the block's exception entry (60_exceptions.md R215) -/

/-- `Close(s, code)` (R215): slots released, the partial command and the unread input discarded, the reason recorded, the
slot closed. No reply byte is written. -/
def State.close (k : Nat) (code : CloseReason) (s : State) : State :=
  (s.releaseSlots k).mapSession k fun se =>
    { se with hlen := 0, plen := 0, kind := none, rx := [], reason := some code, phase := .closed }

/-- One session's part of `Halt()` (R221): a session that is not closed closes with `E_HALTED`. -/
def State.closeIfOpen (k : Nat) (s : State) : State :=
  match s.sessions[k]? with
  | none => s
  | some se => if se.phase = .closed then s else s.close k .halted

/-- `Halt()` (R221): HALTED, then every open session closes. -/
def State.halt (s : State) : State :=
  (List.range s.sessions.length).foldl (fun s k => s.closeIfOpen k) { s with g := { s.g with halted := true } }

/-- `HwFault(i)` at `i = E.I` (R219), with the drawn pin levels and target state: engine stopped, backend invalid, a record
logged, the owner closed without a reply, and the halt if the policy says so. -/
def State.hwFault (tck tms tdi : Bool) (t : TargetState) (s : State) : Res State :=
  match s.g.owner with
  | none => .refused .noOwner
  | some k =>
    let s1 : State :=
      { s with
        e := { s.e with runA := false, runB := false, txfA := [], txfB := [], rxfB := [] }
        p := { s.p with tck := tck, tms := tms, tdi := tdi }
        target := t
        g :=
          { s.g with
            backendValid := false
            faultLog :=
              s.g.faultLog ++
                [{ session := k, bitIndex := s.e.i, info := .peripheralUnresponsiveOrDesynchronized }]
            busy := false
            owner := none } }
    let s2 := s1.close k .hwFault
    .next (if s.cfg.hwFaultPolicy = .haltAll then s2.halt else s2)

/-! ## The reply write and the return to the next command -/

/-- `Restart(s)` (40_commands.md R119). -/
def State.restart (k : Nat) (s : State) : State :=
  s.mapSession k fun se => { se with hlen := 0, plen := 0, kind := none, phase := .awaitingCommand }

/-- `Emit(s, bytes)` and what follows it in the rule that emits (42_session.md R192, R193): on success the reply joins TX
and the rule goes on; on failure the host has received a drawn number of the reply's bytes and the session closes. A
connection that the peer reset during the session's own dispatch fails (R191; log 10). -/
def State.emitThen (k : Nat) (bytes : List Byte) (cont : State → State) (s : State) : State :=
  match s.sessions[k]? with
  | none => s
  | some se =>
    if s.write.ok && !se.gone then
      cont (s.mapSession k fun se => { se with tx := se.tx ++ bytes, seen := se.seen ++ bytes })
    else
      (s.mapSession k fun se => { se with seen := se.seen ++ bytes.take s.write.delivered }).close k .write

end Sys2Proof.Machine
end

