-- ==== Sys2Proof/Machine/Operands.lean ====
section
/-! DEFINITION. Operand forms: the u32 operands in the header register (30_encoding.md R90), the bits of a vector
(20_memory.md R62), engine words (20_memory.md R72), the clock divisor (41_shift_engine.md R160), the `getinfo` reply
(30_encoding.md R95), and the command a session holds (40_commands.md R118, R120, R123). -/

namespace Sys2Proof.Machine

/-- `period_ns = LE32(HDR[7], HDR[8], HDR[9], HDR[10])` (R90, R120). -/
def periodOf (h : Vector Byte 11) : Word := le32 h[7] h[8] h[9] h[10]

/-- `N = LE32(HDR[6], HDR[7], HDR[8], HDR[9])` (R90, R115). -/
def countOf (h : Vector Byte 11) : Word := le32 h[6] h[7] h[8] h[9]

/-- `W = ceil(N/32)`, the engine words of a vector (R150). -/
def vectorWords (n : Word) : Nat := ceilDiv n.toNat 32

/-- Bit `i` of a vector: bit `i mod 8` of byte `i div 8` (R11, R62, R71). -/
def vecBit (v : List Byte) (i : Nat) : Bool := (v.getD (i / 8) 0).getLsbD (i % 8)

/-- `v` with bit `i` set to `b`. -/
def setBit {w : Nat} (v : BitVec w) (i : Nat) (b : Bool) : BitVec w :=
  (v &&& ~~~(1#w <<< i)) ||| (if b then 1#w <<< i else 0#w)

/-- `Word(V, w)` of the vector of `size` bytes in slot `k`: the little-endian word of bytes `4w .. 4w+3`, bytes at or past
`size` being 0 (R72, R150). -/
def State.readWord (s : State) (k size w : Nat) : Res Word :=
  andThen (s.memRead k (4 * w) (min 4 (size - 4 * w))) fun bs => .next (operandAt bs 0)

/-- `ClampDiv(p)` (R160). -/
def clampDiv (c : Config) (p : Word) : Nat :=
  clamp (ceilDiv (p.toNat * c.sysClkHz) (1000000000 * c.cyclesPerTck)) c.divMin c.divMax

/-- The ASCII decimal digits of `n`, most significant first, before the bytes `acc` (R95). `fuel` bounds their number. -/
def decimalDigits : Nat → Nat → List Byte → List Byte
  | 0, _, acc => acc
  | fuel + 1, n, acc =>
    let acc := BitVec.ofNat 8 (0x30 + n % 10) :: acc
    if n / 10 = 0 then acc else decimalDigits fuel (n / 10) acc

/-- `Decimal(n)`: no sign, no leading zero, no padding (R95). -/
def decimal (n : Nat) : List Byte := decimalDigits (n + 1) n []

/-- The bytes of "xvcServer_v1.0:" (R95). -/
def serverName : List Byte :=
  [0x78, 0x76, 0x63, 0x53, 0x65, 0x72, 0x76, 0x65, 0x72, 0x5F, 0x76, 0x31, 0x2E, 0x30, 0x3A]

/-- The `getinfo` reply (R95, 40_commands.md R116). -/
def getInfoReply (c : Config) : List Byte := serverName ++ decimal c.maxBits ++ [0x0A]

/-- The command that session `k` holds: that of its KIND (R118), with the operands of R120 and R123. -/
def State.heldCommand (k : Nat) (s : State) : Res Instr :=
  match s.sessions[k]? with
  | none => .refused (.noSuchSession k)
  | some se =>
    match se.kind with
    | none => .refused .commandNotHeld
    | some .getinfo => .next .getinfo
    | some .settck => .next (.settck (periodOf se.hdr))
    | some .shift =>
      match se.tmsSlot, se.tdiSlot with
      | some t, some d =>
        andThen (s.memRead t 0 (vectorBytes se.n)) fun tms =>
          andThen (s.memRead d 0 (vectorBytes se.n)) fun tdi => .next (.shift se.n tms tdi)
      | _, _ => .refused (.slotNotHeld k)

end Sys2Proof.Machine
end

