-- ==== Sys2Proof/Machine/Flags.lean ====
section
/-! DEFINITION. The block has no condition codes (10_state.md R48). Its flags are status flags, and this file says what they
and the sequencing registers enable: when a command is complete, when the loop may serve, when each engine step may run. -/

namespace Sys2Proof.Machine

/-- `Need(s)` (10_state.md R38). -/
def Session.need (se : Session) : Nat :=
  match se.kind with
  | none => 2
  | some .getinfo => 8
  | some .settck => 11
  | some .shift => if se.hlen < 10 then 10 else 10 + 2 * vectorBytes se.n

/-- `Complete(s)` (40_commands.md R111). -/
def Session.complete (se : Session) : Bool := se.kind.isSome && decide (se.hlen + se.plen = se.need)

/-- A slot that holds a connection (10_state.md R29). -/
def Session.isOpen (se : Session) : Bool := decide (se.phase ≠ .closed)

/-- Session steps are enabled only while BUSY = 0 and HALTED = 0 (42_session.md R203, 60_exceptions.md R221). -/
def State.loopFree (s : State) : Bool := !s.g.busy && !s.g.halted

/-- Engine steps are enabled only during a transfer (41_shift_engine.md R167), and not after the hang (R166). -/
def State.engineAnswers (s : State) : Bool := s.g.busy && !s.e.hung

/-- `Feed` is enabled (R152); `n` is the owner's `N`. -/
def State.feedEnabled (n : Word) (s : State) : Bool :=
  decide (s.g.engine = .hw) && decide (s.e.inW < vectorWords n) && decide (s.e.txfA.length < s.cfg.qdepth) &&
  decide (s.e.txfB.length < s.cfg.qdepth)

/-- `Drain` is enabled (R153). -/
def State.drainEnabled (s : State) : Bool := decide (s.g.engine = .hw) && !s.e.rxfB.isEmpty

/-- `BitStep` is enabled (R154). -/
def State.bitStepEnabled (s : State) : Bool :=
  decide (s.g.engine = .hw) && s.e.runA && s.e.runB && decide (0 < s.e.cntA.toNat) &&
  (decide (0 < s.e.osrcA) || !s.e.txfA.isEmpty) && (decide (0 < s.e.osrcB) || !s.e.txfB.isEmpty) && decide (s.e.isrcB < 32)

/-- `RxPush` is enabled (R155). -/
def State.rxPushEnabled (s : State) : Bool :=
  decide (s.g.engine = .hw) && s.e.runB && decide (0 < s.e.isrcB) &&
  (decide (s.e.isrcB = 32) || decide (s.e.cntB.toNat = 0)) && decide (s.e.rxfB.length < s.cfg.qdepth)

/-- `HwEnd` is enabled (R157); `n` is the owner's `N`. -/
def State.hwEndEnabled (n : Word) (s : State) : Bool :=
  decide (s.g.engine = .hw) && s.e.runA && s.e.runB && decide (s.e.cntA.toNat = 0) && decide (s.e.isrcB = 0) &&
  decide (s.e.inW = vectorWords n) && decide (s.e.outW = vectorWords n) && s.e.rxfB.isEmpty

/-- `SwBitStep` is enabled (R163); `n` is the owner's `N`. -/
def State.swBitStepEnabled (n : Word) (s : State) : Bool := decide (s.g.engine = .sw) && decide (s.e.i < n.toNat)

/-- `SwEnd` is enabled (R163); `n` is the owner's `N`. -/
def State.swEndEnabled (n : Word) (s : State) : Bool := decide (s.g.engine = .sw) && decide (s.e.i = n.toNat)

/-- Engine step `e` is enabled; `n` is the owner's `N`. -/
def State.engineEnabled (e : EngineStep) (n : Word) (s : State) : Bool :=
  match e with
  | .feed => s.feedEnabled n
  | .drain => s.drainEnabled
  | .bitStep => s.bitStepEnabled
  | .rxPush => s.rxPushEnabled
  | .hwEnd => s.hwEndEnabled n
  | .swBitStep => s.swBitStepEnabled n
  | .swEnd => s.swEndEnabled n

/-- The hardware fault and the hang can be drawn: at any step of a hardware transfer (R166), never on the software variant
(R165). -/
def State.faultPossible (s : State) : Bool := s.engineAnswers && decide (s.g.engine = .hw)

end Sys2Proof.Machine
end

