-- ==== Sys2Proof/Machine/Decoder.lean ====
section
/-! DEFINITION. The byte-at-a-time decoder of a session (40_commands.md R110-R117). -/

namespace Sys2Proof.Machine

/-- `Classify(s)` (R112), run when the second byte has been stored. -/
def State.classifyStep (k : Nat) (h : Vector Byte 11) (s : State) : State :=
  match classify h[0] h[1] with
  | some kind => s.mapSession k fun se => { se with kind := some kind }
  | none => s.close k .badPrefix

/-- `ValidateN(s)` (R115), run when byte 9 of a `shift` has been stored: the count, then the TMS and TDI slots. -/
def State.validateCount (k : Nat) (h : Vector Byte 11) (s : State) : State :=
  match countError s.cfg (countOf h) with
  | some .lenZero => s.close k .lenZero
  | some .lenOver => s.close k .lenOver
  | some .badPrefix => s.close k .badPrefix
  | some .prefixTail => s.close k .prefixTail
  | none =>
    let s1 := s.mapSession k fun se => { se with n := countOf h }
    match s1.acquireSlot k .tms with
    | none => s1.close k .noSlot
    | some (t, s2) =>
      let s3 := s2.mapSession k fun se => { se with tmsSlot := some t }
      match s3.acquireSlot k .tdi with
      | none => s3.close k .noSlot
      | some (d, s4) => s4.mapSession k fun se => { se with tdiSlot := some d, plen := 0 }

/-- The header branch of `DecodeByte` (R111): store the byte, then the check that the new HLEN asks for. -/
def State.headerByte (k : Nat) (b : Byte) (se : Session) (s : State) : State :=
  let h := se.hdr.setIfInBounds se.hlen b
  let len := se.hlen + 1
  let s1 := s.mapSession k fun se => { se with hdr := h, hlen := len }
  if len = 2 then s1.classifyStep k h
  else
    match se.kind with
    | none => s1
    | some kind =>
      if 3 ≤ len && len ≤ kind.prefixLen && !tailByteOk s.cfg kind se.hlen b then s1.close k .prefixTail
      else if kind = .shift ∧ len = 10 then s1.validateCount k h
      else s1

/-- `PayloadByte(s, b)` (R117): the first `B` payload bytes are TMS, the next `B` are TDI. -/
def State.payloadByte (k : Nat) (b : Byte) (se : Session) (s : State) : Res State :=
  match se.tmsSlot, se.tdiSlot with
  | some t, some d =>
    andThen
      (if se.plen < vectorBytes se.n then s.memWrite t se.plen b else s.memWrite d (se.plen - vectorBytes se.n) b)
      fun s => .next (s.mapSession k fun se => { se with plen := se.plen + 1 })
  | _, _ => .refused (.slotNotHeld k)

/-- `DecodeByte(s)` (R111): consume one byte of RX. -/
def State.decodeByte (k : Nat) (s : State) : Res State :=
  match s.sessions[k]? with
  | none => .refused (.noSuchSession k)
  | some se =>
    match se.rx with
    | [] => .next s
    | b :: rest =>
      let s1 := s.mapSession k fun se => { se with rx := rest }
      if se.hlen < hdrLen se.kind then .next (s1.headerByte k b se) else s1.payloadByte k b se

end Sys2Proof.Machine
end

