-- ==== Sys2Proof/Machine/Engine.lean ====
section
/-! DEFINITION. The JTAG bit-shift engine (41_shift_engine.md): one transfer edge (R142, R143), the hardware variant
(R148-R157), the software variant (R163), and the end of a transfer (40_commands.md R127, R130). -/

namespace Sys2Proof.Machine

/-! ## One transfer edge (R142) -/

/-- TMS and TDI are applied together, while TCK is low. -/
def State.cycleApply (tms tdi : Bool) (s : State) : State := { s with p := { s.p with tms := tms, tdi := tdi } }

/-- TCK rises: the target samples TMS and TDI. -/
def State.cycleRise (s : State) : State :=
  { s with p := { s.p with tck := true, driven := s.p.driven ++ [(s.p.tms, s.p.tdi)] } }

/-- TCK falls: only now does the target's new state reach TDO (R143). -/
def State.cycleFall (s : State) : State :=
  { s with p := { s.p with tck := false }, target := targetNext s.cfg s.target s.p.tms s.p.tdi }

/-- `Cycle(tms, tdi) -> tdo` (R142): TDO is sampled while TCK is high (90_conflicts.md C10). -/
def State.cycle (tms tdi : Bool) (s : State) : Bool × State :=
  let s1 := (s.cycleApply tms tdi).cycleRise
  (s1.tdoPin, s1.cycleFall)

/-- The half period `H` of TCK: in engine reference clocks on the hardware variant (R161), `SW_HALF_DELAY` on the software
variant (R164). Timing only: no step reads it (R256). -/
def State.halfPeriod (s : State) : Nat :=
  match s.g.engine with
  | .hw => s.e.divl * s.cfg.cyclesPerTck / 2
  | .sw => s.cfg.swHalfDelay

/-! ## Start of a transfer -/

/-- `HwSetup()` (R148, R149): the machines stopped, empty queues, the divisor latched, the bit count loaded. -/
def State.hwSetup (n : Word) (s : State) : State :=
  { s with
    e :=
      { s.e with
        runA := false, runB := false, txfA := [], txfB := [], rxfB := [], osrcA := 0, osrcB := 0, isrB := 0, isrcB := 0
        divl := s.g.div, cntA := n, cntB := n, i := 0, inW := 0, outW := 0 } }

/-- `HwStart()` (R151): both machines in one step. -/
def State.hwStart (s : State) : State := { s with e := { s.e with runA := true, runB := true } }

/-- `SwStart()` (R163). -/
def State.swStart (s : State) : State := { s with e := { s.e with i := 0 } }

/-- `TransferStart` (40_commands.md R125): by the engine's identity. -/
def State.transferStart (n : Word) (s : State) : State :=
  match s.g.engine with
  | .hw => (s.hwSetup n).hwStart
  | .sw => s.swStart

/-! ## End of a transfer -/

/-- `ShiftRelease(s)` (40_commands.md R130). -/
def State.shiftRelease (k : Nat) (s : State) : State := (s.releaseSlots k).restart k

/-- `ShiftEnd(s)` (40_commands.md R127): the engine is free again, the TDO bytes are the reply, and then the slots are
released. -/
def State.shiftEnd (k : Nat) (se : Session) (s : State) : Res State :=
  let s1 : State := { s with g := { s.g with busy := false, owner := none } }
  match se.tdoSlot with
  | none => .refused (.slotNotHeld k)
  | some o =>
    andThen (s1.memRead o 0 (vectorBytes se.n)) fun bytes => .next (s1.emitThen k bytes (State.shiftRelease k))

/-! ## The hardware variant's steps; `k` and `se` are the owner and its session -/

/-- `Feed()` (R152): word `IN_W` of TMS and of TDI, pushed in one step. -/
def State.feed (k : Nat) (se : Session) (s : State) : Res State :=
  match se.tmsSlot, se.tdiSlot with
  | some t, some d =>
    andThen (s.readWord t (vectorBytes se.n) s.e.inW) fun a =>
      andThen (s.readWord d (vectorBytes se.n) s.e.inW) fun b =>
        .next { s with e := { s.e with txfA := s.e.txfA ++ [a], txfB := s.e.txfB ++ [b], inW := s.e.inW + 1 } }
  | _, _ => .refused (.slotNotHeld k)

/-- `Drain()` (R153, R156): the oldest received word goes to TDO bytes `4*OUT_W ..`, those below `B`. -/
def State.drain (k : Nat) (se : Session) (s : State) : Res State :=
  match s.e.rxfB with
  | [] => .next s
  | w :: q =>
    match se.tdoSlot with
    | none => .refused (.slotNotHeld k)
    | some o =>
      State.memWriteAll o (4 * s.e.outW) ((le32Bytes w).take (vectorBytes se.n - 4 * s.e.outW))
        { s with e := { s.e with rxfB := q, outW := s.e.outW + 1 } }

/-- SM_A pulls a TMS word when its shift register is empty (R154). -/
def Engine.pullA (e : Engine) : Engine :=
  if e.osrcA = 0 then
    match e.txfA with
    | [] => e
    | w :: q => { e with osrA := w, osrcA := 32, txfA := q }
  else e

/-- SM_B pulls a TDI word when its shift register is empty (R154). -/
def Engine.pullB (e : Engine) : Engine :=
  if e.osrcB = 0 then
    match e.txfB with
    | [] => e
    | w :: q => { e with osrB := w, osrcB := 32, txfB := q }
  else e

/-- The registers after one bit step (R154): one bit out of each output register, LSB first, `tdo` into ISR_B. -/
def Engine.shiftBit (e : Engine) (tdo : Bool) : Engine :=
  { e with
    osrA := e.osrA >>> 1, osrcA := e.osrcA - 1, osrB := e.osrB >>> 1, osrcB := e.osrcB - 1
    isrB := setBit e.isrB e.isrcB tdo, isrcB := e.isrcB + 1, cntA := e.cntA - 1, cntB := e.cntB - 1, i := e.i + 1 }

/-- `BitStep()` (R154): both machines take one transfer edge together. -/
def State.bitStep (s : State) : State :=
  let e := s.e.pullA.pullB
  let r := s.cycle (e.osrA.getLsbD 0) (e.osrB.getLsbD 0)
  { r.2 with e := e.shiftBit r.1 }

/-- `RxPush()` (R155). -/
def State.rxPush (s : State) : State :=
  { s with e := { s.e with rxfB := s.e.rxfB ++ [s.e.isrB], isrB := 0, isrcB := 0 } }

/-- `HwEnd()` (R157). -/
def State.hwEnd (k : Nat) (se : Session) (s : State) : Res State :=
  State.shiftEnd k se { s with e := { s.e with runA := false, runB := false, osrcA := 0, osrcB := 0 } }

/-! ## The software variant's steps -/

/-- `SwBitStep()` (R163): edge `E.I` with the bits read from the TMS and TDI slots, the sampled bit set in the TDO slot. -/
def State.swBitStep (k : Nat) (se : Session) (s : State) : Res State :=
  match se.tmsSlot, se.tdiSlot, se.tdoSlot with
  | some t, some d, some o =>
    andThen (s.memRead t (s.e.i / 8) 1) fun a =>
      andThen (s.memRead d (s.e.i / 8) 1) fun b =>
        let r := s.cycle (vecBit a (s.e.i % 8)) (vecBit b (s.e.i % 8))
        andThen (r.2.memRead o (s.e.i / 8) 1) fun old =>
          andThen (r.2.memWrite o (s.e.i / 8) (setBit (old.getD 0 0) (s.e.i % 8) r.1)) fun s2 =>
            .next { s2 with e := { s2.e with i := s2.e.i + 1 } }
  | _, _, _ => .refused (.slotNotHeld k)

/-! ## One engine step -/

/-- The effect of an enabled engine step of owner `k`. -/
def State.engineEffect (step : EngineStep) (k : Nat) (se : Session) (s : State) : Res State :=
  match step with
  | .feed => s.feed k se
  | .drain => s.drain k se
  | .bitStep => .next s.bitStep
  | .rxPush => .next s.rxPush
  | .hwEnd => s.hwEnd k se
  | .swBitStep => s.swBitStep k se
  | .swEnd => s.shiftEnd k se

/-- An engine step that is not enabled has no effect (R167). -/
def State.engineStep (step : EngineStep) (s : State) : Res State :=
  if s.engineAnswers then
    match s.g.owner with
    | none => .refused .noOwner
    | some k =>
      match s.sessions[k]? with
      | none => .refused (.noSuchSession k)
      | some se => if s.engineEnabled step se.n then s.engineEffect step k se else .next s
  else .next s

end Sys2Proof.Machine
end

