-- ==== Sys2Proof/Machine/Commands.lean ====
section
/-! DEFINITION. The meanings of the three commands (40_commands.md R116, R121, R124), for the session the loop serves. -/

namespace Sys2Proof.Machine

/-- GETINFO (R116). -/
def execGetInfo (s : State) : Host.Outcome State Fault Refusal :=
  match s.sessions[s.serving]? with
  | none => .refused (.noSuchSession s.serving)
  | some _ => .next (s.emitThen s.serving (getInfoReply s.cfg) (State.restart s.serving))

/-- The `G.DIV` write of SETTCK (R121). -/
def State.setDivisor (p : Word) (s : State) : State :=
  if s.cfg.settckApplies then { s with g := { s.g with div := clampDiv s.cfg p } } else s

/-- SETTCK (R121): the divisor first, then the verbatim echo. -/
def execSetTck (p : Word) (s : State) : Host.Outcome State Fault Refusal :=
  match s.sessions[s.serving]? with
  | none => .refused (.noSuchSession s.serving)
  | some _ => .next ((s.setDivisor p).emitThen s.serving (le32Bytes p) (State.restart s.serving))

/-- SHIFT (R124): the session dispatches; an invalid backend or a full arena closes it; else the TDO slot is taken, the
engine becomes busy and the transfer starts (R125). The command value is the one the session holds (R123). -/
def execShift (n : Word) (tms tdi : List Byte) (s : State) : Host.Outcome State Fault Refusal :=
  let k := s.serving
  match s.sessions[k]? with
  | none => .refused (.noSuchSession k)
  | some _ =>
    let s1 := s.mapSession k fun se => { se with phase := .dispatching }
    if s.g.backendValid = false then .next (s1.close k .backendInvalid)
    else
      match s1.acquireSlot k .tdo with
      | none => .next (s1.close k .noSlot)
      | some (o, s2) =>
        andThen (s.heldCommand k) fun i =>
          if i = .shift n tms tdi then
            let s3 := s2.mapSession k fun se => { se with tdoSlot := some o }
            .next (State.transferStart n { s3 with g := { s3.g with busy := true, owner := some k } })
          else .refused .commandNotHeld

end Sys2Proof.Machine
end

