-- ==== Sys2Proof/Machine/Dispatch.lean ====
section
/-! DEFINITION. `exec`: one arm per command of the opcode table (40_commands.md R118). -/

namespace Sys2Proof.Machine

def exec (i : Instr) (s : State) : Host.Outcome State Fault Refusal :=
  match i with
  | .getinfo => Sys2Proof.Machine.execGetInfo s
  | .settck p => Sys2Proof.Machine.execSetTck p s
  | .shift n tms tdi => Sys2Proof.Machine.execShift n tms tdi s

end Sys2Proof.Machine
end

