-- ==== Sys2Proof/Machine/Sessions.lean ====
section
/-! DEFINITION. Session and environment events (42_session.md R186-R194), the events around a transfer
(41_shift_engine.md R143, R166) and block reset (70_reset_and_hazards.md R240-R242). An event that is not enabled has no
effect. -/

namespace Sys2Proof.Machine

/-- `Accept(s)` of slot `k` (R186). -/
def State.acceptInto (k : Nat) (s : State) : State :=
  s.mapSession k fun se =>
    { se with
      phase := .accepted, hlen := 0, plen := 0, kind := none, tmsSlot := none, tdiSlot := none, tdoSlot := none, tx := []
      reason := none, rx := [], eof := false, gone := false, seen := [] }

/-- The event `accept` (R186): the lowest closed slot; without one, or while BUSY or HALTED, nothing changes. -/
def State.accept (s : State) : State :=
  if s.loopFree then
    match s.sessions.findIdx? fun se => decide (se.phase = .closed) with
    | none => s
    | some k => s.acceptInto k
  else s

/-- The event `arrive(s, bytes)` (R187). -/
def State.arrive (k : Nat) (bytes : List Byte) (s : State) : State :=
  s.mapSession k fun se => if se.isOpen && !se.eof then { se with rx := se.rx ++ bytes } else se

/-- The init step (R188). -/
def State.init (k : Nat) (s : State) : State := s.mapSession k fun se => { se with phase := .awaitingCommand }

/-- The event `eof(s)` (R189). -/
def State.peerEof (k : Nat) (s : State) : State :=
  s.mapSession k fun se => if se.isOpen then { se with eof := true } else se

/-- `EndOfStream(s)` (R190). -/
def State.endOfStream (k : Nat) (se : Session) (s : State) : State :=
  if se.kind.isSome || decide (0 < se.hlen) then s.close k .eofMidCmd else s.close k .peerClosed

/-- The event `reset(s)` (R191): a close, unless the session is dispatching: then its reply write will see it (R200). -/
def State.peerReset (k : Nat) (s : State) : State :=
  match s.sessions[k]? with
  | none => s
  | some se =>
    match se.phase with
    | .closed => s
    | .dispatching => s.mapSession k fun se => { se with gone := true }
    | .accepted => if s.g.busy then s else s.close k .peerReset
    | .awaitingCommand => if s.g.busy then s else s.close k .peerReset

/-- The event `idle(s)` (R194). -/
def State.idle (k : Nat) (s : State) : State :=
  match s.sessions[k]? with
  | none => s
  | some se => if se.phase = .awaitingCommand ∧ s.g.busy = false then s.close k .idle else s

/-- The target moves by itself, between transfers (R143). -/
def State.targetMoves (t : TargetState) (s : State) : State := if s.g.busy then s else { s with target := t }

/-- The undetected hang of a hardware transfer (R166). -/
def State.hang (s : State) : State := if s.faultPossible then { s with e := { s.e with hung := true } } else s

/-- The drawn hardware fault (R166, R219). -/
def State.drawFault (tck tms tdi : Bool) (t : TargetState) (s : State) : Res State :=
  if s.faultPossible then s.hwFault tck tms tdi t else .next s

/-- Block reset (R240, R241): every register to its reset value. The target is not reset; after a reset during a transfer
its state is drawn (R242). The inputs to come are not part of the block. -/
def State.blockReset (t : TargetState) (s : State) : State :=
  { State.resetWith s.cfg (if s.g.busy then t else s.target) with inputs := s.inputs, draws := s.draws }

end Sys2Proof.Machine
end

