-- ==== Sys2Proof/Machine/Loop.lean ====
section
/-! DEFINITION. The service loop (42_session.md R196-R203): which step a session takes, what an input does, and where the
next input comes from. Also how a command is laid into the machine for `State.withFetchWord`. -/

namespace Sys2Proof.Machine

/-- `Dispatch(s)` (40_commands.md R118): fetch the command the session holds and execute it. -/
def State.dispatch (k : Nat) (s : State) : Res State := andThen (s.heldCommand k) fun i => exec i s

/-- The step of an `AwaitingCommand` session (R198): dispatch if the command is complete, else a byte, else end-of-stream,
else "need more input". -/
def State.awaitingStep (k : Nat) (se : Session) (s : State) : Res State :=
  if se.complete then s.dispatch k
  else if se.rx.isEmpty = false then s.decodeByte k
  else if se.eof then .next (s.endOfStream k se)
  else .next s

/-- The session step of slot `k` that is enabled, if one is (R185, R197, R203). -/
def State.sessionStep (k : Nat) (s : State) : Res State :=
  match s.sessions[k]? with
  | none => .next s
  | some se =>
    if s.loopFree then
      match se.phase with
      | .closed => .next s
      | .accepted => .next (s.init k)
      | .awaitingCommand => s.awaitingStep k se
      | .dispatching => .next s
    else .next s

/-- What one input does (00_scope.md R14). -/
def State.perform (i : Input) (s : State) : Res State :=
  match i with
  | .accept => .next s.accept
  | .arrive k bytes => .next (s.arrive k bytes)
  | .eof k => .next (s.peerEof k)
  | .peerReset k => .next (s.peerReset k)
  | .idle k => .next (s.idle k)
  | .targetMoves t => .next (s.targetMoves t)
  | .hwFault tck tms tdi t => s.drawFault tck tms tdi t
  | .hang => .next s.hang
  | .blockReset t => .next (s.blockReset t)
  | .serve k w => State.sessionStep k { s with serving := k, write := w }
  | .engine e w => State.engineStep e { s with write := w }

/-- A sequence of inputs, one step each. -/
def State.performAll : List Input → State → Res State
  | [], s => .next s
  | i :: is, s => andThen (s.perform i) (State.performAll is)

/-- The input of this step: the next one already chosen, else a free one (R198; log 2). -/
def State.nextInput (s : State) : Input :=
  match s.inputs with
  | i :: _ => i
  | [] => Config.freeInput s.draws

/-- The state with that input taken. -/
def State.takeInput (s : State) : State :=
  match s.inputs with
  | _ :: is => { s with inputs := is }
  | [] => { s with draws := s.draws + 1 }

/-! ## Laying a command into the machine -/

/-- Slot 0 as a fresh connection awaiting a command (R186, R188), on a loop that is free to serve it. -/
def State.openForFetch (s : State) : State :=
  let s1 := (s.releaseSlots 0).acceptInto 0
  State.init 0 { s1 with g := { s1.g with busy := false, owner := none, halted := false } }

/-- Feed the bytes `byteAt j, byteAt (j+1), ..` to the decoder of session 0 until its command is complete. A byte whose
decoding closes the session is left in RX, so that the next step decodes it. -/
def State.feedBytes (byteAt : Nat → Byte) : Nat → Nat → State → State
  | 0, _, s => s
  | fuel + 1, j, s =>
    match s.sessions[0]? with
    | none => s
    | some se =>
      if se.complete then s
      else
        let s1 := s.mapSession 0 fun se => { se with rx := [byteAt j] }
        match s1.decodeByte 0 with
        | .next s2 =>
          if (s2.sessions[0]?.map Session.phase) = some .awaitingCommand then State.feedBytes byteAt fuel (j + 1) s2 else s1
        | .fault _ => s1
        | .refused _ => s1

/-- Session 0 holding the command of those bytes, and the loop about to serve it with a reply write that succeeds. -/
def State.loadCommand (byteAt : Nat → Byte) (s : State) : State :=
  let s1 := State.feedBytes byteAt (longestCommand s.cfg) 0 s.openForFetch
  { s1 with inputs := .serve 0 { ok := true, delivered := 0 } :: s1.inputs }

end Sys2Proof.Machine
end

