-- ==== Sys2Proof/Machine/Step.lean ====
section
/-! DEFINITION. One step of the machine, and where it fetches its next instruction. -/

namespace Sys2Proof.Machine

/-- One step (00_scope.md R14): the next input takes effect. Parameters outside R10 are refused. -/
def step (s : State) : Host.Outcome State Fault Refusal :=
  if s.cfg.valid then s.takeInput.perform s.nextInput else .refused .badConfig

/-- `s` with the command of the table word `w` received by session 0, complete and undispatched, and that session the next
one served: the very next step dispatches it (or, where the bytes spell no command, decodes the byte that closes the
session). Log 12, log 13. -/
def State.withFetchWord (s : State) (nbits w : Nat) : State := s.loadCommand (tableByte nbits w)

end Sys2Proof.Machine
end

