-- ==== Sys2Proof/Safety.lean ====
section
/-! DEFINITION. The terms the claims are stated in: the reference result of a transfer (41_shift_engine.md R146), runs of
engine steps, quiescent and stuck states (42_session.md R204), and the invariants. Nothing here is part of the machine. -/

namespace Sys2Proof.Machine

/-! ## The result of a transfer, as a function (R146) -/

/-- `T_i`: the target state at the start of edge `i` of a transfer that found the target in `t0` (R143, R146). -/
def targetAt (c : Config) (t0 : TargetState) (tms tdi : List Byte) : Nat → TargetState
  | 0 => t0
  | i + 1 => targetNext c (targetAt c t0 tms tdi i) (vecBit tms i) (vecBit tdi i)

/-- `tdo[i] = TdoOut(T_i)` (R143, R146). -/
def tdoBit (c : Config) (t0 : TargetState) (tms tdi : List Byte) (i : Nat) : Bool :=
  targetOut c (targetAt c t0 tms tdi i)

/-- Byte `j` of a vector of `n` bits, the bits at or above `n` being 0 (R146, 20_memory.md R64). -/
def packByte (bit : Nat → Bool) (n j : Nat) : Byte :=
  BitVec.ofFnLE fun k : Fin 8 => decide (8 * j + k.val < n) && bit (8 * j + k.val)

/-- The reply of a `shift` of `n` bits (R146, 30_encoding.md R97). -/
def transferReply (c : Config) (t0 : TargetState) (n : Nat) (tms tdi : List Byte) : List Byte :=
  (List.range (ceilDiv n 8)).map (packByte (tdoBit c t0 tms tdi) n)

/-- The (TMS, TDI) pairs of the `n` rising edges of a transfer, in order (R141, R144). -/
def edgePairs (n : Nat) (tms tdi : List Byte) : List (Bool × Bool) :=
  (List.range n).map fun i => (vecBit tms i, vecBit tdi i)

/-! ## Runs of engine steps -/

/-- Engine steps as inputs, every reply write succeeding. -/
def engineInputs (es : List EngineStep) : List Input := es.map fun e => .engine e { ok := true, delivered := 0 }

/-- The engine step `e` is enabled for the transfer in flight (R152-R157, R163). -/
def State.engineStepEnabled (e : EngineStep) (s : State) : Bool :=
  s.engineAnswers &&
    match s.g.owner with
    | none => false
    | some k =>
      match s.sessions[k]? with
      | none => false
      | some se => s.engineEnabled e se.n

/-- `s` steps to `t` by the engine steps `es`, each of them enabled where it is taken. -/
inductive EngineRun : List EngineStep → State → State → Prop where
  | nil (s : State) : EngineRun [] s s
  | cons {e : EngineStep} {es : List EngineStep} {s s' t : State} (enabled : s.engineStepEnabled e = true)
      (taken : s.perform (.engine e { ok := true, delivered := 0 }) = .next s') (rest : EngineRun es s' t) :
      EngineRun (e :: es) s t

/-- The next step of session `k` leads to `u`, the loop's own latch (`serving`, `write`; log 3) apart. -/
def State.ServeGives (k : Nat) (w : WriteOutcome) (s u : State) : Prop :=
  ∃ t, s.perform (.serve k w) = .next t ∧ { t with serving := s.serving, write := s.write } = u

/-- The bytes of the command session `k` has received, as it stores them: the header bytes, then the payload in the TMS and
TDI slots (10_state.md R30, 40_commands.md R117). This is where the loop fetches a complete command. -/
def State.commandBytes (k : Nat) (s : State) : Res (List Byte) :=
  match s.sessions[k]? with
  | none => .refused (.noSuchSession k)
  | some se =>
    let header := se.hdr.toList.take se.hlen
    match se.kind with
    | some .shift =>
      match se.tmsSlot, se.tdiSlot with
      | some t, some d =>
        andThen (s.memRead t 0 (vectorBytes se.n)) fun tms =>
          andThen (s.memRead d 0 (vectorBytes se.n)) fun tdi => .next (header ++ tms ++ tdi)
      | _, _ => .refused (.slotNotHeld k)
    | _ => .next header

/-! ## Quiescent and stuck (42_session.md R204) -/

/-- The session waits for input or is closed. -/
def Session.waits (se : Session) : Bool :=
  decide (se.phase = .closed) ||
    (decide (se.phase = .awaitingCommand) && se.rx.isEmpty && !se.eof && !se.complete)

/-- No step of the block is enabled, and none is owed (R204). -/
def State.quiescent (s : State) : Bool := !s.g.busy && s.sessions.all Session.waits

/-- The hang of R166: BUSY and no engine step enabled (R204: "stuck, never quiescent"). -/
def State.stuck (s : State) : Bool := s.g.busy && s.e.hung

/-! ## Invariants -/

/-- Every slot's bytes lie inside the slot (20_memory.md R60) and their list is canonical (the model's representation:
DEDUCED, log 19). -/
def State.MemoryCanonical (s : State) : Prop :=
  ∀ sl ∈ s.arena, Memory.wf sl.bytes = true ∧ Memory.below s.cfg.slotBytes sl.bytes = true

/-- SM_A and SM_B move together (41_shift_engine.md R151, R154). -/
def State.LockStep (s : State) : Prop :=
  s.e.runA = s.e.runB ∧ s.e.cntA = s.e.cntB ∧ s.e.osrcA = s.e.osrcB ∧ s.e.txfA.length = s.e.txfB.length

/-- The queues and the shift registers' counts within their widths (10_state.md R42, R43). -/
def State.EngineBounds (s : State) : Prop :=
  s.e.txfA.length ≤ s.cfg.qdepth ∧ s.e.txfB.length ≤ s.cfg.qdepth ∧ s.e.rxfB.length ≤ s.cfg.qdepth ∧
  s.e.osrcA ≤ 32 ∧ s.e.osrcB ≤ 32 ∧ s.e.isrcB ≤ 32

/-- `G.DIV` and `E.DIVL` legal (10_state.md R22, R44). -/
def State.DivisorLegal (s : State) : Prop :=
  s.cfg.divMin ≤ s.g.div ∧ s.g.div ≤ s.cfg.divMax ∧ s.cfg.divMin ≤ s.e.divl ∧ s.e.divl ≤ s.cfg.divMax

/-- Single flight (42_session.md R201): BUSY exactly while some session dispatches, and that session is the owner. -/
def State.SingleFlight (s : State) : Prop :=
  (s.g.busy = false → s.g.owner = none ∧ ∀ se ∈ s.sessions, se.phase ≠ .dispatching) ∧
  (s.g.busy = true →
    ∃ k, s.g.owner = some k ∧ (∃ se : Session, s.sessions[k]? = some se ∧ se.phase = .dispatching) ∧
      ∀ (j : Nat) (sj : Session), s.sessions[j]? = some sj → sj.phase = .dispatching → j = k)

/-- While HALTED every session is closed and no transfer is in flight (10_state.md R27, 60_exceptions.md R221). -/
def State.HaltedClosed (s : State) : Prop :=
  s.g.halted = true →
    s.g.busy = false ∧ s.cfg.hwFaultPolicy = .haltAll ∧ ∀ se ∈ s.sessions, se.phase = .closed

/-- The slot register of a role. -/
def Session.slotOf (se : Session) : Role → Option Nat
  | .tms => se.tmsSlot
  | .tdi => se.tdiSlot
  | .tdo => se.tdoSlot

/-- A slot is owned for a role exactly if that session's register for the role names it (10_state.md R34, R39). -/
def State.Ownership (s : State) : Prop :=
  ∀ (a k : Nat) (r : Role),
    (∃ sl : Slot, s.arena[a]? = some sl ∧ sl.owner = some (k, r)) ↔ (∃ se : Session, s.sessions[k]? = some se ∧ se.slotOf r = some a)

/-- The header register agrees with KIND, HLEN, PLEN, N and the TMS and TDI slots (10_state.md R30-R34, R37;
40_commands.md R111-R117). -/
def Session.positionOk (c : Config) (se : Session) : Prop :=
  match se.kind with
  | none => se.hlen ≤ 1 ∧ se.plen = 0 ∧ se.tmsSlot = none ∧ se.tdiSlot = none
  | some kind =>
    2 ≤ se.hlen ∧ se.hlen ≤ kind.hdrLen ∧ classify se.hdr[0] se.hdr[1] = some kind ∧
    if kind = .shift ∧ se.hlen = 10 then
      se.n = countOf se.hdr ∧ 1 ≤ se.n.toNat ∧ se.n.toNat ≤ c.maxBits ∧ se.plen ≤ 2 * vectorBytes se.n ∧
      se.tmsSlot.isSome = true ∧ se.tdiSlot.isSome = true
    else se.plen = 0 ∧ se.tmsSlot = none ∧ se.tdiSlot = none

/-- What the phase says of the decoder registers and of the TDO slot (42_session.md R185, R195; 40_commands.md R124). -/
def Session.phaseOk (se : Session) : Prop :=
  match se.phase with
  | .closed => se.kind = none ∧ se.hlen = 0 ∧ se.rx = [] ∧ se.tdoSlot = none
  | .accepted => se.kind = none ∧ se.hlen = 0 ∧ se.tdoSlot = none
  | .awaitingCommand => se.tdoSlot = none
  | .dispatching => se.kind = some .shift ∧ se.complete = true ∧ se.tdoSlot.isSome = true

/-- Every session's registers are consistent. -/
def State.SessionsOk (s : State) : Prop :=
  ∀ (k : Nat) (se : Session), s.sessions[k]? = some se → Session.positionOk s.cfg se ∧ Session.phaseOk se

/-- The numbers of slots are the parameters', the engine is the one fixed at reset, and the flags of the engine agree with
BUSY and BACKEND_VALID (10_state.md R20, R23, R24, R25; 41_shift_engine.md R166). -/
def State.Shape (s : State) : Prop :=
  s.sessions.length = s.cfg.maxSessions ∧ s.arena.length = s.cfg.arenaSlots ∧ s.g.engine = s.cfg.engineKind ∧
  (s.g.busy = true → s.g.backendValid = true) ∧ (s.e.hung = true → s.g.busy = true ∧ s.g.engine = .hw)

/-- The clock rests low between steps, unless a hardware fault has left the pins drawn (10_state.md R45, 41_shift_engine.md
R145, R159; 60_exceptions.md R219). -/
def State.ClockLow (s : State) : Prop := s.g.backendValid = true → s.p.tck = false

/-- The software variant leaves the hardware engine's registers at their reset values (41_shift_engine.md R165). -/
def State.SoftwareIdle (s : State) : Prop :=
  s.g.engine = .sw → s.e = { Engine.reset s.cfg with i := s.e.i }

/-- All of it, over parameters that R10 admits. -/
structure State.Inv (s : State) : Prop where
  config : s.cfg.valid = true
  shape : s.Shape
  divisor : s.DivisorLegal
  memory : s.MemoryCanonical
  lockStep : s.LockStep
  bounds : s.EngineBounds
  flight : s.SingleFlight
  halt : s.HaltedClosed
  sessions : s.SessionsOk
  owned : s.Ownership
  clock : s.ClockLow

end Sys2Proof.Machine
end

