-- ==== Sys2Proof/Certificates/Slice0/Obligations.lean ====
section
/-! DEFINITION. The statements for the provers. Each docstring names the rules of spec/ it formalises; a statement about
every state holds in states that no run reaches, or takes an invariant of Safety.lean as a premise. -/

open Sys2Proof Sys2Proof.Machine

/-! ## Encoding -/

/-- R102: the decoder inverts `Enc` on every valid command, whatever bytes follow it. -/
def Obligations.DecodeInvertsEncode : Prop :=
  ∀ (c : Config) (i : Instr) (rest : List Byte), i.wf c = true → decode c (encode i ++ rest) = .done i rest

/-- 30_encoding.md sections 1-3 (R85, R91, R92, R93): what the decoder hands out is a command of the notation, it consumes
exactly that command's length, and with the full literal checked the consumed bytes are its encoding. -/
def Obligations.DecodedCommandIsWellFormed : Prop :=
  ∀ (c : Config) (bs rest : List Byte) (i : Instr), decode c bs = .done i rest →
    i.wf c = true ∧ (encode i).length ≤ bs.length ∧ rest = bs.drop (encode i).length ∧
      (c.checkFullPrefix = true → bs = encode i ++ rest)

/-- Words written out from 30_encoding.md R87, R88, R89 and R101, and the byte pair "gexxxxxx" of R93 (vector V-D7). -/
def Obligations.SampleWordsDecode : Prop :=
  decode Config.vectors [0x67, 0x65, 0x74, 0x69, 0x6E, 0x66, 0x6F, 0x3A] = .done .getinfo [] ∧
  decode Config.vectors [0x67, 0x65, 0x78, 0x78, 0x78, 0x78, 0x78, 0x78] = .done .getinfo [] ∧
  decode Config.vectors [0x73, 0x65, 0x74, 0x74, 0x63, 0x6B, 0x3A, 0x64, 0x00, 0x00, 0x00] = .done (.settck 100) [] ∧
  decode Config.vectors [0x73, 0x68, 0x69, 0x66, 0x74, 0x3A, 0x09, 0x00, 0x00, 0x00, 0x03, 0x00, 0xFF, 0x01] =
    .done (.shift 9 [0x03, 0x00] [0xFF, 0x01]) []

/-- R99 with R98 (c), (d): a byte pair that is no prefix is a decode failure, every `settck` period is legal, and the only
illegal `shift` counts are 0 and those over MAX_BITS. -/
def Obligations.OnlyTheNamedEncodingsAreIllegal : Prop :=
  (∀ (c : Config) (b0 b1 : Byte) (rest : List Byte),
    ¬(b0 = 0x67 ∧ b1 = 0x65) → ¬(b0 = 0x73 ∧ b1 = 0x65) → ¬(b0 = 0x73 ∧ b1 = 0x68) →
      decode c (b0 :: b1 :: rest) = .reject .badPrefix) ∧
  (∀ (c : Config) (p0 p1 p2 p3 : Byte) (rest : List Byte),
    decode c (literal .settck ++ p0 :: p1 :: p2 :: p3 :: rest) = .done (.settck (le32 p0 p1 p2 p3)) rest) ∧
  (∀ (c : Config) (n0 n1 n2 n3 : Byte) (rest : List Byte),
    ((le32 n0 n1 n2 n3).toNat = 0 →
      decode c (literal .shift ++ n0 :: n1 :: n2 :: n3 :: rest) = .reject .lenZero) ∧
    (c.maxBits < (le32 n0 n1 n2 n3).toNat →
      decode c (literal .shift ++ n0 :: n1 :: n2 :: n3 :: rest) = .reject .lenOver) ∧
    (1 ≤ (le32 n0 n1 n2 n3).toNat → (le32 n0 n1 n2 n3).toNat ≤ c.maxBits →
      ∀ e, decode c (literal .shift ++ n0 :: n1 :: n2 :: n3 :: rest) ≠ .reject e))

/-- R102, R110 over the byte-at-a-time decoder (R111-R117): from the start of a command, one served byte step for each byte
of `Enc(i)` leaves the session holding exactly `i`, the bytes after it still queued and nothing written. A `shift` needs two
free arena slots. -/
def Obligations.ByteStepsReceiveTheCommand : Prop :=
  ∀ (s : State) (k : Nat) (w : WriteOutcome) (se : Session) (i : Instr) (rest : List Byte),
    s.loopFree = true → s.sessions[k]? = some se → se.phase = .awaitingCommand → se.kind = none → se.hlen = 0 →
    se.plen = 0 → se.rx = encode i ++ rest → i.wf s.cfg = true →
    (i.kind = .shift → ∃ (a b : Nat) (sa sb : Slot), a < b ∧ s.arena[a]? = some sa ∧ sa.owner = none ∧ s.arena[b]? = some sb ∧ sb.owner = none) →
    ∃ t se', State.performAll (List.replicate (encode i).length (.serve k w)) s = .next t ∧
      t.sessions[k]? = some se' ∧ se'.phase = .awaitingCommand ∧ se'.complete = true ∧ se'.kind = some i.kind ∧
      se'.rx = rest ∧ se'.tx = se.tx ∧ t.heldCommand k = .next i ∧
      t.g = s.g ∧ t.e = s.e ∧ t.p = s.p ∧ t.target = s.target ∧ ∀ j, j ≠ k → t.sessions[j]? = s.sessions[j]?

/-! ## One step -/

/-- R118 (the model's own frame around it, log 2 and 3): when the loop serves a session whose command is complete, the step
is `exec` of the command the session holds, in the state with the input taken and the session latched. -/
def Obligations.StepRunsHeldCommand : Prop :=
  ∀ (s : State) (k : Nat) (w : WriteOutcome) (se : Session) (i : Instr),
    s.cfg.valid = true → s.nextInput = .serve k w → s.loopFree = true → s.sessions[k]? = some se →
    se.phase = .awaitingCommand → se.complete = true → s.heldCommand k = .next i →
    step s = exec i { s.takeInput with serving := k, write := w }

/-- R110, R118 in terms of bytes: where the bytes the session has received decode to a command and its registers were filled
by the decoder (R112, R115), the step is `exec` of that command. -/
def Obligations.StepRunsDecodedBytes : Prop :=
  ∀ (s : State) (k : Nat) (w : WriteOutcome) (se : Session) (i : Instr) (bytes : List Byte),
    s.cfg.valid = true → s.nextInput = .serve k w → s.loopFree = true → s.sessions[k]? = some se →
    se.phase = .awaitingCommand → se.complete = true → Session.positionOk s.cfg se →
    s.commandBytes k = .next bytes → decode s.cfg bytes = .done i [] →
    step s = exec i { s.takeInput with serving := k, write := w }

/-- R10: a configuration outside the bounds is refused. -/
def Obligations.BadParametersAreRefused : Prop :=
  ∀ s : State,
    ¬(1 ≤ s.cfg.maxBits ∧ s.cfg.maxBits ≤ 2 ^ 32 - 8 ∧ 1 ≤ s.cfg.arenaSlots ∧ 1 ≤ s.cfg.maxSessions ∧ 1 ≤ s.cfg.qdepth ∧
      2 ≤ s.cfg.cyclesPerTck ∧ s.cfg.cyclesPerTck % 2 = 0 ∧ 1 ≤ s.cfg.divMin ∧ s.cfg.divMin ≤ s.cfg.divInit ∧
      s.cfg.divInit ≤ s.cfg.divMax) →
    step s = .refused .badConfig

/-! ## Reset -/

/-- R241 (the table of 10_state.md R51), for every choice of the parameters and every target state. -/
def Obligations.ResetValues : Prop :=
  ∀ (c : Config) (t : TargetState),
    let s := State.resetWith c t
    s.cfg = c ∧ s.target = t ∧
    s.g = { div := c.divInit, engine := c.engineKind, backendValid := true, busy := false, owner := none, faultLog := [],
            halted := false } ∧
    s.sessions.length = c.maxSessions ∧
    (∀ se ∈ s.sessions, se.phase = .closed ∧ se.hlen = 0 ∧ se.plen = 0 ∧ se.kind = none ∧ se.tmsSlot = none ∧
      se.tdiSlot = none ∧ se.tdoSlot = none ∧ se.tx = [] ∧ se.reason = none ∧ se.rx = [] ∧ se.eof = false) ∧
    s.arena.length = c.arenaSlots ∧ (∀ sl ∈ s.arena, sl.owner = none ∧ ∀ off, Memory.read sl.bytes off = 0) ∧
    s.e.runA = false ∧ s.e.runB = false ∧ s.e.cntA = 0 ∧ s.e.cntB = 0 ∧ s.e.osrA = 0 ∧ s.e.osrB = 0 ∧ s.e.osrcA = 0 ∧
    s.e.osrcB = 0 ∧ s.e.isrB = 0 ∧ s.e.isrcB = 0 ∧ s.e.txfA = [] ∧ s.e.txfB = [] ∧ s.e.rxfB = [] ∧ s.e.i = 0 ∧
    s.e.inW = 0 ∧ s.e.outW = 0 ∧ s.e.divl = c.divInit ∧
    s.p.tck = false ∧ s.p.tms = false ∧ s.p.tdi = false

/-- 70_reset_and_hazards.md R244 and the invariants of Safety.lean: every reset state over legal parameters satisfies the
invariant and is quiescent, and so does `State.reset`, whose parameters are the model's choice (log 1). (Of the
invariant, the canonical form of the arena's bytes and `hung` are the model's: log 19, 8.) -/
def Obligations.ResetSatisfiesInvariant : Prop :=
  (∀ (c : Config) (t : TargetState), c.valid = true → (State.resetWith c t).Inv ∧ (State.resetWith c t).quiescent = true) ∧
  State.reset.Inv

/-- R240, R241, R242: block reset gives every register its reset value whatever the state was; the target keeps its state,
or has the drawn one if a transfer was in flight. (The inputs to come are the model's: log 2; HDR and N get log 7's values.) -/
def Obligations.BlockResetRestoresResetValues : Prop :=
  ∀ (s : State) (t : TargetState),
    s.perform (.blockReset t) =
      .next { State.resetWith s.cfg (if s.g.busy = true then t else s.target) with inputs := s.inputs, draws := s.draws }

/-! ## GETINFO and SETTCK -/

/-- R116, R95: GETINFO appends its reply to TX and returns to the start of a command, whatever the backend's state. (`seen` and `gone` are the model's: log 10, 11.) -/
def Obligations.GetInfoReplies : Prop :=
  ∀ (s : State) (se : Session), s.sessions[s.serving]? = some se → s.write.ok = true → se.gone = false →
    let reply : List Byte :=
      [0x78, 0x76, 0x63, 0x53, 0x65, 0x72, 0x76, 0x65, 0x72, 0x5F, 0x76, 0x31, 0x2E, 0x30, 0x3A] ++
        decimal s.cfg.maxBits ++ [0x0A]
    exec .getinfo s =
      .next { s with
        sessions := s.sessions.set s.serving
          { se with
            tx := se.tx ++ reply, seen := se.seen ++ reply, hlen := 0, plen := 0, kind := none
            phase := .awaitingCommand } }

/-- R95: the digits of `decimal n` are ASCII decimal digits, they denote `n`, and there is no leading zero. -/
def Obligations.DecimalIsTheNumber : Prop :=
  ∀ n : Nat,
    (decimal n).foldl (fun v (d : Byte) => 10 * v + (d.toNat - 0x30)) 0 = n ∧
    (∀ d ∈ decimal n, 0x30 ≤ d.toNat ∧ d.toNat ≤ 0x39) ∧ decimal n ≠ [] ∧
    (0 < n → (decimal n).head? ≠ some 0x30) ∧ (n = 0 → decimal n = [0x30])

/-- R121: SETTCK stores the clamped divisor if SETTCK_APPLIES, echoes the operand's bytes and returns to the start of a
command. (`seen` and `gone` are the model's: log 10, 11.) -/
def Obligations.SetTckWritesDivisorAndEchoes : Prop :=
  ∀ (s : State) (se : Session) (p0 p1 p2 p3 : Byte), s.sessions[s.serving]? = some se → s.write.ok = true →
    se.gone = false →
    exec (.settck (le32 p0 p1 p2 p3)) s =
      .next { s with
        g := { s.g with div := if s.cfg.settckApplies = true then clampDiv s.cfg (le32 p0 p1 p2 p3) else s.g.div }
        sessions := s.sessions.set s.serving
          { se with
            tx := se.tx ++ [p0, p1, p2, p3], seen := se.seen ++ [p0, p1, p2, p3], hlen := 0, plen := 0, kind := none
            phase := .awaitingCommand } }

/-- R12, R70, R102: the operand's value is the little-endian sum of its bytes, and its bytes are recovered from it. -/
def Obligations.OperandBytesAreLittleEndian : Prop :=
  (∀ b0 b1 b2 b3 : Byte,
    (le32 b0 b1 b2 b3).toNat = b0.toNat + 2 ^ 8 * b1.toNat + 2 ^ 16 * b2.toNat + 2 ^ 24 * b3.toNat ∧
    le32Bytes (le32 b0 b1 b2 b3) = [b0, b1, b2, b3]) ∧
  ∀ w : Word, operandAt (le32Bytes w) 0 = w

/-- R160: the divisor is legal, and rounded up: the period it gives is no shorter than asked unless DIV_MAX clamps it, and
the next smaller divisor's would be unless DIV_MIN clamps it. -/
def Obligations.ClampDivIsLegalAndRoundsUp : Prop :=
  ∀ (c : Config) (p : Word), c.valid = true →
    c.divMin ≤ clampDiv c p ∧ clampDiv c p ≤ c.divMax ∧
    (p.toNat * c.sysClkHz ≤ clampDiv c p * (1000000000 * c.cyclesPerTck) ∨ clampDiv c p = c.divMax) ∧
    ((clampDiv c p - 1) * (1000000000 * c.cyclesPerTck) < p.toNat * c.sysClkHz ∨ clampDiv c p = c.divMin)

/-- R193: a failed reply write of GETINFO or SETTCK closes the session with E_WRITE. TX keeps the successful writes only, the
host has any prefix of the failed reply, and the divisor SETTCK wrote stays. (`seen` and `gone` are the model's: log 10, 11.) -/
def Obligations.FailedReplyWriteCloses : Prop :=
  ∀ (s : State) (se : Session), s.sessions[s.serving]? = some se → (s.write.ok = false ∨ se.gone = true) →
    (∃ t, exec .getinfo s = .next t ∧ t.g = s.g ∧
      t.sessions[s.serving]? =
        some { se with
          seen := se.seen ++ (getInfoReply s.cfg).take s.write.delivered, hlen := 0, plen := 0, kind := none, rx := []
          tmsSlot := none, tdiSlot := none, tdoSlot := none, reason := some .write, phase := .closed }) ∧
    ∀ p : Word, ∃ t, exec (.settck p) s = .next t ∧
      t.g.div = (if s.cfg.settckApplies = true then clampDiv s.cfg p else s.g.div) ∧
      t.sessions[s.serving]? =
        some { se with
          seen := se.seen ++ (le32Bytes p).take s.write.delivered, hlen := 0, plen := 0, kind := none, rx := []
          tmsSlot := none, tdiSlot := none, tdoSlot := none, reason := some .write, phase := .closed }

/-- R116, R121, R133 (frame of GETINFO and SETTCK, whether the reply is written or not): they change G only in SETTCK's DIV,
the engine, the pins and the target not at all, of the sessions only the served one and there not HDR, N, EOF; no byte of the
arena changes, and no slot's owner but those the served session held. (`seen`, `gone`,
`serving`, `write`, `inputs` and `draws` are the model's: log 2, 3, 10, 11.) -/
def Obligations.ReplyCommandFrame : Prop :=
  ∀ (s t : State) (i : Instr), (i = .getinfo ∨ ∃ p, i = .settck p) → exec i s = .next t →
    t.cfg = s.cfg ∧ t.e = s.e ∧ t.p = s.p ∧ t.target = s.target ∧ t.serving = s.serving ∧ t.write = s.write ∧
    t.inputs = s.inputs ∧ t.draws = s.draws ∧
    t.g = { s.g with div := t.g.div } ∧ (i = .getinfo → t.g.div = s.g.div) ∧
    t.sessions.length = s.sessions.length ∧ (∀ j, j ≠ s.serving → t.sessions[j]? = s.sessions[j]?) ∧
    (∀ se se', s.sessions[s.serving]? = some se → t.sessions[s.serving]? = some se' →
      se'.hdr = se.hdr ∧ se'.n = se.n ∧ se'.eof = se.eof ∧ se'.gone = se.gone) ∧
    t.arena.length = s.arena.length ∧
    ∀ (a : Nat) (sl sl' : Slot), s.arena[a]? = some sl → t.arena[a]? = some sl' →
      (∀ off, Memory.read sl'.bytes off = Memory.read sl.bytes off) ∧
      (sl'.owner = sl.owner ∨
        ∃ se, s.sessions[s.serving]? = some se ∧ (se.tmsSlot = some a ∨ se.tdiSlot = some a ∨ se.tdoSlot = some a))

/-! ## SHIFT -/

/-- R124, R125, R148, R149, R151, R162: on the hardware variant a SHIFT with a valid backend and a free arena slot takes the
lowest free slot, zero-filled, marks the engine busy for its session, loads both bit counts, latches the divisor and starts
both machines; nothing else changes. -/
def Obligations.ShiftStartsHardwareTransfer : Prop :=
  ∀ (s : State) (se : Session) (sl : Slot) (n : Word) (tms tdi : List Byte) (t d a : Nat),
    s.sessions[s.serving]? = some se → se.kind = some .shift → se.n = n → se.tmsSlot = some t → se.tdiSlot = some d →
    s.memRead t 0 (vectorBytes n) = .next tms → s.memRead d 0 (vectorBytes n) = .next tdi →
    s.g.backendValid = true → s.g.engine = .hw →
    s.arena[a]? = some sl → sl.owner = none → (∀ (b : Nat) (sb : Slot), b < a → s.arena[b]? = some sb → sb.owner ≠ none) →
    exec (.shift n tms tdi) s =
      .next { s with
        g := { s.g with busy := true, owner := some s.serving }
        sessions := s.sessions.set s.serving { se with phase := .dispatching, tdoSlot := some a }
        arena := s.arena.set a { owner := some (s.serving, .tdo), bytes := [] }
        e :=
          { s.e with
            runA := true, runB := true, cntA := n, cntB := n, txfA := [], txfB := [], rxfB := [], osrcA := 0, osrcB := 0
            isrB := 0, isrcB := 0, divl := s.g.div, i := 0, inW := 0, outW := 0 } }

/-- R124, R125, R163: the same on the software variant, which only zeroes `E.I`. -/
def Obligations.ShiftStartsSoftwareTransfer : Prop :=
  ∀ (s : State) (se : Session) (sl : Slot) (n : Word) (tms tdi : List Byte) (t d a : Nat),
    s.sessions[s.serving]? = some se → se.kind = some .shift → se.n = n → se.tmsSlot = some t → se.tdiSlot = some d →
    s.memRead t 0 (vectorBytes n) = .next tms → s.memRead d 0 (vectorBytes n) = .next tdi →
    s.g.backendValid = true → s.g.engine = .sw →
    s.arena[a]? = some sl → sl.owner = none → (∀ (b : Nat) (sb : Slot), b < a → s.arena[b]? = some sb → sb.owner ≠ none) →
    exec (.shift n tms tdi) s =
      .next { s with
        g := { s.g with busy := true, owner := some s.serving }
        sessions := s.sessions.set s.serving { se with phase := .dispatching, tdoSlot := some a }
        arena := s.arena.set a { owner := some (s.serving, .tdo), bytes := [] }
        e := { s.e with i := 0 } }

/-- R220: with an invalid backend a SHIFT closes its session with E_BACKEND_INVALID: no edge, no TDO slot, no reply. -/
def Obligations.ShiftWithInvalidBackendCloses : Prop :=
  ∀ (s : State) (se : Session) (n : Word) (tms tdi : List Byte),
    s.sessions[s.serving]? = some se → s.g.backendValid = false →
    ∃ t, exec (.shift n tms tdi) s = .next t ∧ t.g = s.g ∧ t.e = s.e ∧ t.p = s.p ∧ t.target = s.target ∧
      t.sessions[s.serving]? =
        some { se with
          hlen := 0, plen := 0, kind := none, rx := [], tmsSlot := none, tdiSlot := none, tdoSlot := none
          reason := some .backendInvalid, phase := .closed } ∧
      ∀ (a : Nat) (sl' : Slot), t.arena[a]? = some sl' →
        ∃ sl, s.arena[a]? = some sl ∧ sl'.bytes = sl.bytes ∧ (sl'.owner = sl.owner ∨ sl'.owner = none)

/-- R69, R124: with a valid backend and no free arena slot a SHIFT closes its session with E_NO_SLOT, releasing the slots it
held: no edge and no reply. -/
def Obligations.ShiftWithoutFreeSlotCloses : Prop :=
  ∀ (s : State) (se : Session) (n : Word) (tms tdi : List Byte),
    s.sessions[s.serving]? = some se → s.g.backendValid = true → (∀ sl ∈ s.arena, sl.owner ≠ none) →
    ∃ t, exec (.shift n tms tdi) s = .next t ∧ t.g = s.g ∧ t.e = s.e ∧ t.p = s.p ∧ t.target = s.target ∧
      t.sessions[s.serving]? =
        some { se with
          hlen := 0, plen := 0, kind := none, rx := [], tmsSlot := none, tdiSlot := none, tdoSlot := none
          reason := some .noSlot, phase := .closed } ∧
      ∀ (a : Nat) (sl : Slot), s.arena[a]? = some sl →
        t.arena[a]? =
          some { sl with
            owner := if se.tmsSlot = some a ∨ se.tdiSlot = some a ∨ se.tdoSlot = some a then none else sl.owner }

/-- R124, R133 (frame of SHIFT): it changes no parameter, pin or target state, of G only BUSY and OWNER, no other session, of
its own session neither HDR, N, TX nor EOF, and no byte of the arena outside the slot it takes, the lowest free one. (`seen`,
`gone`, `hung` and the latch are the model's: log 3, 8, 10, 11.) -/
def Obligations.ShiftFrame : Prop :=
  ∀ (s t : State) (n : Word) (tms tdi : List Byte), exec (.shift n tms tdi) s = .next t →
    t.cfg = s.cfg ∧ t.p = s.p ∧ t.target = s.target ∧ t.serving = s.serving ∧ t.write = s.write ∧ t.inputs = s.inputs ∧
    t.draws = s.draws ∧ t.g = { s.g with busy := t.g.busy, owner := t.g.owner } ∧
    t.e.osrA = s.e.osrA ∧ t.e.osrB = s.e.osrB ∧ t.e.hung = s.e.hung ∧
    (s.g.engine = .sw → t.e = { s.e with i := t.e.i }) ∧
    t.sessions.length = s.sessions.length ∧ (∀ j, j ≠ s.serving → t.sessions[j]? = s.sessions[j]?) ∧
    (∀ se se', s.sessions[s.serving]? = some se → t.sessions[s.serving]? = some se' →
      se'.hdr = se.hdr ∧ se'.n = se.n ∧ se'.tx = se.tx ∧ se'.seen = se.seen ∧ se'.eof = se.eof ∧ se'.gone = se.gone) ∧
    t.arena.length = s.arena.length ∧
    ∀ (a : Nat) (sl sl' : Slot), s.arena[a]? = some sl → t.arena[a]? = some sl' →
      s.arena.findIdx? (fun x => x.owner.isNone) ≠ some a →
      (∀ off, Memory.read sl'.bytes off = Memory.read sl.bytes off) ∧
      (sl'.owner = sl.owner ∨
        ∃ se, s.sessions[s.serving]? = some se ∧ (se.tmsSlot = some a ∨ se.tdiSlot = some a ∨ se.tdoSlot = some a))

/-! ## Transfers -/

/-- R146, R167 with R126, R127, R130, R144, R145, R157: a hardware transfer that SHIFT starts, run by ANY schedule of engine
steps until the engine is free again, has driven exactly the `n` edges in order, left the target in `T_n` and the pins at the
last bits, replied with the TDO bits and released its slots. (`driven`, `seen` and `gone` are the model's: log 9, 10, 11.) -/
def Obligations.HardwareTransferResult : Prop :=
  ∀ (s s1 s2 : State) (se : Session) (n : Word) (tms tdi : List Byte) (es : List EngineStep),
    s.sessions[s.serving]? = some se → se.gone = false → s.g.busy = false → s.g.engine = .hw →
    (Instr.shift n tms tdi).wf s.cfg = true →
    exec (.shift n tms tdi) s = .next s1 → s1.g.busy = true →
    State.performAll (engineInputs es) s1 = .next s2 → s2.g.busy = false →
    s2.sessions[s.serving]? =
      some { se with
        tx := se.tx ++ transferReply s.cfg s.target n.toNat tms tdi
        seen := se.seen ++ transferReply s.cfg s.target n.toNat tms tdi
        tmsSlot := none, tdiSlot := none, tdoSlot := none, hlen := 0, plen := 0, kind := none
        phase := .awaitingCommand } ∧
    (∀ j, j ≠ s.serving → s2.sessions[j]? = s.sessions[j]?) ∧
    s2.target = targetAt s.cfg s.target tms tdi n.toNat ∧
    s2.p =
      { tck := false, tms := vecBit tms (n.toNat - 1), tdi := vecBit tdi (n.toNat - 1)
        driven := s.p.driven ++ edgePairs n.toNat tms tdi } ∧
    s2.g.owner = none ∧ s2.g.div = s.g.div ∧ s2.g.backendValid = true ∧
    ∀ a, (se.tmsSlot = some a ∨ se.tdiSlot = some a ∨ s.arena.findIdx? (fun x => x.owner.isNone) = some a) →
      ∃ sl, s2.arena[a]? = some sl ∧ sl.owner = none

/-- R146, R163 with R126, R127, R130, R144, R145: the same of a software transfer. (`driven`, `seen` and `gone` are
the model's: log 9, 10, 11.) -/
def Obligations.SoftwareTransferResult : Prop :=
  ∀ (s s1 s2 : State) (se : Session) (n : Word) (tms tdi : List Byte) (es : List EngineStep),
    s.sessions[s.serving]? = some se → se.gone = false → s.g.busy = false → s.g.engine = .sw →
    (Instr.shift n tms tdi).wf s.cfg = true →
    exec (.shift n tms tdi) s = .next s1 → s1.g.busy = true →
    State.performAll (engineInputs es) s1 = .next s2 → s2.g.busy = false →
    s2.sessions[s.serving]? =
      some { se with
        tx := se.tx ++ transferReply s.cfg s.target n.toNat tms tdi
        seen := se.seen ++ transferReply s.cfg s.target n.toNat tms tdi
        tmsSlot := none, tdiSlot := none, tdoSlot := none, hlen := 0, plen := 0, kind := none
        phase := .awaitingCommand } ∧
    (∀ j, j ≠ s.serving → s2.sessions[j]? = s.sessions[j]?) ∧
    s2.target = targetAt s.cfg s.target tms tdi n.toNat ∧
    s2.p =
      { tck := false, tms := vecBit tms (n.toNat - 1), tdi := vecBit tdi (n.toNat - 1)
        driven := s.p.driven ++ edgePairs n.toNat tms tdi } ∧
    s2.g.owner = none ∧ s2.g.div = s.g.div ∧ s2.g.backendValid = true ∧
    ∀ a, (se.tmsSlot = some a ∨ se.tdiSlot = some a ∨ s.arena.findIdx? (fun x => x.owner.isNone) = some a) →
      ∃ sl, s2.arena[a]? = some sl ∧ sl.owner = none

/-- R147: the two variants, started on the same command in states that differ only in `G.ENGINE` and run by any schedules to
their ends, leave the same session (the reply among it), the same target and the same pins and edges. (`driven` and `gone`
are the model's: log 9, 10.) -/
def Obligations.VariantsAgree : Prop :=
  ∀ (s h1 h2 w1 w2 : State) (se : Session) (n : Word) (tms tdi : List Byte) (eh ew : List EngineStep),
    s.sessions[s.serving]? = some se → se.gone = false → s.g.busy = false → (Instr.shift n tms tdi).wf s.cfg = true →
    exec (.shift n tms tdi) { s with g := { s.g with engine := .hw } } = .next h1 → h1.g.busy = true →
    exec (.shift n tms tdi) { s with g := { s.g with engine := .sw } } = .next w1 → w1.g.busy = true →
    State.performAll (engineInputs eh) h1 = .next h2 → h2.g.busy = false →
    State.performAll (engineInputs ew) w1 = .next w2 → w2.g.busy = false →
    h2.sessions = w2.sessions ∧ h2.target = w2.target ∧ h2.p = w2.p

/-- R158: a hardware transfer cannot deadlock, and it takes exactly `N` bit steps and `W` feeds, pushes and drains: along any
run of enabled engine steps from its start, while the engine is busy some step is enabled and answers, and when it is free
the counts are those. (`hung` is the model's: log 8.) -/
def Obligations.HardwareTransferTerminates : Prop :=
  ∀ (s s1 s2 : State) (n : Word) (tms tdi : List Byte) (es : List EngineStep),
    s.g.busy = false → s.g.engine = .hw → s.e.hung = false → 1 ≤ s.cfg.qdepth →
    (Instr.shift n tms tdi).wf s.cfg = true →
    exec (.shift n tms tdi) s = .next s1 → s1.g.busy = true → EngineRun es s1 s2 →
    es.length ≤ n.toNat + 3 * ceilDiv n.toNat 32 + 1 ∧
    (s2.g.busy = true →
      ∃ e s3, s2.engineStepEnabled e = true ∧ s2.perform (.engine e { ok := true, delivered := 0 }) = .next s3) ∧
    (s2.g.busy = false →
      es.count .bitStep = n.toNat ∧ es.count .feed = ceilDiv n.toNat 32 ∧ es.count .rxPush = ceilDiv n.toNat 32 ∧
      es.count .drain = ceilDiv n.toNat 32 ∧ es.count .hwEnd = 1)

/-- R193, R127 for SHIFT (vector V-F6, and V-F7 where the peer reset the connection): if the reply write at the end of a
transfer fails, the session closes with E_WRITE, TX is as it was, the slots are released, and the edges, pins and target state
of the transfer stay. (`gone` and `seen` are the model's: log 10, 11.) -/
def Obligations.FailedTransferReplyCloses : Prop :=
  ∀ (s : State) (k o : Nat) (se : Session) (bytes : List Byte) (e : EngineStep) (w : WriteOutcome),
    (e = .hwEnd ∨ e = .swEnd) → s.engineStepEnabled e = true → s.g.owner = some k → s.sessions[k]? = some se →
    se.tdoSlot = some o → s.memRead o 0 (vectorBytes se.n) = .next bytes → (w.ok = false ∨ se.gone = true) →
    ∃ t, s.perform (.engine e w) = .next t ∧ t.g = { s.g with busy := false, owner := none } ∧ t.p = s.p ∧
      t.target = s.target ∧
      t.sessions[k]? =
        some { se with
          seen := se.seen ++ bytes.take w.delivered, hlen := 0, plen := 0, kind := none, rx := []
          tmsSlot := none, tdiSlot := none, tdoSlot := none, reason := some .write, phase := .closed } ∧
      ∀ (a : Nat) (sl : Slot), s.arena[a]? = some sl →
        t.arena[a]? =
          some { sl with
            owner := if se.tmsSlot = some a ∨ se.tdiSlot = some a ∨ se.tdoSlot = some a then none else sl.owner }

/-- R64, R97, R146 and R63, R144: the reply has `ceil(N/8)` bytes, bit `i` of it is TDO bit `i` below `N` and 0 above; and
the bits of TMS and TDI at or above `N` reach neither the reply, the target nor the pins. -/
def Obligations.TrailingBitsAreZeroOutAndIgnoredIn : Prop :=
  (∀ (c : Config) (t0 : TargetState) (n : Nat) (tms tdi : List Byte),
    (transferReply c t0 n tms tdi).length = ceilDiv n 8 ∧
    ∀ i, vecBit (transferReply c t0 n tms tdi) i = (decide (i < n) && tdoBit c t0 tms tdi i)) ∧
  ∀ (c : Config) (t0 : TargetState) (n : Nat) (tms tdi tms' tdi' : List Byte),
    (∀ i, i < n → vecBit tms i = vecBit tms' i ∧ vecBit tdi i = vecBit tdi' i) →
    transferReply c t0 n tms tdi = transferReply c t0 n tms' tdi' ∧
    targetAt c t0 tms tdi n = targetAt c t0 tms' tdi' n ∧ edgePairs n tms tdi = edgePairs n tms' tdi'

/-- R47 (the fixture of 95_test_vectors.md): against the loopback target TDO is TDI delayed by one edge, the first bit being
the target's, whatever TMS is. (The coding of its one bit is the model's: log 4.) -/
def Obligations.LoopbackDelaysTdiByOneEdge : Prop :=
  ∀ (c : Config) (t0 : TargetState) (tms tdi : List Byte), c.target = .loopback →
    tdoBit c t0 tms tdi 0 = decide (t0 ≠ 0) ∧ ∀ i, tdoBit c t0 tms tdi (i + 1) = vecBit tdi i

/-! ## The byte decoder -/

/-- R112: the first byte of a command is stored and fails nothing; the second fixes the class, or closes the session with
E_PREFIX. -/
def Obligations.FirstTwoBytesClassify : Prop :=
  ∀ (s : State) (k : Nat) (w : WriteOutcome) (se : Session) (b : Byte) (rest : List Byte),
    s.loopFree = true → s.sessions[k]? = some se → se.phase = .awaitingCommand → se.kind = none → se.rx = b :: rest →
    (se.hlen = 0 →
      s.ServeGives k w
        { s with sessions := s.sessions.set k { se with hdr := se.hdr.set 0 b, hlen := 1, rx := rest } }) ∧
    (se.hlen = 1 →
      let stored : Session := { se with hdr := se.hdr.set 1 b, hlen := 2, rx := rest }
      s.ServeGives k w
        (if se.hdr[0] = 0x67 ∧ b = 0x65 then
          { s with sessions := s.sessions.set k { stored with kind := some .getinfo } }
        else if se.hdr[0] = 0x73 ∧ b = 0x65 then
          { s with sessions := s.sessions.set k { stored with kind := some .settck } }
        else if se.hdr[0] = 0x73 ∧ b = 0x68 then
          { s with sessions := s.sessions.set k { stored with kind := some .shift } }
        else State.close k .badPrefix { s with sessions := s.sessions.set k stored }))

/-- R113: every header byte from the third on, but byte 9 of a `shift` (R115), is stored; a byte of the literal's tail closes
the session with E_PREFIX_TAIL exactly if CHECK_FULL_PREFIX is set and it differs from the literal. -/
def Obligations.HeaderByteIsStoredOrFailsTheTail : Prop :=
  ∀ (s : State) (k : Nat) (w : WriteOutcome) (se : Session) (kind : Kind) (b : Byte) (rest : List Byte)
    (h : se.hlen < 11),
    s.loopFree = true → s.sessions[k]? = some se → se.phase = .awaitingCommand → se.kind = some kind → 2 ≤ se.hlen →
    se.hlen < kind.hdrLen → ¬(kind = .shift ∧ se.hlen = 9) → se.plen = 0 → se.rx = b :: rest →
    let t : State :=
      { s with sessions := s.sessions.set k { se with hdr := se.hdr.set se.hlen b, hlen := se.hlen + 1, rx := rest } }
    s.ServeGives k w
      (if s.cfg.checkFullPrefix = true ∧ se.hlen < kind.prefixLen ∧ (literal kind)[se.hlen]? ≠ some b then
        t.close k .prefixTail
      else t)

/-- R115: byte 9 of a `shift` completes N. N = 0 and N > MAX_BITS close the session; with two free slots the lowest becomes
TMS and the next TDI, both zero-filled; with fewer the session closes with E_NO_SLOT and no slot changes its owner. -/
def Obligations.NinthByteValidatesTheCount : Prop :=
  ∀ (s : State) (k : Nat) (w : WriteOutcome) (se : Session) (b : Byte) (rest : List Byte),
    s.loopFree = true → s.sessions[k]? = some se → se.phase = .awaitingCommand → se.kind = some .shift → se.hlen = 9 →
    se.plen = 0 → se.tmsSlot = none → se.tdiSlot = none → se.tdoSlot = none → se.rx = b :: rest →
    let n := le32 se.hdr[6] se.hdr[7] se.hdr[8] b
    let stored : Session := { se with hdr := se.hdr.set 9 b, hlen := 10, rx := rest }
    let s0 : State := { s with sessions := s.sessions.set k stored }
    (n.toNat = 0 → s.ServeGives k w (s0.close k .lenZero)) ∧
    (s.cfg.maxBits < n.toNat → n.toNat ≠ 0 → s.ServeGives k w (s0.close k .lenOver)) ∧
    (1 ≤ n.toNat → n.toNat ≤ s.cfg.maxBits →
      (∀ (a d : Nat) (sa sd : Slot), a < d → s.arena[a]? = some sa → sa.owner = none → s.arena[d]? = some sd → sd.owner = none →
        (∀ (x : Nat) (sx : Slot), x < d → x ≠ a → s.arena[x]? = some sx → sx.owner ≠ none) →
        s.ServeGives k w
          { s0 with
            sessions := s.sessions.set k { stored with n := n, tmsSlot := some a, tdiSlot := some d, plen := 0 }
            arena := (s.arena.set a { owner := some (k, .tms), bytes := [] }).set d { owner := some (k, .tdi), bytes := [] } }) ∧
      ((∀ (a d : Nat) (sa sd : Slot), a ≠ d → s.arena[a]? = some sa → s.arena[d]? = some sd → sa.owner ≠ none ∨ sd.owner ≠ none) →
        ∃ t, s.perform (.serve k w) = .next t ∧ t.g = s.g ∧
          t.sessions[k]? =
            some { stored with
              n := n, hlen := 0, kind := none, rx := [], reason := some .noSlot, phase := .closed } ∧
          ∀ a : Nat, (t.arena[a]?).map Slot.owner = (s.arena[a]?).map Slot.owner))

/-- R117: payload byte `PLEN` is TMS byte `PLEN` below `B`, else TDI byte `PLEN - B`; no other byte changes. (That clause
has as its premise the invariant that the arena's bytes are canonical, the model's representation: log 19.) -/
def Obligations.PayloadByteIsStored : Prop :=
  ∀ (s : State) (k t d : Nat) (w : WriteOutcome) (se : Session) (st sd : Slot) (b : Byte) (rest : List Byte),
    s.loopFree = true → s.sessions[k]? = some se → se.phase = .awaitingCommand → se.kind = some .shift → se.hlen = 10 →
    se.plen < 2 * vectorBytes se.n → vectorBytes se.n ≤ s.cfg.slotBytes → se.tmsSlot = some t → se.tdiSlot = some d →
    s.arena[t]? = some st → st.owner ≠ none → s.arena[d]? = some sd → sd.owner ≠ none → se.rx = b :: rest →
    ∃ u, s.perform (.serve k w) = .next u ∧ u.sessions = s.sessions.set k { se with plen := se.plen + 1, rx := rest } ∧
      u.cfg = s.cfg ∧ u.g = s.g ∧ u.e = s.e ∧ u.p = s.p ∧ u.target = s.target ∧
      (s.MemoryCanonical →
        ∀ (a : Nat) (sa : Slot), s.arena[a]? = some sa → ∃ sa' : Slot, u.arena[a]? = some sa' ∧ sa'.owner = sa.owner ∧
          ∀ off, Memory.read sa'.bytes off =
            if (se.plen < vectorBytes se.n ∧ a = t ∧ off = se.plen) ∨
                (vectorBytes se.n ≤ se.plen ∧ a = d ∧ off = se.plen - vectorBytes se.n) then b
            else Memory.read sa.bytes off)

/-- R37, R110, R111: a byte step consumes exactly one byte, and the session either closes or stands one byte further. (`seen` is
the model's: log 11.) -/
def Obligations.ByteStepConsumesOneByte : Prop :=
  ∀ (s t : State) (k : Nat) (w : WriteOutcome) (se : Session) (b : Byte) (rest : List Byte),
    s.loopFree = true → s.sessions[k]? = some se → se.phase = .awaitingCommand → se.complete = false →
    Session.positionOk s.cfg se → se.rx = b :: rest → s.perform (.serve k w) = .next t →
    ∃ se', t.sessions[k]? = some se' ∧ se'.tx = se.tx ∧ se'.seen = se.seen ∧
      ((se'.phase = .closed ∧ se'.hlen = 0 ∧ se'.plen = 0 ∧ se'.kind = none ∧ se'.rx = []) ∨
        (se'.phase = .awaitingCommand ∧ se'.rx = rest ∧ se'.hlen + se'.plen = se.hlen + se.plen + 1))

/-! ## Sessions and environment events -/

/-- R186: accept takes the lowest closed slot and clears it; without a closed slot, or while BUSY or HALTED, nothing changes.
(`gone` and `seen` are the model's: log 10, 11; an event that is not enabled changes nothing: log 6.) -/
def Obligations.AcceptTakesLowestClosedSlot : Prop :=
  (∀ (s : State) (k : Nat) (se : Session),
    s.g.busy = false → s.g.halted = false → s.sessions[k]? = some se → se.phase = .closed →
    (∀ (j : Nat) (sj : Session), j < k → s.sessions[j]? = some sj → sj.phase ≠ .closed) →
    s.perform .accept =
      .next { s with
        sessions := s.sessions.set k
          { se with
            phase := .accepted, hlen := 0, plen := 0, kind := none, tmsSlot := none, tdiSlot := none, tdoSlot := none
            tx := [], reason := none, rx := [], eof := false, gone := false, seen := [] } }) ∧
  ∀ s : State, (s.g.busy = true ∨ s.g.halted = true ∨ ∀ se ∈ s.sessions, se.phase ≠ .closed) →
    s.perform .accept = .next s

/-- R187, R189, R73: arriving bytes join RX in order, in any split, and change nothing else; an end-of-stream only sets EOF;
neither has an effect on a closed slot, and no byte arrives after the end-of-stream. (An event that is not enabled
changes nothing: log 6.) -/
def Obligations.ArrivalsOnlyAppend : Prop :=
  (∀ (s : State) (k : Nat) (se : Session) (bytes : List Byte), s.sessions[k]? = some se →
    s.perform (.arrive k bytes) =
      .next { s with
        sessions := s.sessions.set k
          { se with rx := if se.phase ≠ .closed ∧ se.eof = false then se.rx ++ bytes else se.rx } }) ∧
  (∀ (s : State) (k : Nat) (se : Session), s.sessions[k]? = some se →
    s.perform (.eof k) =
      .next { s with sessions := s.sessions.set k { se with eof := se.eof || decide (se.phase ≠ .closed) } }) ∧
  ∀ (s : State) (k : Nat) (xs ys : List Byte),
    State.performAll [.arrive k xs, .arrive k ys] s = s.perform (.arrive k (xs ++ ys))

/-- R188, R190: serving an accepted session moves it to AwaitingCommand; serving one that awaits input after the end-of-stream
closes it, with E_EOF_MIDCMD inside a command and E_PEER_CLOSED between commands. (The latch is the model's: log 3.) -/
def Obligations.InitAndEndOfStream : Prop :=
  (∀ (s : State) (k : Nat) (w : WriteOutcome) (se : Session), s.loopFree = true → s.sessions[k]? = some se →
    se.phase = .accepted →
    s.perform (.serve k w) =
      .next { s with serving := k, write := w, sessions := s.sessions.set k { se with phase := .awaitingCommand } }) ∧
  ∀ (s : State) (k : Nat) (w : WriteOutcome) (se : Session), s.loopFree = true → s.sessions[k]? = some se →
    se.phase = .awaitingCommand → se.complete = false → se.rx = [] → se.eof = true →
    s.perform (.serve k w) =
      .next (State.close k (if se.kind ≠ none ∨ 0 < se.hlen then .eofMidCmd else .peerClosed)
        { s with serving := k, write := w })

/-- R191, R194: a peer reset closes a session that is not dispatching, an idle expiry one that awaits a command; neither has
an effect on such a session while BUSY, nor on a closed one. (An event that is not enabled changes nothing: log 6.) -/
def Obligations.PeerResetAndIdleClose : Prop :=
  ∀ (s : State) (k : Nat) (se : Session), s.sessions[k]? = some se →
    (s.g.busy = false → se.phase = .accepted ∨ se.phase = .awaitingCommand →
      s.perform (.peerReset k) = .next (s.close k .peerReset)) ∧
    (s.g.busy = false → se.phase = .awaitingCommand → s.perform (.idle k) = .next (s.close k .idle)) ∧
    (s.g.busy = true ∨ se.phase = .closed → se.phase ≠ .dispatching →
      s.perform (.peerReset k) = .next s ∧ s.perform (.idle k) = .next s)

/-- R215: what a close does to the machine, whatever the code. -/
def Obligations.CloseReleasesAndRecords : Prop :=
  ∀ (s : State) (k : Nat) (code : CloseReason) (se : Session), s.sessions[k]? = some se →
    (s.close k code).sessions =
      s.sessions.set k
        { se with
          tmsSlot := none, tdiSlot := none, tdoSlot := none, hlen := 0, plen := 0, kind := none, rx := []
          reason := some code, phase := .closed } ∧
    (∀ (a : Nat) (sl : Slot), s.arena[a]? = some sl →
      (s.close k code).arena[a]? =
        some { sl with
          owner := if se.tmsSlot = some a ∨ se.tdiSlot = some a ∨ se.tdoSlot = some a then none else sl.owner }) ∧
    (s.close k code).arena.length = s.arena.length ∧ (s.close k code).cfg = s.cfg ∧ (s.close k code).g = s.g ∧
    (s.close k code).e = s.e ∧ (s.close k code).p = s.p ∧ (s.close k code).target = s.target

/-! ## Faults -/

/-- R219 with SERVE_NON_SHIFT: the drawn hardware fault of a transfer in flight. (`hung` is the model's: log 8.) -/
def Obligations.HardwareFaultEffect : Prop :=
  ∀ (s : State) (k : Nat) (se : Session) (tck tms tdi : Bool) (x : TargetState),
    s.g.busy = true → s.g.engine = .hw → s.e.hung = false → s.g.owner = some k → s.sessions[k]? = some se →
    s.cfg.hwFaultPolicy = .serveNonShift →
    ∃ t, s.perform (.hwFault tck tms tdi x) = .next t ∧
      t.e = { s.e with runA := false, runB := false, txfA := [], txfB := [], rxfB := [] } ∧
      t.p = { s.p with tck := tck, tms := tms, tdi := tdi } ∧ t.target = x ∧
      t.g =
        { s.g with
          backendValid := false, busy := false, owner := none
          faultLog :=
            s.g.faultLog ++ [{ session := k, bitIndex := s.e.i, info := .peripheralUnresponsiveOrDesynchronized }] } ∧
      t.sessions =
        s.sessions.set k
          { se with
            tmsSlot := none, tdiSlot := none, tdoSlot := none, hlen := 0, plen := 0, kind := none, rx := []
            reason := some .hwFault, phase := .closed } ∧
      ∀ (a : Nat) (sl : Slot), s.arena[a]? = some sl →
        t.arena[a]? =
          some { sl with
            owner := if se.tmsSlot = some a ∨ se.tdiSlot = some a ∨ se.tdoSlot = some a then none else sl.owner }

/-- R219, R221 with HALT_ALL: the hardware fault also halts the block; the owner closes with E_HW_FAULT and every other open
session with E_HALTED, no session that was closed changes, and every byte written to a host stays written. (`hung` is the
model's: log 8.) -/
def Obligations.HaltClosesEverySession : Prop :=
  ∀ (s : State) (k : Nat) (tck tms tdi : Bool) (x : TargetState),
    s.g.busy = true → s.g.engine = .hw → s.e.hung = false → s.g.owner = some k → s.cfg.hwFaultPolicy = .haltAll →
    ∃ t, s.perform (.hwFault tck tms tdi x) = .next t ∧ t.g.halted = true ∧ t.g.busy = false ∧ t.g.backendValid = false ∧
      t.sessions.length = s.sessions.length ∧
      ∀ (j : Nat) (sj : Session), s.sessions[j]? = some sj →
        ∃ sj', t.sessions[j]? = some sj' ∧ sj'.phase = .closed ∧ sj'.tx = sj.tx ∧
          (j = k → sj'.reason = some .hwFault) ∧
          (j ≠ k → sj.phase ≠ .closed → sj'.reason = some .halted) ∧ (j ≠ k → sj.phase = .closed → sj' = sj)

/-- R221, R223: while HALTED (every session closed, no transfer) nothing but block reset changes the block: every other input
leaves all but the target and the loop's latch (log 3) as it was. (An event that is not enabled changes nothing: log 6.) -/
def Obligations.HaltedBlockOnlyResets : Prop :=
  ∀ (s t : State) (i : Input), s.g.halted = true → s.HaltedClosed → (∀ x, i ≠ .blockReset x) → s.perform i = .next t →
    t.cfg = s.cfg ∧ t.g = s.g ∧ t.sessions = s.sessions ∧ t.arena = s.arena ∧ t.e = s.e ∧ t.p = s.p

/-- R165: on the software variant the hardware fault and the hang are never drawn, and every step leaves the hardware
engine's registers at their reset values. (`hung` is the model's: log 8; an event that is not enabled changes nothing: log 6.) -/
def Obligations.SoftwareVariantLeavesTheHardwareIdle : Prop :=
  (∀ (s : State) (tck tms tdi : Bool) (x : TargetState), s.g.engine = .sw →
    s.perform (.hwFault tck tms tdi x) = .next s ∧ s.perform .hang = .next s) ∧
  ∀ s t : State, s.SoftwareIdle → step s = .next t → t.SoftwareIdle

/-- R166, R204: after the hang the block is stuck: no input but block reset changes a global, engine or pin register, the
target, the arena, or what a session has sent. (The hang is the model's flag `hung`: log 8.) -/
def Obligations.StuckUntilReset : Prop :=
  ∀ (s t : State) (i : Input), s.stuck = true → (∀ x, i ≠ .blockReset x) → s.perform i = .next t →
    t.stuck = true ∧ t.g = s.g ∧ t.e = s.e ∧ t.p = s.p ∧ t.target = s.target ∧ t.arena = s.arena ∧
    t.sessions.map Session.tx = s.sessions.map Session.tx ∧ t.sessions.map Session.phase = s.sessions.map Session.phase

/-! ## Whole-machine rules -/

/-- R185: the phase transitions of a session, and no others (a block reset closes every session, R241). -/
def Obligations.PhaseTransitionsAreThoseOfTheTable : Prop :=
  ∀ (s t : State) (k : Nat) (se se' : Session), s.SingleFlight → step s = .next t →
    s.sessions[k]? = some se → t.sessions[k]? = some se' →
    se'.phase = se.phase ∨ se'.phase = .closed ∨ (se.phase = .closed ∧ se'.phase = .accepted) ∨
    (se.phase = .accepted ∧ se'.phase = .awaitingCommand) ∨ (se.phase = .awaitingCommand ∧ se'.phase = .dispatching) ∨
    (se.phase = .dispatching ∧ se'.phase = .awaitingCommand)

/-- Every listed offset stays below SLOT_BYTES (20_memory.md R60, R66 say that of every access), and the bytes' list stays
canonical: rising offsets, no zero byte. The canonical form is no rule of the spec but the model's own representation of the
arena's bytes (DEDUCED, log 19). -/
def Obligations.MemoryStaysCanonical : Prop :=
  ∀ s t : State, s.MemoryCanonical → step s = .next t → t.MemoryCanonical

/-- R151, R154, R247: the two machines run, count, hold bits and hold words together at every step. -/
def Obligations.MachinesStayInLockStep : Prop :=
  ∀ s t : State, s.LockStep → step s = .next t → t.LockStep

/-- R22, R44: no illegal divisor can be stored. -/
def Obligations.DivisorStaysLegal : Prop :=
  ∀ s t : State, s.DivisorLegal → step s = .next t → t.DivisorLegal

/-- R201, R203, R245: single flight. -/
def Obligations.SingleFlightIsKept : Prop :=
  ∀ s t : State, s.SingleFlight → step s = .next t → t.SingleFlight

/-- The headline invariant (R20-R51, R201): from every state that meets it, under every input, the step answers a next state,
which meets it again. So no run from reset ever faults or is refused. (Of the invariant, the canonical form of the arena's
bytes is the model's representation: log 19; `hung` is the model's: log 8.) -/
def Obligations.InvariantIsKeptAndNoRunStops : Prop :=
  ∀ s : State, s.Inv → ∃ t, step s = .next t ∧ t.Inv

/-- R9, R23, R24, R26, R223: no step writes a parameter, and only block reset writes the engine's identity, makes the backend
valid again, ends the halt or removes a fault record. -/
def Obligations.OnlyResetRecovers : Prop :=
  (∀ s t : State, step s = .next t → t.cfg = s.cfg) ∧
  ∀ (s t : State) (i : Input), s.perform i = .next t → (∀ x, i ≠ .blockReset x) →
    t.g.engine = s.g.engine ∧ (s.g.backendValid = false → t.g.backendValid = false) ∧
    (s.g.halted = true → t.g.halted = true) ∧ ∃ more, t.g.faultLog = s.g.faultLog ++ more

/-- R22, R28, R122, R162: `G.DIV` is written by SETTCK and reset only, and never during a transfer, whose divisor is
constant. -/
def Obligations.OnlySetTckWritesTheDivisor : Prop :=
  ∀ (s t : State) (i : Input), s.perform i = .next t → (∀ x, i ≠ .blockReset x) →
    (t.g.div ≠ s.g.div →
      s.g.busy = false ∧
        ∃ k w p, i = .serve k w ∧ s.heldCommand k = .next (.settck p) ∧ s.cfg.settckApplies = true ∧
          t.g.div = clampDiv s.cfg p) ∧
    (s.g.busy = true → t.e.divl = s.e.divl)

/-- R144, R159, R252: a pin moves or an edge is driven only in a bit step, a hardware fault or block reset; a bit step drives
exactly one edge (`driven` is the model's: log 9), and the target moves only with it or by what is outside the block. -/
def Obligations.EdgesOnlyFromBitSteps : Prop :=
  ∀ (s t : State) (i : Input), s.perform i = .next t →
    (t.p = s.p ∧ (t.target = s.target ∨ ∃ x, i = .targetMoves x ∨ i = .blockReset x)) ∨
    (∃ tck tms tdi x, i = .hwFault tck tms tdi x ∧ t.p.driven = s.p.driven) ∨ (∃ x, i = .blockReset x) ∨
    (∃ w, (i = .engine .bitStep w ∨ i = .engine .swBitStep w) ∧ s.g.busy = true ∧
      t.p = { tck := false, tms := t.p.tms, tdi := t.p.tdi, driven := s.p.driven ++ [(t.p.tms, t.p.tdi)] } ∧
      t.target = targetNext s.cfg s.target t.p.tms t.p.tdi)

/-- R203: while BUSY no session step, accept, idle expiry or reset of another session has an effect (beyond the loop's
latch, log 3; an event that is not enabled changes nothing: log 6). -/
def Obligations.BusyDisablesSessionSteps : Prop :=
  ∀ (s : State), s.g.busy = true →
    s.perform .accept = .next s ∧ (∀ k, s.perform (.idle k) = .next s) ∧
    (∀ k w, s.perform (.serve k w) = .next { s with serving := k, write := w }) ∧
    (∀ (k : Nat) (se : Session), s.sessions[k]? = some se → se.phase ≠ .dispatching → s.perform (.peerReset k) = .next s) ∧
    ∀ x, s.perform (.targetMoves x) = .next s

/-- R131, R132, R212: what has been written on a session stays written: in every step TX only grows, until the slot is taken
by a new connection or the block is reset; and a byte step or an environment event writes nothing. -/
def Obligations.TxOnlyGrows : Prop :=
  ∀ (s t : State) (i : Input) (k : Nat) (se se' : Session), s.perform i = .next t → s.sessions[k]? = some se →
    t.sessions[k]? = some se' →
    (∃ more, se'.tx = se.tx ++ more) ∨ (i = .accept ∧ se.phase = .closed ∧ se'.tx = []) ∨ ∃ x, i = .blockReset x

/-- R133, R84: a step of session `k` never changes another session, nor any slot another session owns. -/
def Obligations.SessionStepsAreIsolated : Prop :=
  ∀ (s t : State) (k j : Nat) (w : WriteOutcome), s.Ownership → j ≠ k → s.perform (.serve k w) = .next t →
    t.sessions[j]? = s.sessions[j]? ∧
    ∀ (a : Nat) (sl : Slot) (r : Role), s.arena[a]? = some sl → sl.owner = some (j, r) → t.arena[a]? = some sl

/-- R84, R251 (X6): what a step of session `k` does to `k` and to G does not depend on other sessions or on the bytes of slots
that `k` does not own. -/
def Obligations.SessionStepsDoNotLeak : Prop :=
  ∀ (s s' t t' : State) (k : Nat) (w : WriteOutcome), s.Ownership → s'.cfg = s.cfg → s'.g = s.g →
    s'.sessions[k]? = s.sessions[k]? → (∀ a : Nat, (s'.arena[a]?).map Slot.owner = (s.arena[a]?).map Slot.owner) →
    (∀ (a : Nat) (sl sl' : Slot) (r : Role), s.arena[a]? = some sl → s'.arena[a]? = some sl' → sl.owner = some (k, r) → sl'.bytes = sl.bytes) →
    s.perform (.serve k w) = .next t → s'.perform (.serve k w) = .next t' →
    t'.sessions[k]? = t.sessions[k]? ∧ t'.g = t.g

/-- R66, R153, R156: reading after writing in the arena. A byte written is read back, and every other byte of every slot reads
as before. (Its premise, the canonical form, is the model's representation: log 19.) -/
def Obligations.ArenaReadAfterWrite : Prop :=
  ∀ (s t : State) (k off : Nat) (b : Byte), s.MemoryCanonical → s.memWrite k off b = .next t →
    t.memRead k off 1 = .next [b] ∧
    ∀ k' off' n, (k' ≠ k ∨ off < off' ∨ off' + n ≤ off) → t.memRead k' off' n = s.memRead k' off' n

/-- R248: a driver that drains nothing feeds at most `2*QDEPTH + 1` words: from the start of a hardware transfer, whatever
engine steps but drains run, `IN_W` stays within that. -/
def Obligations.WithoutDrainsTheFeedStalls : Prop :=
  ∀ (s s1 s2 : State) (n : Word) (tms tdi : List Byte) (es : List EngineStep),
    s.g.busy = false → s.g.engine = .hw → exec (.shift n tms tdi) s = .next s1 → s1.g.busy = true → .drain ∉ es →
    State.performAll (engineInputs es) s1 = .next s2 → s2.g.busy = true → s2.e.inW ≤ 2 * s.cfg.qdepth + 1
end

