-- ==== Sys2Proof/Laws/Memory.lean ====
section
/-! SUPPORT. The bytes of a slot: read after write, the canonical form, and that equal reads make equal memories
(20_memory.md R66). -/

namespace Sys2Proof.Machine

/-- The canonical form of a list with a head, in terms of its tail. -/
theorem Memory.wf_cons (x : Nat) (b : Byte) (m : Memory) :
    Memory.wf ((x, b) :: m) = true ↔ b ≠ Memory.unlisted ∧ (∀ c ∈ m, x < c.1) ∧ Memory.wf m = true := by
  induction m generalizing x b with
  | nil => simp [Memory.wf]
  | cons c m ih =>
    obtain ⟨y, d⟩ := c
    simp only [Memory.wf, Bool.and_eq_true, decide_eq_true_eq, List.mem_cons, forall_eq_or_imp]
    constructor
    · rintro ⟨⟨hb, hxy⟩, hm⟩
      exact ⟨hb, ⟨hxy, fun c hc => lt_trans hxy (((ih y d).1 hm).2.1 c hc)⟩, hm⟩
    · rintro ⟨hb, ⟨hxy, -⟩, hm⟩
      exact ⟨⟨hb, hxy⟩, hm⟩

/-- An offset below every listed one reads as unlisted. -/
theorem Memory.read_of_lt (m : Memory) (a : Nat) (h : ∀ c ∈ m, a < c.1) : Memory.read m a = Memory.unlisted := by
  induction m with
  | nil => rfl
  | cons c m ih =>
    obtain ⟨x, b⟩ := c
    have hx : a < x := h (x, b) (by simp)
    simp only [Memory.read, if_neg (show ¬x = a by omega)]
    exact ih fun c hc => h c (by simp [hc])

@[simp] theorem Memory.read_nil (a : Nat) : Memory.read [] a = 0 := rfl

/-- Read after write. -/
theorem Memory.read_write (m : Memory) (a : Nat) (b : Byte) (a' : Nat) (h : Memory.wf m = true) :
    Memory.read (Memory.write m a b) a' = if a' = a then b else Memory.read m a' := by
  induction m with
  | nil =>
    simp only [Memory.write]
    split
    · next hb => subst hb; simp [Memory.read, Memory.unlisted]
    · simp only [Memory.read, eq_comm (a := a)]
  | cons c m ih =>
    obtain ⟨x, d⟩ := c
    obtain ⟨hd, hx, hm⟩ := (Memory.wf_cons x d m).1 h
    have low : ∀ a, a < x → Memory.read ((x, d) :: m) a = Memory.unlisted := fun a ha =>
      Memory.read_of_lt _ _ (by simpa using ⟨ha, fun y e hy => lt_trans ha (hx (y, e) hy)⟩)
    have tail : ∀ a, a ≤ x → Memory.read m a = Memory.unlisted := fun a ha =>
      Memory.read_of_lt _ _ fun c hc => lt_of_le_of_lt ha (hx c hc)
    simp only [Memory.write]
    split
    · next hlt =>
      split
      · next hb =>
        by_cases e : a' = a
        · subst e; simp [low a' hlt, hb]
        · simp [e]
      · by_cases e : a' = a
        · subst e; simp [Memory.read]
        · simp [Memory.read, e, Ne.symm e]
    · split
      · next heq =>
        subst heq
        split
        · next hb =>
          by_cases e : a' = a
          · subst e; simp [tail a' le_rfl, hb]
          · simp [Memory.read, e, Ne.symm e]
        · by_cases e : a' = a
          · subst e; simp [Memory.read]
          · simp [Memory.read, e, Ne.symm e]
      · next hge hne =>
        simp only [Memory.read, ih hm]
        by_cases e : a' = a
        · subst e
          simp [show ¬x = a' from fun e => hne e.symm]
        · simp [e]

@[simp] theorem Memory.read_write_same (m : Memory) (a : Nat) (b : Byte) (h : Memory.wf m = true) :
    Memory.read (Memory.write m a b) a = b := by simp [Memory.read_write m a b a h]

theorem Memory.read_write_other (m : Memory) (a : Nat) (b : Byte) (a' : Nat) (h : Memory.wf m = true) (hne : a' ≠ a) :
    Memory.read (Memory.write m a b) a' = Memory.read m a' := by simp [Memory.read_write m a b a' h, hne]

/-- The offsets a write leaves listed. -/
theorem Memory.mem_write (m : Memory) (a : Nat) (b : Byte) (c : Host.Cell) (h : c ∈ Memory.write m a b) :
    c.1 = a ∨ c ∈ m := by
  induction m with
  | nil =>
    simp only [Memory.write] at h
    split at h <;> simp_all
  | cons d m ih =>
    obtain ⟨x, d⟩ := d
    simp only [Memory.write] at h
    split at h
    · split at h
      · exact .inr h
      · rcases List.mem_cons.1 h with rfl | h
        · exact .inl rfl
        · exact .inr h
    · split at h
      · split at h
        · exact .inr (List.mem_cons_of_mem _ h)
        · rcases List.mem_cons.1 h with rfl | h
          · exact .inl rfl
          · exact .inr (List.mem_cons_of_mem _ h)
      · rcases List.mem_cons.1 h with rfl | h
        · exact .inr (by simp)
        · exact (ih h).imp id fun h => List.mem_cons_of_mem _ h

/-- A write keeps the canonical form. -/
theorem Memory.wf_write (m : Memory) (a : Nat) (b : Byte) (h : Memory.wf m = true) :
    Memory.wf (Memory.write m a b) = true := by
  induction m with
  | nil =>
    simp only [Memory.write]
    split <;> simp_all [Memory.wf]
  | cons c m ih =>
    obtain ⟨x, d⟩ := c
    obtain ⟨hd, hx, hm⟩ := (Memory.wf_cons x d m).1 h
    simp only [Memory.write]
    split
    · next hlt =>
      split
      · exact h
      · next hb =>
        refine (Memory.wf_cons _ _ _).2 ⟨hb, ?_, h⟩
        simpa using ⟨hlt, fun y e hy => lt_trans hlt (hx (y, e) hy)⟩
    · split
      · next heq =>
        split
        · exact hm
        · next hb => exact (Memory.wf_cons _ _ _).2 ⟨hb, heq ▸ hx, hm⟩
      · next hge hne =>
        refine (Memory.wf_cons _ _ _).2 ⟨hd, fun c hc => ?_, ih hm⟩
        rcases Memory.mem_write m a b c hc with rfl | hc
        · omega
        · exact hx c hc

theorem Memory.below_write (n : Nat) (m : Memory) (a : Nat) (b : Byte) (ha : a < n) (h : Memory.below n m = true) :
    Memory.below n (Memory.write m a b) = true := by
  simp only [Memory.below, List.all_eq_true, decide_eq_true_eq] at *
  intro c hc
  rcases Memory.mem_write m a b c hc with rfl | hc
  · exact ha
  · exact h c hc

/-- Two canonical memories that read alike are equal data. -/
theorem Memory.ext_read (m m' : Memory) (h : Memory.wf m = true) (h' : Memory.wf m' = true)
    (hr : ∀ a, Memory.read m a = Memory.read m' a) : m = m' := by
  induction m generalizing m' with
  | nil =>
    cases m' with
    | nil => rfl
    | cons c m' =>
      obtain ⟨x, b⟩ := c
      exact absurd (by simpa [Memory.read, Memory.unlisted] using (hr x).symm) ((Memory.wf_cons x b m').1 h').1
  | cons c m ih =>
    obtain ⟨x, b⟩ := c
    obtain ⟨hb, hx, hm⟩ := (Memory.wf_cons x b m).1 h
    cases m' with
    | nil => exact absurd (by simpa [Memory.read, Memory.unlisted] using hr x) hb
    | cons c' m' =>
      obtain ⟨y, d⟩ := c'
      obtain ⟨hd, hy, hm'⟩ := (Memory.wf_cons y d m').1 h'
      have key : ∀ (x y : Nat) (b d : Byte) (m m' : Memory), b ≠ Memory.unlisted → (∀ c ∈ m', y < c.1) →
          (∀ a, Memory.read ((x, b) :: m) a = Memory.read ((y, d) :: m') a) → ¬x < y := by
        intro x y b d m m' hb hy hr hlt
        have h1 := hr x
        rw [Memory.read_of_lt ((y, d) :: m') x (by simpa using ⟨hlt, fun z e hz => lt_trans hlt (hy (z, e) hz)⟩)] at h1
        exact hb (by simpa [Memory.read] using h1)
      have hxy : x = y := by
        have h1 := key x y b d m m' hb hy hr
        have h2 := key y x d b m' m hd hx fun a => (hr a).symm
        omega
      subst hxy
      have hbd : b = d := by simpa [Memory.read] using hr x
      subst hbd
      congr 1
      refine ih m' hm hm' fun a => ?_
      by_cases ha : x = a
      · subst ha
        rw [Memory.read_of_lt m x hx, Memory.read_of_lt m' x hy]
      · simpa [Memory.read, ha] using hr a

@[simp] theorem Memory.readRange_length (m : Memory) (off n : Nat) : (Memory.readRange m off n).length = n := by
  simp [Memory.readRange]

theorem Memory.readRange_getD (m : Memory) (off n j : Nat) (h : j < n) :
    (Memory.readRange m off n).getD j 0 = Memory.read m (off + j) := by
  simp [Memory.readRange, List.getD_eq_getElem?_getD, List.getElem?_map, List.getElem?_range h]

end Sys2Proof.Machine
end

