-- ==== Sys2Proof/Laws/State.lean ====
section
/-! SUPPORT. One lemma per field per update of State: what each named update leaves alone, and what it sets. -/

namespace Sys2Proof.Machine

variable (s : State) (k : Nat)

@[simp] theorem State.mapSession_cfg (f : Session → Session) : (s.mapSession k f).cfg = s.cfg := rfl
@[simp] theorem State.mapSession_g (f : Session → Session) : (s.mapSession k f).g = s.g := rfl
@[simp] theorem State.mapSession_arena (f : Session → Session) : (s.mapSession k f).arena = s.arena := rfl
@[simp] theorem State.mapSession_e (f : Session → Session) : (s.mapSession k f).e = s.e := rfl
@[simp] theorem State.mapSession_p (f : Session → Session) : (s.mapSession k f).p = s.p := rfl
@[simp] theorem State.mapSession_target (f : Session → Session) : (s.mapSession k f).target = s.target := rfl
@[simp] theorem State.mapSession_serving (f : Session → Session) : (s.mapSession k f).serving = s.serving := rfl
@[simp] theorem State.mapSession_write (f : Session → Session) : (s.mapSession k f).write = s.write := rfl
@[simp] theorem State.mapSession_inputs (f : Session → Session) : (s.mapSession k f).inputs = s.inputs := rfl
@[simp] theorem State.mapSession_draws (f : Session → Session) : (s.mapSession k f).draws = s.draws := rfl
@[simp] theorem State.mapSession_sessions (f : Session → Session) : (s.mapSession k f).sessions = s.sessions.modify k f := rfl

@[simp] theorem State.mapSlot_cfg (f : Slot → Slot) : (s.mapSlot k f).cfg = s.cfg := rfl
@[simp] theorem State.mapSlot_g (f : Slot → Slot) : (s.mapSlot k f).g = s.g := rfl
@[simp] theorem State.mapSlot_sessions (f : Slot → Slot) : (s.mapSlot k f).sessions = s.sessions := rfl
@[simp] theorem State.mapSlot_e (f : Slot → Slot) : (s.mapSlot k f).e = s.e := rfl
@[simp] theorem State.mapSlot_p (f : Slot → Slot) : (s.mapSlot k f).p = s.p := rfl
@[simp] theorem State.mapSlot_target (f : Slot → Slot) : (s.mapSlot k f).target = s.target := rfl
@[simp] theorem State.mapSlot_serving (f : Slot → Slot) : (s.mapSlot k f).serving = s.serving := rfl
@[simp] theorem State.mapSlot_write (f : Slot → Slot) : (s.mapSlot k f).write = s.write := rfl
@[simp] theorem State.mapSlot_inputs (f : Slot → Slot) : (s.mapSlot k f).inputs = s.inputs := rfl
@[simp] theorem State.mapSlot_draws (f : Slot → Slot) : (s.mapSlot k f).draws = s.draws := rfl
@[simp] theorem State.mapSlot_arena (f : Slot → Slot) : (s.mapSlot k f).arena = s.arena.modify k f := rfl

@[simp] theorem State.releaseSlot_cfg : (s.releaseSlot k).cfg = s.cfg := rfl
@[simp] theorem State.releaseSlot_g : (s.releaseSlot k).g = s.g := rfl
@[simp] theorem State.releaseSlot_sessions : (s.releaseSlot k).sessions = s.sessions := rfl
@[simp] theorem State.releaseSlot_e : (s.releaseSlot k).e = s.e := rfl
@[simp] theorem State.releaseSlot_p : (s.releaseSlot k).p = s.p := rfl
@[simp] theorem State.releaseSlot_target : (s.releaseSlot k).target = s.target := rfl
@[simp] theorem State.releaseSlot_serving : (s.releaseSlot k).serving = s.serving := rfl
@[simp] theorem State.releaseSlot_write : (s.releaseSlot k).write = s.write := rfl
@[simp] theorem State.releaseSlot_inputs : (s.releaseSlot k).inputs = s.inputs := rfl
@[simp] theorem State.releaseSlot_draws : (s.releaseSlot k).draws = s.draws := rfl
@[simp] theorem State.releaseSlot_arena : (s.releaseSlot k).arena = s.arena.modify k (fun sl => { sl with owner := none }) := rfl

@[simp] theorem State.restart_cfg : (s.restart k).cfg = s.cfg := rfl
@[simp] theorem State.restart_g : (s.restart k).g = s.g := rfl
@[simp] theorem State.restart_arena : (s.restart k).arena = s.arena := rfl
@[simp] theorem State.restart_e : (s.restart k).e = s.e := rfl
@[simp] theorem State.restart_p : (s.restart k).p = s.p := rfl
@[simp] theorem State.restart_target : (s.restart k).target = s.target := rfl
@[simp] theorem State.restart_serving : (s.restart k).serving = s.serving := rfl
@[simp] theorem State.restart_write : (s.restart k).write = s.write := rfl
@[simp] theorem State.restart_inputs : (s.restart k).inputs = s.inputs := rfl
@[simp] theorem State.restart_draws : (s.restart k).draws = s.draws := rfl
@[simp] theorem State.restart_sessions :
    (s.restart k).sessions = s.sessions.modify k (fun se => { se with hlen := 0, plen := 0, kind := none, phase := .awaitingCommand }) := rfl

@[simp] theorem State.init_cfg : (s.init k).cfg = s.cfg := rfl
@[simp] theorem State.init_g : (s.init k).g = s.g := rfl
@[simp] theorem State.init_arena : (s.init k).arena = s.arena := rfl
@[simp] theorem State.init_e : (s.init k).e = s.e := rfl
@[simp] theorem State.init_p : (s.init k).p = s.p := rfl
@[simp] theorem State.init_target : (s.init k).target = s.target := rfl
@[simp] theorem State.init_serving : (s.init k).serving = s.serving := rfl
@[simp] theorem State.init_write : (s.init k).write = s.write := rfl
@[simp] theorem State.init_inputs : (s.init k).inputs = s.inputs := rfl
@[simp] theorem State.init_draws : (s.init k).draws = s.draws := rfl
@[simp] theorem State.init_sessions :
    (s.init k).sessions = s.sessions.modify k (fun se => { se with phase := .awaitingCommand }) := rfl

@[simp] theorem State.acceptInto_cfg : (s.acceptInto k).cfg = s.cfg := rfl
@[simp] theorem State.acceptInto_g : (s.acceptInto k).g = s.g := rfl
@[simp] theorem State.acceptInto_arena : (s.acceptInto k).arena = s.arena := rfl
@[simp] theorem State.acceptInto_e : (s.acceptInto k).e = s.e := rfl
@[simp] theorem State.acceptInto_p : (s.acceptInto k).p = s.p := rfl
@[simp] theorem State.acceptInto_target : (s.acceptInto k).target = s.target := rfl
@[simp] theorem State.acceptInto_serving : (s.acceptInto k).serving = s.serving := rfl
@[simp] theorem State.acceptInto_write : (s.acceptInto k).write = s.write := rfl
@[simp] theorem State.acceptInto_inputs : (s.acceptInto k).inputs = s.inputs := rfl
@[simp] theorem State.acceptInto_draws : (s.acceptInto k).draws = s.draws := rfl

@[simp] theorem State.arrive_cfg (b : List Byte) : (s.arrive k b).cfg = s.cfg := rfl
@[simp] theorem State.arrive_g (b : List Byte) : (s.arrive k b).g = s.g := rfl
@[simp] theorem State.arrive_arena (b : List Byte) : (s.arrive k b).arena = s.arena := rfl
@[simp] theorem State.arrive_e (b : List Byte) : (s.arrive k b).e = s.e := rfl
@[simp] theorem State.arrive_p (b : List Byte) : (s.arrive k b).p = s.p := rfl
@[simp] theorem State.arrive_target (b : List Byte) : (s.arrive k b).target = s.target := rfl
@[simp] theorem State.arrive_serving (b : List Byte) : (s.arrive k b).serving = s.serving := rfl
@[simp] theorem State.arrive_write (b : List Byte) : (s.arrive k b).write = s.write := rfl
@[simp] theorem State.arrive_inputs (b : List Byte) : (s.arrive k b).inputs = s.inputs := rfl
@[simp] theorem State.arrive_draws (b : List Byte) : (s.arrive k b).draws = s.draws := rfl

@[simp] theorem State.peerEof_cfg : (s.peerEof k).cfg = s.cfg := rfl
@[simp] theorem State.peerEof_g : (s.peerEof k).g = s.g := rfl
@[simp] theorem State.peerEof_arena : (s.peerEof k).arena = s.arena := rfl
@[simp] theorem State.peerEof_e : (s.peerEof k).e = s.e := rfl
@[simp] theorem State.peerEof_p : (s.peerEof k).p = s.p := rfl
@[simp] theorem State.peerEof_target : (s.peerEof k).target = s.target := rfl
@[simp] theorem State.peerEof_serving : (s.peerEof k).serving = s.serving := rfl
@[simp] theorem State.peerEof_write : (s.peerEof k).write = s.write := rfl
@[simp] theorem State.peerEof_inputs : (s.peerEof k).inputs = s.inputs := rfl
@[simp] theorem State.peerEof_draws : (s.peerEof k).draws = s.draws := rfl

@[simp] theorem State.cycleFall_cfg : (s.cycleFall).cfg = s.cfg := rfl
@[simp] theorem State.cycleFall_g : (s.cycleFall).g = s.g := rfl
@[simp] theorem State.cycleFall_sessions : (s.cycleFall).sessions = s.sessions := rfl
@[simp] theorem State.cycleFall_arena : (s.cycleFall).arena = s.arena := rfl
@[simp] theorem State.cycleFall_e : (s.cycleFall).e = s.e := rfl
@[simp] theorem State.cycleFall_serving : (s.cycleFall).serving = s.serving := rfl
@[simp] theorem State.cycleFall_write : (s.cycleFall).write = s.write := rfl
@[simp] theorem State.cycleFall_inputs : (s.cycleFall).inputs = s.inputs := rfl
@[simp] theorem State.cycleFall_draws : (s.cycleFall).draws = s.draws := rfl
@[simp] theorem State.cycleFall_p : s.cycleFall.p = { s.p with tck := false } := rfl
@[simp] theorem State.cycleFall_target : s.cycleFall.target = targetNext s.cfg s.target s.p.tms s.p.tdi := rfl

@[simp] theorem State.cycleRise_cfg : (s.cycleRise).cfg = s.cfg := rfl
@[simp] theorem State.cycleRise_g : (s.cycleRise).g = s.g := rfl
@[simp] theorem State.cycleRise_sessions : (s.cycleRise).sessions = s.sessions := rfl
@[simp] theorem State.cycleRise_arena : (s.cycleRise).arena = s.arena := rfl
@[simp] theorem State.cycleRise_e : (s.cycleRise).e = s.e := rfl
@[simp] theorem State.cycleRise_target : (s.cycleRise).target = s.target := rfl
@[simp] theorem State.cycleRise_serving : (s.cycleRise).serving = s.serving := rfl
@[simp] theorem State.cycleRise_write : (s.cycleRise).write = s.write := rfl
@[simp] theorem State.cycleRise_inputs : (s.cycleRise).inputs = s.inputs := rfl
@[simp] theorem State.cycleRise_draws : (s.cycleRise).draws = s.draws := rfl
@[simp] theorem State.cycleRise_p : s.cycleRise.p = { s.p with tck := true, driven := s.p.driven ++ [(s.p.tms, s.p.tdi)] } := rfl

@[simp] theorem State.cycleApply_cfg (tms tdi : Bool) : (s.cycleApply tms tdi).cfg = s.cfg := rfl
@[simp] theorem State.cycleApply_g (tms tdi : Bool) : (s.cycleApply tms tdi).g = s.g := rfl
@[simp] theorem State.cycleApply_sessions (tms tdi : Bool) : (s.cycleApply tms tdi).sessions = s.sessions := rfl
@[simp] theorem State.cycleApply_arena (tms tdi : Bool) : (s.cycleApply tms tdi).arena = s.arena := rfl
@[simp] theorem State.cycleApply_e (tms tdi : Bool) : (s.cycleApply tms tdi).e = s.e := rfl
@[simp] theorem State.cycleApply_target (tms tdi : Bool) : (s.cycleApply tms tdi).target = s.target := rfl
@[simp] theorem State.cycleApply_serving (tms tdi : Bool) : (s.cycleApply tms tdi).serving = s.serving := rfl
@[simp] theorem State.cycleApply_write (tms tdi : Bool) : (s.cycleApply tms tdi).write = s.write := rfl
@[simp] theorem State.cycleApply_inputs (tms tdi : Bool) : (s.cycleApply tms tdi).inputs = s.inputs := rfl
@[simp] theorem State.cycleApply_draws (tms tdi : Bool) : (s.cycleApply tms tdi).draws = s.draws := rfl
@[simp] theorem State.cycleApply_p (tms tdi : Bool) : (s.cycleApply tms tdi).p = { s.p with tms := tms, tdi := tdi } := rfl

@[simp] theorem State.hwSetup_cfg (n : Word) : (s.hwSetup n).cfg = s.cfg := rfl
@[simp] theorem State.hwSetup_g (n : Word) : (s.hwSetup n).g = s.g := rfl
@[simp] theorem State.hwSetup_sessions (n : Word) : (s.hwSetup n).sessions = s.sessions := rfl
@[simp] theorem State.hwSetup_arena (n : Word) : (s.hwSetup n).arena = s.arena := rfl
@[simp] theorem State.hwSetup_p (n : Word) : (s.hwSetup n).p = s.p := rfl
@[simp] theorem State.hwSetup_target (n : Word) : (s.hwSetup n).target = s.target := rfl
@[simp] theorem State.hwSetup_serving (n : Word) : (s.hwSetup n).serving = s.serving := rfl
@[simp] theorem State.hwSetup_write (n : Word) : (s.hwSetup n).write = s.write := rfl
@[simp] theorem State.hwSetup_inputs (n : Word) : (s.hwSetup n).inputs = s.inputs := rfl
@[simp] theorem State.hwSetup_draws (n : Word) : (s.hwSetup n).draws = s.draws := rfl

@[simp] theorem State.hwStart_cfg : (s.hwStart).cfg = s.cfg := rfl
@[simp] theorem State.hwStart_g : (s.hwStart).g = s.g := rfl
@[simp] theorem State.hwStart_sessions : (s.hwStart).sessions = s.sessions := rfl
@[simp] theorem State.hwStart_arena : (s.hwStart).arena = s.arena := rfl
@[simp] theorem State.hwStart_p : (s.hwStart).p = s.p := rfl
@[simp] theorem State.hwStart_target : (s.hwStart).target = s.target := rfl
@[simp] theorem State.hwStart_serving : (s.hwStart).serving = s.serving := rfl
@[simp] theorem State.hwStart_write : (s.hwStart).write = s.write := rfl
@[simp] theorem State.hwStart_inputs : (s.hwStart).inputs = s.inputs := rfl
@[simp] theorem State.hwStart_draws : (s.hwStart).draws = s.draws := rfl

@[simp] theorem State.swStart_cfg : (s.swStart).cfg = s.cfg := rfl
@[simp] theorem State.swStart_g : (s.swStart).g = s.g := rfl
@[simp] theorem State.swStart_sessions : (s.swStart).sessions = s.sessions := rfl
@[simp] theorem State.swStart_arena : (s.swStart).arena = s.arena := rfl
@[simp] theorem State.swStart_p : (s.swStart).p = s.p := rfl
@[simp] theorem State.swStart_target : (s.swStart).target = s.target := rfl
@[simp] theorem State.swStart_serving : (s.swStart).serving = s.serving := rfl
@[simp] theorem State.swStart_write : (s.swStart).write = s.write := rfl
@[simp] theorem State.swStart_inputs : (s.swStart).inputs = s.inputs := rfl
@[simp] theorem State.swStart_draws : (s.swStart).draws = s.draws := rfl
@[simp] theorem State.swStart_e : s.swStart.e = { s.e with i := 0 } := rfl

@[simp] theorem State.rxPush_cfg : (s.rxPush).cfg = s.cfg := rfl
@[simp] theorem State.rxPush_g : (s.rxPush).g = s.g := rfl
@[simp] theorem State.rxPush_sessions : (s.rxPush).sessions = s.sessions := rfl
@[simp] theorem State.rxPush_arena : (s.rxPush).arena = s.arena := rfl
@[simp] theorem State.rxPush_p : (s.rxPush).p = s.p := rfl
@[simp] theorem State.rxPush_target : (s.rxPush).target = s.target := rfl
@[simp] theorem State.rxPush_serving : (s.rxPush).serving = s.serving := rfl
@[simp] theorem State.rxPush_write : (s.rxPush).write = s.write := rfl
@[simp] theorem State.rxPush_inputs : (s.rxPush).inputs = s.inputs := rfl
@[simp] theorem State.rxPush_draws : (s.rxPush).draws = s.draws := rfl
@[simp] theorem State.rxPush_e :
    s.rxPush.e = { s.e with rxfB := s.e.rxfB ++ [s.e.isrB], isrB := 0, isrcB := 0 } := rfl

@[simp] theorem State.bitStep_cfg : (s.bitStep).cfg = s.cfg := rfl
@[simp] theorem State.bitStep_g : (s.bitStep).g = s.g := rfl
@[simp] theorem State.bitStep_sessions : (s.bitStep).sessions = s.sessions := rfl
@[simp] theorem State.bitStep_arena : (s.bitStep).arena = s.arena := rfl
@[simp] theorem State.bitStep_serving : (s.bitStep).serving = s.serving := rfl
@[simp] theorem State.bitStep_write : (s.bitStep).write = s.write := rfl
@[simp] theorem State.bitStep_inputs : (s.bitStep).inputs = s.inputs := rfl
@[simp] theorem State.bitStep_draws : (s.bitStep).draws = s.draws := rfl

end Sys2Proof.Machine
end

