-- ==== Sys2Proof/Laws/Ops.lean ====
section
/-! SUPPORT. One lemma for each shared operation that says everything it can do; later proofs cite these and do not unfold
the operations. -/

namespace Sys2Proof.Machine

/-! ## Results -/

@[simp] theorem andThen_next {α β : Type} (a : α) (f : α → Res β) : andThen (.next a) f = f a := rfl
@[simp] theorem andThen_fault {α β : Type} (x : Fault) (f : α → Res β) : andThen (.fault x) f = .fault x := rfl
@[simp] theorem andThen_refused {α β : Type} (x : Refusal) (f : α → Res β) : andThen (.refused x) f = .refused x := rfl

theorem andThen_eq_next {α β : Type} (r : Res α) (f : α → Res β) (b : β) :
    andThen r f = .next b ↔ ∃ a, r = .next a ∧ f a = .next b := by
  cases r <;> simp [andThen]

/-! ## Storage -/

/-- `MemRead` answers exactly inside a slot that is owned (20_memory.md R66). -/
theorem State.memRead_eq_next (s : State) (k off n : Nat) (bs : List Byte) :
    s.memRead k off n = .next bs ↔
      ∃ sl, s.arena[k]? = some sl ∧ off + n ≤ s.cfg.slotBytes ∧ sl.owner.isSome = true ∧
        bs = sl.bytes.readRange off n := by
  unfold State.memRead
  cases s.arena[k]? with
  | none => simp
  | some sl =>
    by_cases h1 : s.cfg.slotBytes < off + n
    · simp [h1, Nat.not_le.2 h1]
    · cases h2 : sl.owner with
      | none => simp [h1, h2]
      | some o =>
        simp only [h1, h2, Option.isNone_some, Bool.false_eq_true, ↓reduceIte, Host.Outcome.next.injEq, Option.some.injEq,
          exists_eq_left', Option.isSome_some, true_and, Nat.not_lt.1 h1]
        exact eq_comm

/-- `MemWrite` of one byte (20_memory.md R66). -/
theorem State.memWrite_eq_next (s t : State) (k off : Nat) (b : Byte) :
    s.memWrite k off b = .next t ↔
      (∃ sl, s.arena[k]? = some sl ∧ off + 1 ≤ s.cfg.slotBytes ∧ sl.owner.isSome = true) ∧
        t = s.mapSlot k fun sl => { sl with bytes := sl.bytes.write off b } := by
  unfold State.memWrite
  cases s.arena[k]? with
  | none => simp
  | some sl =>
    by_cases h1 : s.cfg.slotBytes < off + 1
    · simp [h1, Nat.not_le.2 h1]
    · cases h2 : sl.owner with
      | none => simp [h1, h2]
      | some o =>
        simp only [h1, h2, Option.isNone_some, Bool.false_eq_true, ↓reduceIte, Host.Outcome.next.injEq, Option.some.injEq,
          exists_eq_left', Option.isSome_some, true_and, Nat.not_lt.1 h1]
        exact eq_comm

/-- The bytes of `v` written from offset `off` on. -/
def Memory.writeAll : Memory → Nat → List Byte → Memory
  | m, _, [] => m
  | m, off, b :: v => Memory.writeAll (m.write off b) (off + 1) v

theorem Memory.wf_writeAll (m : Memory) (off : Nat) (v : List Byte) (h : Memory.wf m = true) :
    Memory.wf (Memory.writeAll m off v) = true := by
  induction v generalizing m off with
  | nil => exact h
  | cons b v ih => exact ih _ _ (Memory.wf_write m off b h)

theorem Memory.read_writeAll (m : Memory) (off : Nat) (v : List Byte) (a : Nat) (h : Memory.wf m = true) :
    Memory.read (Memory.writeAll m off v) a =
      if off ≤ a ∧ a < off + v.length then v.getD (a - off) 0 else Memory.read m a := by
  induction v generalizing m off with
  | nil => simp [Memory.writeAll, show ¬(off ≤ a ∧ a < off) by omega]
  | cons b v ih =>
    rw [Memory.writeAll, ih _ _ (Memory.wf_write m off b h), Memory.read_write m off b a h]
    by_cases h1 : a = off
    · subst h1; simp
    · by_cases h2 : off + 1 ≤ a ∧ a < off + 1 + v.length
      · obtain ⟨d, rfl⟩ : ∃ d, a = off + 1 + d := ⟨a - (off + 1), by omega⟩
        simp only [List.length_cons]
        rw [if_pos h2, if_pos (by omega), show off + 1 + d - (off + 1) = d by omega, show off + 1 + d - off = d + 1 by omega]
        simp
      · rw [if_neg h2, if_neg h1, if_neg (by simp only [List.length_cons]; omega)]

theorem State.mapSlot_mapSlot (s : State) (k : Nat) (f g : Slot → Slot) :
    (s.mapSlot k f).mapSlot k g = s.mapSlot k (g ∘ f) := by
  simp [State.mapSlot, List.modify_modify_eq]

theorem State.mapSlot_id (s : State) (k : Nat) : s.mapSlot k (fun sl => sl) = s := by
  have : s.arena.modify k (fun sl => sl) = s.arena := by
    apply List.ext_getElem? ; intro j; simp [List.getElem?_modify]
  simp [State.mapSlot, this]

/-- Several bytes written in order: where it answers, it has written them all (20_memory.md R66). -/
theorem State.memWriteAll_eq_next (s t : State) (k off : Nat) (v : List Byte) (h : s.memWriteAll k off v = .next t) :
    t = s.mapSlot k fun sl => { sl with bytes := Memory.writeAll sl.bytes off v } := by
  induction v generalizing s off with
  | nil =>
    simp only [State.memWriteAll, Host.Outcome.next.injEq] at h
    subst h
    simp [Memory.writeAll, State.mapSlot_id]
  | cons b v ih =>
    simp only [State.memWriteAll, andThen_eq_next] at h
    obtain ⟨s1, h1, h2⟩ := h
    obtain ⟨-, rfl⟩ := (State.memWrite_eq_next _ _ _ _ _).1 h1
    rw [ih _ _ h2, State.mapSlot_mapSlot]
    rfl

/-- Where every byte is inside an owned slot, the writes answer. -/
theorem State.memWriteAll_next (s : State) (k off : Nat) (v : List Byte) (sl : Slot) (hk : s.arena[k]? = some sl)
    (ho : sl.owner.isSome = true) (hb : off + v.length ≤ s.cfg.slotBytes) :
    s.memWriteAll k off v = .next (s.mapSlot k fun sl => { sl with bytes := Memory.writeAll sl.bytes off v }) := by
  induction v generalizing s off sl with
  | nil => simp [State.memWriteAll, Memory.writeAll, State.mapSlot_id]
  | cons b v ih =>
    have h1 : s.memWrite k off b = .next (s.mapSlot k fun sl => { sl with bytes := sl.bytes.write off b }) :=
      (State.memWrite_eq_next _ _ _ _ _).2 ⟨⟨sl, hk, by simp at hb; omega, ho⟩, rfl⟩
    rw [State.memWriteAll, h1, andThen_next,
      ih _ _ { sl with bytes := sl.bytes.write off b } (by simp [hk]) ho
        (by simp at hb ⊢; omega), State.mapSlot_mapSlot]
    rfl

/-- `AcquireSlot`: the lowest free slot, zero-filled and owned (20_memory.md R67). -/
theorem State.acquireSlot_eq_some (s t : State) (k : Nat) (r : Role) (a : Nat) :
    s.acquireSlot k r = some (a, t) ↔
      (∃ sl, s.arena[a]? = some sl ∧ sl.owner = none) ∧
        (∀ b sl, b < a → s.arena[b]? = some sl → sl.owner.isSome = true) ∧
        t = s.mapSlot a fun _ => { owner := some (k, r), bytes := [] } := by
  unfold State.acquireSlot
  cases h : s.arena.findIdx? fun sl => sl.owner.isNone with
  | none =>
    simp only [List.findIdx?_eq_none_iff] at h
    simp only [reduceCtorEq, false_iff, not_and]
    rintro ⟨sl, hsl, ho⟩
    simpa [ho] using h sl (List.mem_of_getElem? hsl)
  | some b =>
    obtain ⟨hb, hfree, hlow⟩ := List.findIdx?_eq_some_iff_getElem.1 h
    simp only [Option.some.injEq, Prod.mk.injEq]
    constructor
    · rintro ⟨rfl, rfl⟩
      refine ⟨⟨s.arena[b], List.getElem?_eq_getElem hb, by simpa using hfree⟩, fun c sl hc hsl => ?_, rfl⟩
      have := hlow c hc
      rw [List.getElem?_eq_getElem (by omega)] at hsl
      cases hsl
      cases ho : s.arena[c].owner <;> simp_all
    · rintro ⟨⟨sl, hsl, ho⟩, hlow', rfl⟩
      obtain ⟨ha, rfl⟩ := List.getElem?_eq_some_iff.1 hsl
      have hba : b = a := by
        rcases lt_trichotomy b a with hlt | heq | hgt
        · have := hlow' b s.arena[b] hlt (List.getElem?_eq_getElem hb)
          cases ho' : s.arena[b].owner <;> simp_all
        · exact heq
        · exact absurd (by simp [ho]) (hlow a hgt)
      subst hba
      exact ⟨rfl, rfl⟩

/-- `AcquireSlot` answers none exactly if no slot is free (20_memory.md R67). -/
theorem State.acquireSlot_eq_none (s : State) (k : Nat) (r : Role) :
    s.acquireSlot k r = none ↔ ∀ sl ∈ s.arena, sl.owner.isSome = true := by
  unfold State.acquireSlot
  cases h : s.arena.findIdx? fun sl => sl.owner.isNone with
  | none =>
    simp only [List.findIdx?_eq_none_iff] at h
    simp only [true_iff]
    intro sl hsl
    have := h sl hsl
    cases ho : sl.owner <;> simp_all
  | some b =>
    obtain ⟨hb, hfree, -⟩ := List.findIdx?_eq_some_iff_getElem.1 h
    simp only [reduceCtorEq, false_iff, not_forall]
    refine ⟨s.arena[b], List.getElem_mem hb, ?_⟩
    cases ho : s.arena[b].owner <;> simp_all

/-! ## Release and close -/

/-- Session `k`'s registers name slot `a`. -/
def Session.holds (se : Session) (a : Nat) : Bool :=
  decide (se.tmsSlot = some a) || decide (se.tdiSlot = some a) || decide (se.tdoSlot = some a)

/-- A session whose slot registers are none. -/
def Session.released (se : Session) : Session := { se with tmsSlot := none, tdiSlot := none, tdoSlot := none }

/-- A session slot after a close (60_exceptions.md R215). -/
def Session.closed (code : CloseReason) (se : Session) : Session :=
  { se with
    tmsSlot := none, tdiSlot := none, tdoSlot := none, hlen := 0, plen := 0, kind := none, rx := [], reason := some code
    phase := .closed }

theorem State.releaseHeld_eq (slot : Option Nat) (s : State) :
    s.releaseHeld slot =
      { s with arena := match slot with | none => s.arena | some k => s.arena.modify k fun sl => { sl with owner := none } } := by
  cases slot <;> rfl

/-- Releasing a session's slots frees exactly the slots its registers name, bytes untouched (20_memory.md R68). -/
theorem State.releaseSlots_of_some (s : State) (k : Nat) (se : Session) (h : s.sessions[k]? = some se) :
    s.releaseSlots k =
      { s with
        sessions := s.sessions.modify k Session.released
        arena := s.arena.mapIdx fun a sl => if se.holds a then { sl with owner := none } else sl } := by
  have harena : ∀ l : List Slot,
      (match se.tdoSlot with
        | none =>
          (match se.tdiSlot with
            | none => (match se.tmsSlot with | none => l | some k => l.modify k fun sl => { sl with owner := none })
            | some k =>
              (match se.tmsSlot with | none => l | some k => l.modify k fun sl => { sl with owner := none }).modify k
                fun sl => { sl with owner := none })
        | some k =>
          (match se.tdiSlot with
            | none => (match se.tmsSlot with | none => l | some k => l.modify k fun sl => { sl with owner := none })
            | some k =>
              (match se.tmsSlot with | none => l | some k => l.modify k fun sl => { sl with owner := none }).modify k
                fun sl => { sl with owner := none }).modify k fun sl => { sl with owner := none }) =
        l.mapIdx fun a sl => if se.holds a then { sl with owner := none } else sl := by
    intro l
    apply List.ext_getElem?
    intro a
    cases ht : se.tmsSlot <;> cases hd : se.tdiSlot <;> cases ho : se.tdoSlot <;>
      simp only [List.getElem?_modify, List.getElem?_mapIdx, Session.holds, ht, hd, ho] <;>
      cases l[a]? <;> simp <;> split_ifs <;> simp_all
  simp only [State.releaseSlots, h, State.releaseHeld_eq]
  have := harena s.arena
  cases ht : se.tmsSlot <;> cases hd : se.tdiSlot <;> cases ho : se.tdoSlot <;> simp only [ht, hd, ho] at this ⊢ <;>
    simp only [State.mapSession, State.mk.injEq, true_and, and_true] <;>
    exact ⟨rfl, this⟩

theorem State.releaseSlots_of_none (s : State) (k : Nat) (h : s.sessions[k]? = none) : s.releaseSlots k = s := by
  simp [State.releaseSlots, h]

/-- `Close(s, code)` as one update (60_exceptions.md R215). -/
theorem State.close_of_some (s : State) (k : Nat) (code : CloseReason) (se : Session) (h : s.sessions[k]? = some se) :
    s.close k code =
      { s with
        sessions := s.sessions.modify k (Session.closed code)
        arena := s.arena.mapIdx fun a sl => if se.holds a then { sl with owner := none } else sl } := by
  simp only [State.close, State.releaseSlots_of_some s k se h, State.mapSession, List.modify_modify_eq]
  rfl

theorem State.modify_of_none {α : Type} (l : List α) (k : Nat) (f : α → α) (h : l[k]? = none) : l.modify k f = l := by
  apply List.ext_getElem?
  intro j
  by_cases hj : k = j
  · subst hj; simp [h]
  · simp [hj]

theorem State.close_of_none (s : State) (k : Nat) (code : CloseReason) (h : s.sessions[k]? = none) :
    s.close k code = s := by
  simp [State.close, State.releaseSlots_of_none s k h, State.mapSession, State.modify_of_none _ _ _ h]

/-- What a close leaves alone whatever slot it names. -/
theorem State.close_frame (s : State) (k : Nat) (code : CloseReason) :
    (s.close k code).cfg = s.cfg ∧ (s.close k code).g = s.g ∧ (s.close k code).e = s.e ∧ (s.close k code).p = s.p ∧
    (s.close k code).target = s.target ∧ (s.close k code).serving = s.serving ∧ (s.close k code).write = s.write ∧
    (s.close k code).inputs = s.inputs ∧ (s.close k code).draws = s.draws := by
  cases h : s.sessions[k]? with
  | none => simp [State.close_of_none s k code h]
  | some se => simp [State.close_of_some s k code se h]

@[simp] theorem State.close_cfg (s : State) (k : Nat) (c : CloseReason) : (s.close k c).cfg = s.cfg := (s.close_frame k c).1
@[simp] theorem State.close_g (s : State) (k : Nat) (c : CloseReason) : (s.close k c).g = s.g := (s.close_frame k c).2.1
@[simp] theorem State.close_e (s : State) (k : Nat) (c : CloseReason) : (s.close k c).e = s.e := (s.close_frame k c).2.2.1
@[simp] theorem State.close_p (s : State) (k : Nat) (c : CloseReason) : (s.close k c).p = s.p :=
  (s.close_frame k c).2.2.2.1
@[simp] theorem State.close_target (s : State) (k : Nat) (c : CloseReason) : (s.close k c).target = s.target :=
  (s.close_frame k c).2.2.2.2.1
@[simp] theorem State.close_inputs (s : State) (k : Nat) (c : CloseReason) : (s.close k c).inputs = s.inputs :=
  (s.close_frame k c).2.2.2.2.2.2.2.1
@[simp] theorem State.close_draws (s : State) (k : Nat) (c : CloseReason) : (s.close k c).draws = s.draws :=
  (s.close_frame k c).2.2.2.2.2.2.2.2

@[simp] theorem State.close_sessions (s : State) (k : Nat) (c : CloseReason) :
    (s.close k c).sessions = s.sessions.modify k (Session.closed c) := by
  cases h : s.sessions[k]? with
  | none => rw [State.close_of_none s k c h, State.modify_of_none _ _ _ h]
  | some se => simp [State.close_of_some s k c se h]

/-- The arena after a close: the slots the session held are free, and no byte has changed. -/
theorem State.close_arena (s : State) (k : Nat) (c : CloseReason) (a : Nat) :
    (s.close k c).arena[a]? =
      (s.arena[a]?).map fun sl =>
        if (s.sessions[k]?.map fun se => se.holds a) = some true then { sl with owner := none } else sl := by
  cases h : s.sessions[k]? with
  | none => simp [State.close_of_none s k c h]
  | some se => simp [State.close_of_some s k c se h, List.getElem?_mapIdx]

@[simp] theorem State.close_arena_length (s : State) (k : Nat) (c : CloseReason) :
    (s.close k c).arena.length = s.arena.length := by
  cases h : s.sessions[k]? with
  | none => simp [State.close_of_none s k c h]
  | some se => simp [State.close_of_some s k c se h]

/-! ## The reply write -/

/-- `Emit` and what follows it: the rule goes on after a successful write, or the session closes with `E_WRITE` (42_session.md
R192, R193). -/
theorem State.emitThen_of_some (s : State) (k : Nat) (bytes : List Byte) (cont : State → State) (se : Session)
    (h : s.sessions[k]? = some se) :
    s.emitThen k bytes cont =
      if s.write.ok = true ∧ se.gone = false then
        cont (s.mapSession k fun se => { se with tx := se.tx ++ bytes, seen := se.seen ++ bytes })
      else (s.mapSession k fun se => { se with seen := se.seen ++ bytes.take s.write.delivered }).close k .write := by
  simp only [State.emitThen, h]
  cases s.write.ok <;> cases se.gone <;> simp

end Sys2Proof.Machine
end

