-- ==== Sys2Proof/Laws/Canonical.lean ====
section
/-! SUPPORT. Every operation on the arena keeps the canonical form of its bytes, and reset has it (20_memory.md R66-R68). -/

namespace Sys2Proof.Machine

theorem State.MemoryCanonical.of_same {s t : State} (h : s.MemoryCanonical) (hc : t.cfg = s.cfg) (ha : t.arena = s.arena) :
    t.MemoryCanonical := by
  intro sl hsl
  rw [ha] at hsl
  rw [hc]
  exact h sl hsl

theorem State.MemoryCanonical.mapSlot {s : State} (h : s.MemoryCanonical) (k : Nat) (f : Slot → Slot)
    (hf : ∀ sl : Slot, Memory.wf sl.bytes = true ∧ Memory.below s.cfg.slotBytes sl.bytes = true →
      Memory.wf (f sl).bytes = true ∧ Memory.below s.cfg.slotBytes (f sl).bytes = true) :
    (s.mapSlot k f).MemoryCanonical := by
  intro sl hsl
  obtain ⟨j, hj⟩ := List.getElem?_of_mem hsl
  simp only [State.mapSlot_arena, List.getElem?_modify, Option.map_eq_map, Option.map_eq_some_iff] at hj
  obtain ⟨s0, h0, rfl⟩ := hj
  have h1 := h s0 (List.mem_of_getElem? h0)
  split
  · exact hf s0 h1
  · exact h1

/-- `MemWrite` keeps the form (R66). -/
theorem State.MemoryCanonical.memWrite {s t : State} {k off : Nat} {b : Byte} (h : s.MemoryCanonical)
    (hw : s.memWrite k off b = .next t) : t.MemoryCanonical := by
  obtain ⟨⟨sl, -, h2, -⟩, rfl⟩ := (State.memWrite_eq_next _ _ _ _ _).1 hw
  exact h.mapSlot k _ fun sl h => ⟨Memory.wf_write _ _ _ h.1, Memory.below_write _ _ _ _ (by omega) h.2⟩

/-- Several writes keep the form (R66). -/
theorem State.MemoryCanonical.memWriteAll {s t : State} {k off : Nat} {v : List Byte} (h : s.MemoryCanonical)
    (hw : s.memWriteAll k off v = .next t) : t.MemoryCanonical := by
  induction v generalizing s off with
  | nil =>
    simp only [State.memWriteAll, Host.Outcome.next.injEq] at hw
    exact hw ▸ h
  | cons b v ih =>
    simp only [State.memWriteAll, andThen_eq_next] at hw
    obtain ⟨s1, h1, h2⟩ := hw
    exact ih (h.memWrite h1) h2

/-- `AcquireSlot` keeps the form: the slot's bytes become zero (R67). -/
theorem State.MemoryCanonical.acquireSlot {s t : State} {k a : Nat} {r : Role} (h : s.MemoryCanonical)
    (ha : s.acquireSlot k r = some (a, t)) : t.MemoryCanonical := by
  obtain ⟨-, -, rfl⟩ := (State.acquireSlot_eq_some _ _ _ _ _).1 ha
  exact h.mapSlot a _ fun _ _ => ⟨rfl, rfl⟩

/-- `ReleaseSlot` keeps the form (R68). -/
theorem State.MemoryCanonical.releaseSlot {s : State} (h : s.MemoryCanonical) (k : Nat) :
    (s.releaseSlot k).MemoryCanonical :=
  h.mapSlot k _ fun _ h => h

/-- Releasing a session's slots keeps the form (R68). -/
theorem State.MemoryCanonical.releaseSlots {s : State} (h : s.MemoryCanonical) (k : Nat) :
    (s.releaseSlots k).MemoryCanonical := by
  have held : ∀ (u : State) (slot : Option Nat), u.MemoryCanonical → (u.releaseHeld slot).MemoryCanonical := by
    intro u slot hu
    cases slot with
    | none => exact hu
    | some a => exact hu.releaseSlot a
  unfold State.releaseSlots
  split
  · exact h
  · exact (held _ _ (held _ _ (held _ _ h))).of_same rfl rfl

/-- The arena after reset has the form (10_state.md R51). -/
theorem State.resetWith_memoryCanonical (c : Config) (t : TargetState) : (State.resetWith c t).MemoryCanonical := by
  intro sl hsl
  rw [List.eq_of_mem_replicate hsl]
  exact ⟨rfl, rfl⟩

theorem State.reset_memoryCanonical : State.reset.MemoryCanonical := State.resetWith_memoryCanonical _ _

end Sys2Proof.Machine
end

