-- ==== Sys2Proof/Laws/Frames.lean ====
section
/-! SUPPORT. What each operation can change at all: the decoder, the commands, the engine steps and the inputs, each with one
lemma that lists its outcomes or its frame. -/

namespace Sys2Proof.Machine

/-! ## Operations that touch only sessions and arena -/

/-- `t` differs from `s` in sessions and arena only. -/
structure OnlyStorage (s t : State) : Prop where
  cfg : t.cfg = s.cfg
  g : t.g = s.g
  e : t.e = s.e
  p : t.p = s.p
  target : t.target = s.target
  serving : t.serving = s.serving
  write : t.write = s.write
  inputs : t.inputs = s.inputs
  draws : t.draws = s.draws

theorem OnlyStorage.refl (s : State) : OnlyStorage s s := ⟨rfl, rfl, rfl, rfl, rfl, rfl, rfl, rfl, rfl⟩

theorem OnlyStorage.trans {s t u : State} (h : OnlyStorage s t) (h' : OnlyStorage t u) : OnlyStorage s u :=
  ⟨h'.1.trans h.1, h'.2.trans h.2, h'.3.trans h.3, h'.4.trans h.4, h'.5.trans h.5, h'.6.trans h.6, h'.7.trans h.7,
    h'.8.trans h.8, h'.9.trans h.9⟩

theorem OnlyStorage.mapSession (s : State) (k : Nat) (f : Session → Session) : OnlyStorage s (s.mapSession k f) :=
  ⟨rfl, rfl, rfl, rfl, rfl, rfl, rfl, rfl, rfl⟩

theorem OnlyStorage.mapSlot (s : State) (k : Nat) (f : Slot → Slot) : OnlyStorage s (s.mapSlot k f) :=
  ⟨rfl, rfl, rfl, rfl, rfl, rfl, rfl, rfl, rfl⟩

theorem OnlyStorage.close (s : State) (k : Nat) (c : CloseReason) : OnlyStorage s (s.close k c) := by
  obtain ⟨h1, h2, h3, h4, h5, h6, h7, h8, h9⟩ := s.close_frame k c
  exact ⟨h1, h2, h3, h4, h5, h6, h7, h8, h9⟩

theorem OnlyStorage.acquireSlot {s t : State} {k a : Nat} {r : Role} (h : s.acquireSlot k r = some (a, t)) :
    OnlyStorage s t := by
  rw [((State.acquireSlot_eq_some s t k r a).1 h).2.2]
  exact OnlyStorage.mapSlot _ _ _

theorem OnlyStorage.memWrite {s t : State} {k off : Nat} {b : Byte} (h : s.memWrite k off b = .next t) :
    OnlyStorage s t := by
  rw [((State.memWrite_eq_next s t k off b).1 h).2]
  exact OnlyStorage.mapSlot _ _ _

theorem OnlyStorage.releaseSlots (s : State) (k : Nat) : OnlyStorage s (s.releaseSlots k) := by
  cases h : s.sessions[k]? with
  | none => rw [State.releaseSlots_of_none s k h]; exact OnlyStorage.refl s
  | some se => rw [State.releaseSlots_of_some s k se h]; exact ⟨rfl, rfl, rfl, rfl, rfl, rfl, rfl, rfl, rfl⟩

theorem OnlyStorage.shiftRelease (s : State) (k : Nat) : OnlyStorage s (s.shiftRelease k) :=
  (OnlyStorage.releaseSlots s k).trans (OnlyStorage.mapSession _ k _)

theorem OnlyStorage.emitThen (s : State) (k : Nat) (bytes : List Byte) (cont : State → State)
    (hc : ∀ s, OnlyStorage s (cont s)) : OnlyStorage s (s.emitThen k bytes cont) := by
  cases h : s.sessions[k]? with
  | none => simp only [State.emitThen, h]; exact OnlyStorage.refl s
  | some se =>
    rw [State.emitThen_of_some s k bytes cont se h]
    split
    · exact (OnlyStorage.mapSession s k _).trans (hc _)
    · exact (OnlyStorage.mapSession s k _).trans (OnlyStorage.close _ k _)

theorem OnlyStorage.validateCount (s : State) (k : Nat) (h : Vector Byte 11) : OnlyStorage s (s.validateCount k h) := by
  unfold State.validateCount
  split
  · exact OnlyStorage.close s k _
  · exact OnlyStorage.close s k _
  · exact OnlyStorage.close s k _
  · exact OnlyStorage.close s k _
  · dsimp only
    split
    · exact (OnlyStorage.mapSession s k _).trans (OnlyStorage.close _ k _)
    · next x s2 h1 =>
      have h12 := (OnlyStorage.mapSession s k fun se => { se with n := countOf h }).trans (OnlyStorage.acquireSlot h1)
      have h3 := h12.trans (OnlyStorage.mapSession s2 k fun se => { se with tmsSlot := some x })
      refine h3.trans ?_
      split
      · exact OnlyStorage.close _ k _
      · next h2 => exact (OnlyStorage.acquireSlot h2).trans (OnlyStorage.mapSession _ k _)

theorem OnlyStorage.headerByte (s : State) (k : Nat) (b : Byte) (se : Session) : OnlyStorage s (s.headerByte k b se) := by
  unfold State.headerByte
  refine (OnlyStorage.mapSession s k fun x => { x with hdr := se.hdr.setIfInBounds se.hlen b, hlen := se.hlen + 1 }).trans ?_
  dsimp only
  split
  · unfold State.classifyStep
    split
    · exact OnlyStorage.mapSession _ k _
    · exact OnlyStorage.close _ k _
  · split
    · exact OnlyStorage.refl _
    · split
      · exact OnlyStorage.close _ k _
      · split
        · exact OnlyStorage.validateCount _ k _
        · exact OnlyStorage.refl _

/-- The payload step writes one byte of the TMS or the TDI slot and advances PLEN (40_commands.md R117). -/
theorem State.payloadByte_eq_next {s t : State} {k : Nat} {b : Byte} {se : Session} (h : s.payloadByte k b se = .next t) :
    ∃ x off u, (se.tmsSlot = some x ∨ se.tdiSlot = some x) ∧ s.memWrite x off b = .next u ∧
      t = u.mapSession k fun se => { se with plen := se.plen + 1 } := by
  unfold State.payloadByte at h
  split at h
  · next t' d' ht hd =>
    simp only [andThen_eq_next, Host.Outcome.next.injEq] at h
    obtain ⟨u, hu, rfl⟩ := h
    split at hu
    · exact ⟨_, _, u, .inl ht, hu, rfl⟩
    · exact ⟨_, _, u, .inr hd, hu, rfl⟩
  · simp at h

theorem OnlyStorage.decodeByte {s t : State} {k : Nat} (h : s.decodeByte k = .next t) : OnlyStorage s t := by
  unfold State.decodeByte at h
  split at h
  · simp at h
  · split at h
    · simp only [Host.Outcome.next.injEq] at h; subst h; exact OnlyStorage.refl s
    · dsimp only at h
      split at h
      · simp only [Host.Outcome.next.injEq] at h; subst h
        exact (OnlyStorage.mapSession s k _).trans (OnlyStorage.headerByte _ k _ _)
      · obtain ⟨x, off, u, -, hu, rfl⟩ := State.payloadByte_eq_next h
        exact (OnlyStorage.mapSession s k _).trans ((OnlyStorage.memWrite hu).trans (OnlyStorage.mapSession _ k _))

theorem OnlyStorage.closeIfOpen (s : State) (k : Nat) : OnlyStorage s (s.closeIfOpen k) := by
  unfold State.closeIfOpen
  split
  · exact OnlyStorage.refl s
  · split
    · exact OnlyStorage.refl s
    · exact OnlyStorage.close s k _

theorem OnlyStorage.foldl_closeIfOpen (l : List Nat) (s : State) :
    OnlyStorage s (l.foldl (fun s k => s.closeIfOpen k) s) := by
  induction l generalizing s with
  | nil => exact OnlyStorage.refl s
  | cons k l ih => exact (OnlyStorage.closeIfOpen s k).trans (ih _)

theorem State.halt_frame (s : State) : OnlyStorage { s with g := { s.g with halted := true } } s.halt :=
  OnlyStorage.foldl_closeIfOpen _ _

/-! ## Outcomes of the larger operations -/

/-- SHIFT closes the session, or takes a TDO slot and starts the transfer of the command the session holds (40_commands.md
R124). -/
theorem execShift_eq_next {s t : State} {n : Word} {tms tdi : List Byte} (h : execShift n tms tdi s = .next t) :
    ∃ se, s.sessions[s.serving]? = some se ∧
      ((s.g.backendValid = false ∧
          t = (s.mapSession s.serving fun se => { se with phase := .dispatching }).close s.serving .backendInvalid) ∨
        (s.g.backendValid = true ∧ (∀ sl ∈ s.arena, sl.owner.isSome = true) ∧
          t = (s.mapSession s.serving fun se => { se with phase := .dispatching }).close s.serving .noSlot) ∨
        (s.g.backendValid = true ∧ s.heldCommand s.serving = .next (.shift n tms tdi) ∧
          ∃ o sl, s.arena[o]? = some sl ∧ sl.owner = none ∧
            (∀ b sl, b < o → s.arena[b]? = some sl → sl.owner.isSome = true) ∧
            t =
              State.transferStart n
                { s with
                  sessions := s.sessions.modify s.serving fun se => { se with phase := .dispatching, tdoSlot := some o }
                  arena := s.arena.modify o fun _ => { owner := some (s.serving, .tdo), bytes := [] }
                  g := { s.g with busy := true, owner := some s.serving } })) := by
  unfold execShift at h
  dsimp only at h
  split at h
  · simp at h
  · next se hse =>
    refine ⟨se, hse, ?_⟩
    split at h
    · next hb => simp only [Host.Outcome.next.injEq] at h; exact .inl ⟨hb, h.symm⟩
    · next hb =>
      have hb : s.g.backendValid = true := by simpa using hb
      split at h
      · next hn =>
        simp only [Host.Outcome.next.injEq] at h
        exact .inr (.inl ⟨hb, by simpa using (State.acquireSlot_eq_none _ _ _).1 hn, h.symm⟩)
      · next o s2 hs =>
        obtain ⟨⟨sl, hsl, ho⟩, hlow, rfl⟩ := (State.acquireSlot_eq_some _ _ _ _ _).1 hs
        simp only [andThen_eq_next] at h
        obtain ⟨i, hi, h⟩ := h
        split at h
        · next he =>
          subst he
          simp only [Host.Outcome.next.injEq] at h
          refine .inr (.inr ⟨hb, hi, o, sl, by simpa using hsl, ho, by simpa using hlow, h.symm.trans ?_⟩)
          simp only [State.mapSession, State.mapSlot, List.modify_modify_eq]
          rfl
        · simp at h

/-- What a hardware fault does before a possible halt (60_exceptions.md R219). -/
theorem State.hwFault_eq_next {s t : State} {tck tms tdi : Bool} {x : TargetState} (h : s.hwFault tck tms tdi x = .next t) :
    ∃ k, s.g.owner = some k ∧
      let s1 : State :=
        { s with
          e := { s.e with runA := false, runB := false, txfA := [], txfB := [], rxfB := [] }
          p := { s.p with tck := tck, tms := tms, tdi := tdi }
          target := x
          g :=
            { s.g with
              backendValid := false
              faultLog := s.g.faultLog ++ [{ session := k, bitIndex := s.e.i, info := .peripheralUnresponsiveOrDesynchronized }]
              busy := false
              owner := none } }
      t = if s.cfg.hwFaultPolicy = .haltAll then (s1.close k .hwFault).halt else s1.close k .hwFault := by
  unfold State.hwFault at h
  split at h
  · simp at h
  · next k hk => exact ⟨k, hk, by simpa using h.symm⟩

/-- The end of a transfer (40_commands.md R127). -/
theorem State.shiftEnd_eq_next {s t : State} {k : Nat} {se : Session} (h : s.shiftEnd k se = .next t) :
    ∃ o bytes, se.tdoSlot = some o ∧ s.memRead o 0 (vectorBytes se.n) = .next bytes ∧
      t = State.emitThen k bytes (State.shiftRelease k) { s with g := { s.g with busy := false, owner := none } } := by
  unfold State.shiftEnd at h
  dsimp only at h
  split at h
  · simp at h
  · next o ho =>
    simp only [andThen_eq_next, Host.Outcome.next.injEq] at h
    obtain ⟨bytes, hb, rfl⟩ := h
    exact ⟨o, bytes, ho, hb, rfl⟩

/-- An engine step either is not enabled and does nothing, or is enabled for the owner and has its effect. -/
theorem State.engineStep_eq_next {s t : State} {e : EngineStep} (h : s.engineStep e = .next t) :
    t = s ∨ (s.engineAnswers = true ∧ ∃ k se, s.g.owner = some k ∧ s.sessions[k]? = some se ∧
      s.engineEnabled e se.n = true ∧ s.engineEffect e k se = .next t) := by
  unfold State.engineStep at h
  split at h
  · next ha =>
    split at h
    · simp at h
    · next k hk =>
      split at h
      · simp at h
      · next se hse =>
        split at h
        · next he => exact .inr ⟨ha, k, se, hk, hse, he, h⟩
        · exact .inl (by simpa using h.symm)
  · exact .inl (by simpa using h.symm)

/-- What a feed does. -/
theorem State.feed_eq_next {s t : State} {k : Nat} {se : Session} (h : s.feed k se = .next t) :
    ∃ x d a b, se.tmsSlot = some x ∧ se.tdiSlot = some d ∧ s.readWord x (vectorBytes se.n) s.e.inW = .next a ∧
      s.readWord d (vectorBytes se.n) s.e.inW = .next b ∧
      t = { s with e := { s.e with txfA := s.e.txfA ++ [a], txfB := s.e.txfB ++ [b], inW := s.e.inW + 1 } } := by
  unfold State.feed at h
  split at h
  · next x d hx hd =>
    simp only [andThen_eq_next, Host.Outcome.next.injEq] at h
    obtain ⟨a, ha, b, hb, rfl⟩ := h
    exact ⟨x, d, a, b, hx, hd, ha, hb, rfl⟩
  · simp at h

/-- What an enabled drain does. -/
theorem State.drain_eq_next {s t : State} {k : Nat} {se : Session} (h : s.drain k se = .next t) :
    (s.e.rxfB = [] ∧ t = s) ∨
      ∃ w q o, s.e.rxfB = w :: q ∧ se.tdoSlot = some o ∧
        t =
          { s with
            e := { s.e with rxfB := q, outW := s.e.outW + 1 }
            arena := s.arena.modify o fun sl =>
              { sl with
                bytes := Memory.writeAll sl.bytes (4 * s.e.outW) ((le32Bytes w).take (vectorBytes se.n - 4 * s.e.outW)) } } := by
  unfold State.drain at h
  split at h
  · next hq => exact .inl ⟨hq, by simpa using h.symm⟩
  · next w q hq =>
    split at h
    · simp at h
    · next o ho => exact .inr ⟨w, q, o, hq, ho, State.memWriteAll_eq_next _ _ _ _ _ h⟩

/-- What a bit step does to the pins and the target (41_shift_engine.md R142, R143). -/
theorem State.cycle_eq (s : State) (tms tdi : Bool) :
    s.cycle tms tdi =
      (s.tdoPin,
        { s with
          p := { tck := false, tms := tms, tdi := tdi, driven := s.p.driven ++ [(tms, tdi)] }
          target := targetNext s.cfg s.target tms tdi }) := rfl

theorem State.bitStep_eq (s : State) :
    s.bitStep =
      { s with
        p :=
          { tck := false, tms := s.e.pullA.pullB.osrA.getLsbD 0, tdi := s.e.pullA.pullB.osrB.getLsbD 0
            driven := s.p.driven ++ [(s.e.pullA.pullB.osrA.getLsbD 0, s.e.pullA.pullB.osrB.getLsbD 0)] }
        target := targetNext s.cfg s.target (s.e.pullA.pullB.osrA.getLsbD 0) (s.e.pullA.pullB.osrB.getLsbD 0)
        e := s.e.pullA.pullB.shiftBit s.tdoPin } := rfl

/-- What a software bit step does (41_shift_engine.md R163). -/
theorem State.swBitStep_eq_next {s t : State} {k : Nat} {se : Session} (h : s.swBitStep k se = .next t) :
    ∃ x d o a b old, se.tmsSlot = some x ∧ se.tdiSlot = some d ∧ se.tdoSlot = some o ∧
      s.memRead x (s.e.i / 8) 1 = .next a ∧ s.memRead d (s.e.i / 8) 1 = .next b ∧ s.memRead o (s.e.i / 8) 1 = .next old ∧
      t =
        { s with
          e := { s.e with i := s.e.i + 1 }
          p :=
            { tck := false, tms := vecBit a (s.e.i % 8), tdi := vecBit b (s.e.i % 8)
              driven := s.p.driven ++ [(vecBit a (s.e.i % 8), vecBit b (s.e.i % 8))] }
          target := targetNext s.cfg s.target (vecBit a (s.e.i % 8)) (vecBit b (s.e.i % 8))
          arena := s.arena.modify o fun sl =>
            { sl with bytes := sl.bytes.write (s.e.i / 8) (setBit (old.getD 0 0) (s.e.i % 8) s.tdoPin) } } := by
  unfold State.swBitStep at h
  split at h
  · next x d o hx hd ho =>
    simp only [andThen_eq_next, Host.Outcome.next.injEq, State.cycle_eq] at h
    obtain ⟨a, ha, b, hb, old, hold, u, hu, rfl⟩ := h
    obtain ⟨-, rfl⟩ := (State.memWrite_eq_next _ _ _ _ _).1 hu
    exact ⟨x, d, o, a, b, old, hx, hd, ho, ha, hb, hold, rfl⟩
  · simp at h

/-! ## One step -/

theorem step_eq_next {s t : State} :
    step s = .next t ↔ s.cfg.valid = true ∧ s.takeInput.perform s.nextInput = .next t := by
  unfold step
  split <;> simp_all

/-- Taking an input changes only where the next input comes from. -/
theorem State.takeInput_frame (s : State) :
    s.takeInput.cfg = s.cfg ∧ s.takeInput.g = s.g ∧ s.takeInput.sessions = s.sessions ∧ s.takeInput.arena = s.arena ∧
    s.takeInput.e = s.e ∧ s.takeInput.p = s.p ∧ s.takeInput.target = s.target := by
  unfold State.takeInput
  split <;> simp

/-- The session step of slot `k` (42_session.md R185, R198), by cases. -/
theorem State.sessionStep_eq_next {s t : State} {k : Nat} (h : s.sessionStep k = .next t) :
    t = s ∨ (s.loopFree = true ∧ ∃ se, s.sessions[k]? = some se ∧
      ((se.phase = .accepted ∧ t = s.init k) ∨
        (se.phase = .awaitingCommand ∧
          ((se.complete = true ∧ ∃ i, s.heldCommand k = .next i ∧ exec i s = .next t) ∨
            (se.complete = false ∧ se.rx ≠ [] ∧ s.decodeByte k = .next t) ∨
            (se.complete = false ∧ se.rx = [] ∧ se.eof = true ∧ t = s.endOfStream k se))))) := by
  unfold State.sessionStep at h
  split at h
  · exact .inl (by simpa using h.symm)
  · next se hse =>
    split at h
    · next hf =>
      split at h
      · exact .inl (by simpa using h.symm)
      · next hp => exact .inr ⟨hf, se, hse, .inl ⟨hp, by simpa using h.symm⟩⟩
      · next hp =>
        unfold State.awaitingStep at h
        split at h
        · next hc => exact .inr ⟨hf, se, hse, .inr ⟨hp, .inl ⟨hc, by simpa [State.dispatch, andThen_eq_next] using h⟩⟩⟩
        · next hc =>
          have hc : se.complete = false := by simpa using hc
          split at h
          · next hr => exact .inr ⟨hf, se, hse, .inr ⟨hp, .inr (.inl ⟨hc, by simpa using hr, h⟩)⟩⟩
          · next hr =>
            split at h
            · next he => exact .inr ⟨hf, se, hse, .inr ⟨hp, .inr (.inr ⟨hc, by simpa using hr, he, by simpa using h.symm⟩)⟩⟩
            · exact .inl (by simpa using h.symm)
      · exact .inl (by simpa using h.symm)
    · exact .inl (by simpa using h.symm)

end Sys2Proof.Machine
end

