-- ==== Sys2Proof/Laws/Effect.lean ====
section
/-! SUPPORT. Everything one input can do, as one inductive relation, and the lemma that a step stays inside it: an invariant
of the step is proved by cases on this relation. -/

namespace Sys2Proof.Machine

/-- The loop's latch before an input takes effect: the session served and the outcome of a reply write. -/
def State.latch (i : Input) (s : State) : State :=
  match i with
  | .serve k w => { s with serving := k, write := w }
  | .engine _ w => { s with write := w }
  | _ => s

theorem State.latch_frame (i : Input) (s : State) :
    (s.latch i).cfg = s.cfg ∧ (s.latch i).g = s.g ∧ (s.latch i).sessions = s.sessions ∧ (s.latch i).arena = s.arena ∧
    (s.latch i).e = s.e ∧ (s.latch i).p = s.p ∧ (s.latch i).target = s.target ∧ (s.latch i).inputs = s.inputs ∧
    (s.latch i).draws = s.draws := by
  cases i <;> simp [State.latch]

/-- What input `i` can do to the latched state: nothing, or one of the rules' effects, with what enables it. -/
inductive Effect : Input → State → State → Prop where
  | nothing (i : Input) (s : State) : Effect i s s
  | accepted (s : State) (k : Nat) (se : Session) (free : s.loopFree = true) (at_k : s.sessions[k]? = some se)
      (phase : se.phase = .closed) : Effect .accept s (s.acceptInto k)
  | arrived (s : State) (k : Nat) (bytes : List Byte) : Effect (.arrive k bytes) s (s.arrive k bytes)
  | ended (s : State) (k : Nat) : Effect (.eof k) s (s.peerEof k)
  | lost (s : State) (k : Nat) (se : Session) (at_k : s.sessions[k]? = some se) (phase : se.phase = .dispatching) :
      Effect (.peerReset k) s (s.mapSession k fun se => { se with gone := true })
  | peerClosed (s : State) (k : Nat) (se : Session) (at_k : s.sessions[k]? = some se)
      (phase : se.phase = .accepted ∨ se.phase = .awaitingCommand) (busy : s.g.busy = false) :
      Effect (.peerReset k) s (s.close k .peerReset)
  | expired (s : State) (k : Nat) (se : Session) (at_k : s.sessions[k]? = some se) (phase : se.phase = .awaitingCommand)
      (busy : s.g.busy = false) : Effect (.idle k) s (s.close k .idle)
  | moved (s : State) (x : TargetState) (busy : s.g.busy = false) : Effect (.targetMoves x) s { s with target := x }
  | faulted (s t : State) (tck tms tdi : Bool) (x : TargetState) (possible : s.faultPossible = true)
      (taken : s.hwFault tck tms tdi x = .next t) : Effect (.hwFault tck tms tdi x) s t
  | hung (s : State) (possible : s.faultPossible = true) : Effect .hang s { s with e := { s.e with hung := true } }
  | reset (s : State) (x : TargetState) : Effect (.blockReset x) s (s.blockReset x)
  | started (s : State) (k : Nat) (w : WriteOutcome) (se : Session) (free : s.loopFree = true)
      (at_k : s.sessions[k]? = some se) (phase : se.phase = .accepted) : Effect (.serve k w) s (s.init k)
  | executed (s t : State) (k : Nat) (w : WriteOutcome) (se : Session) (i : Instr) (free : s.loopFree = true)
      (at_k : s.sessions[k]? = some se) (phase : se.phase = .awaitingCommand) (complete : se.complete = true)
      (served : s.serving = k) (held : s.heldCommand k = .next i) (taken : exec i s = .next t) :
      Effect (.serve k w) s t
  | decoded (s t : State) (k : Nat) (w : WriteOutcome) (se : Session) (free : s.loopFree = true)
      (at_k : s.sessions[k]? = some se) (phase : se.phase = .awaitingCommand) (complete : se.complete = false)
      (rx : se.rx ≠ []) (taken : s.decodeByte k = .next t) : Effect (.serve k w) s t
  | streamEnded (s : State) (k : Nat) (w : WriteOutcome) (se : Session) (free : s.loopFree = true)
      (at_k : s.sessions[k]? = some se) (phase : se.phase = .awaitingCommand) (complete : se.complete = false)
      (rx : se.rx = []) (eof : se.eof = true) : Effect (.serve k w) s (s.endOfStream k se)
  | engine (s t : State) (e : EngineStep) (w : WriteOutcome) (k : Nat) (se : Session) (answers : s.engineAnswers = true)
      (owner : s.g.owner = some k) (at_k : s.sessions[k]? = some se) (enabled : s.engineEnabled e se.n = true)
      (taken : s.engineEffect e k se = .next t) : Effect (.engine e w) s t

/-- Every answer of `State.perform` is one of the effects. -/
theorem State.perform_effect {s t : State} {i : Input} (h : s.perform i = .next t) : Effect i (s.latch i) t := by
  cases i with
  | accept =>
    simp only [State.perform, Host.Outcome.next.injEq] at h
    subst h
    simp only [State.latch, State.accept]
    split
    · next hf =>
      split
      · exact .nothing _ _
      · next k hk =>
        obtain ⟨hlt, hc, -⟩ := List.findIdx?_eq_some_iff_getElem.1 hk
        exact .accepted s k s.sessions[k] hf (List.getElem?_eq_getElem hlt) (by simpa using hc)
    · exact .nothing _ _
  | arrive k bytes =>
    simp only [State.perform, Host.Outcome.next.injEq] at h
    exact h ▸ .arrived s k bytes
  | eof k =>
    simp only [State.perform, Host.Outcome.next.injEq] at h
    exact h ▸ .ended s k
  | peerReset k =>
    simp only [State.perform, Host.Outcome.next.injEq] at h
    subst h
    simp only [State.latch, State.peerReset]
    split
    · exact .nothing _ _
    · next se hse =>
      split
      · exact .nothing _ _
      · next hp => exact .lost s k se hse hp
      · next hp =>
        split
        · exact .nothing _ _
        · next hb => exact .peerClosed s k se hse (.inl hp) (by simpa using hb)
      · next hp =>
        split
        · exact .nothing _ _
        · next hb => exact .peerClosed s k se hse (.inr hp) (by simpa using hb)
  | idle k =>
    simp only [State.perform, Host.Outcome.next.injEq] at h
    subst h
    simp only [State.latch, State.idle]
    split
    · exact .nothing _ _
    · next se hse =>
      split
      · next hp => exact .expired s k se hse hp.1 hp.2
      · exact .nothing _ _
  | targetMoves x =>
    simp only [State.perform, Host.Outcome.next.injEq] at h
    subst h
    simp only [State.latch, State.targetMoves]
    split
    · exact .nothing _ _
    · next hb => exact .moved s x (by simpa using hb)
  | hwFault tck tms tdi x =>
    simp only [State.perform, State.drawFault] at h
    split at h
    · next hf => exact .faulted s t tck tms tdi x hf h
    · simp only [Host.Outcome.next.injEq] at h; exact h ▸ .nothing _ _
  | hang =>
    simp only [State.perform, Host.Outcome.next.injEq] at h
    subst h
    simp only [State.latch, State.hang]
    split
    · next hf => exact .hung s hf
    · exact .nothing _ _
  | blockReset x =>
    simp only [State.perform, Host.Outcome.next.injEq] at h
    exact h ▸ .reset s x
  | serve k w =>
    simp only [State.perform] at h
    rcases State.sessionStep_eq_next h with rfl | ⟨hf, se, hse, hc⟩
    · exact .nothing _ _
    · rcases hc with ⟨hp, rfl⟩ | ⟨hp, hc⟩
      · exact .started _ k w se hf hse hp
      · rcases hc with ⟨hc, i, hh, he⟩ | ⟨hc, hr, hd⟩ | ⟨hc, hr, he, rfl⟩
        · exact .executed _ t k w se i hf hse hp hc rfl hh he
        · exact .decoded _ t k w se hf hse hp hc hr hd
        · exact .streamEnded _ k w se hf hse hp hc hr he
  | engine e w =>
    simp only [State.perform] at h
    rcases State.engineStep_eq_next h with rfl | ⟨ha, k, se, hk, hse, he, ht⟩
    · exact .nothing _ _
    · exact .engine _ t e w k se ha hk hse he ht

/-- One step: the input is taken, the loop latches, and one effect follows. -/
theorem step_effect {s t : State} (h : step s = .next t) :
    s.cfg.valid = true ∧ Effect s.nextInput (s.takeInput.latch s.nextInput) t := by
  obtain ⟨hv, hp⟩ := step_eq_next.1 h
  exact ⟨hv, State.perform_effect hp⟩

/-- Taking an input and latching change no architectural register. -/
theorem State.latched_frame (s : State) (i : Input) :
    (s.takeInput.latch i).cfg = s.cfg ∧ (s.takeInput.latch i).g = s.g ∧ (s.takeInput.latch i).sessions = s.sessions ∧
    (s.takeInput.latch i).arena = s.arena ∧ (s.takeInput.latch i).e = s.e ∧ (s.takeInput.latch i).p = s.p ∧
    (s.takeInput.latch i).target = s.target := by
  obtain ⟨h1, h2, h3, h4, h5, h6, h7⟩ := s.takeInput_frame
  obtain ⟨l1, l2, l3, l4, l5, l6, l7, -, -⟩ := State.latch_frame i s.takeInput
  exact ⟨l1.trans h1, l2.trans h2, l3.trans h3, l4.trans h4, l5.trans h5, l6.trans h6, l7.trans h7⟩

end Sys2Proof.Machine
end

