-- ==== Sys2Proof/Laws/PerInstr.lean ====
section
/-! SUPPORT. A statement about every instruction as syntax, one lemma per constructor: how its encoding begins and how long
it is (30_encoding.md R85-R89, R102). -/

namespace Sys2Proof.Laws

/-- The length of a command's encoding (R87, R88, R89). -/
def encodingLength : Instr → Nat
  | .getinfo => 8
  | .settck _ => 11
  | .shift _ tms tdi => 10 + tms.length + tdi.length

/-- The encoding begins with the literal of the command's class, its first two bytes classify to that class, its header is as
long as the class says, and it has the length of its row. -/
def Encoding.Statement (i : Instr) : Prop :=
  (encode i).take i.kind.prefixLen = literal i.kind ∧ (encode i).length = encodingLength i ∧
  i.kind.hdrLen ≤ (encode i).length ∧
  ∃ b0 b1 rest, encode i = b0 :: b1 :: rest ∧ classify b0 b1 = some i.kind

theorem Encoding.getinfo : Encoding.Statement .getinfo :=
  ⟨rfl, rfl, by decide, _, _, _, rfl, by decide⟩

theorem Encoding.settck (period : Word) : Encoding.Statement (.settck period) :=
  ⟨rfl, rfl, Nat.le_refl 11, _, _, _, rfl, by simp [classify, Instr.kind]⟩

theorem Encoding.shift (bitCount : Word) (tms tdi : List Byte) : Encoding.Statement (.shift bitCount tms tdi) := by
  refine ⟨rfl, ?_, ?_, _, _, _, rfl, by simp [classify, Instr.kind]⟩
  · simp [encode, literal, le32Bytes, encodingLength]
    omega
  · simp [encode, literal, le32Bytes, Instr.kind, Kind.hdrLen]

end Sys2Proof.Laws
end

