-- ==== Sys2Proof/Laws/Registers.lean ====
section
/-! SUPPORT. The ways one input can change the parameters, the globals, the engine, the pins and the target (the registers
outside sessions and arena), as one inductive relation: an invariant over those registers is proved by cases on it. -/

namespace Sys2Proof.Machine

/-- What an execution does outside sessions and arena (40_commands.md R116, R121, R124). -/
theorem exec_registers {s t : State} {i : Instr} (h : exec i s = .next t) :
    t.cfg = s.cfg ∧ t.p = s.p ∧ t.target = s.target ∧ t.inputs = s.inputs ∧ t.draws = s.draws ∧
    ((t.e = s.e ∧
        (t.g = s.g ∨
          ∃ p, i = .settck p ∧ s.cfg.settckApplies = true ∧ t.g = { s.g with div := clampDiv s.cfg p })) ∨
      (∃ n tms tdi, i = .shift n tms tdi ∧ s.g.backendValid = true ∧
        t.g = { s.g with busy := true, owner := some s.serving } ∧
        ((s.g.engine = .hw ∧ t.e = ((s.hwSetup n).hwStart).e) ∨ (s.g.engine = .sw ∧ t.e = { s.e with i := 0 })))) := by
  cases i with
  | getinfo =>
    simp only [exec, execGetInfo] at h
    split at h
    · simp at h
    · simp only [Host.Outcome.next.injEq] at h
      have hs := OnlyStorage.emitThen s s.serving (getInfoReply s.cfg) (State.restart s.serving)
        fun s => OnlyStorage.mapSession _ _ _
      rw [h] at hs
      exact ⟨hs.cfg, hs.p, hs.target, hs.inputs, hs.draws, .inl ⟨hs.e, .inl hs.g⟩⟩
  | settck p =>
    simp only [exec, execSetTck] at h
    split at h
    · simp at h
    · simp only [Host.Outcome.next.injEq] at h
      have hs := OnlyStorage.emitThen (s.setDivisor p) s.serving (le32Bytes p) (State.restart s.serving)
        fun s => OnlyStorage.mapSession _ _ _
      rw [h] at hs
      unfold State.setDivisor at hs
      split at hs
      · next ha => exact ⟨hs.cfg, hs.p, hs.target, hs.inputs, hs.draws, .inl ⟨hs.e, .inr ⟨p, rfl, ha, hs.g⟩⟩⟩
      · exact ⟨hs.cfg, hs.p, hs.target, hs.inputs, hs.draws, .inl ⟨hs.e, .inl hs.g⟩⟩
  | shift n tms tdi =>
    obtain ⟨se, hse, hc⟩ := execShift_eq_next h
    rcases hc with ⟨hb, rfl⟩ | ⟨hb, hno, rfl⟩ | ⟨hb, hh, o, sl, hsl, ho, hlow, rfl⟩
    · exact ⟨by simp, by simp, by simp, by simp, by simp, .inl ⟨by simp, .inl (by simp)⟩⟩
    · exact ⟨by simp, by simp, by simp, by simp, by simp, .inl ⟨by simp, .inl (by simp)⟩⟩
    · unfold State.transferStart
      cases hE : s.g.engine
      · simp only [hE]
        exact ⟨rfl, rfl, rfl, rfl, rfl, .inr ⟨n, tms, tdi, rfl, hb, by rw [← hE]; rfl, .inl ⟨trivial, rfl⟩⟩⟩
      · simp only [hE]
        exact ⟨rfl, rfl, rfl, rfl, rfl, .inr ⟨n, tms, tdi, rfl, hb, by rw [← hE]; rfl, .inr ⟨trivial, rfl⟩⟩⟩

/-- Outside sessions and arena the end of a transfer only frees the engine (40_commands.md R127). -/
theorem State.shiftEnd_registers {s t : State} {k : Nat} {se : Session} (h : s.shiftEnd k se = .next t) :
    OnlyStorage { s with g := { s.g with busy := false, owner := none } } t := by
  obtain ⟨o, bytes, -, -, rfl⟩ := State.shiftEnd_eq_next h
  exact OnlyStorage.emitThen _ _ _ _ fun s => OnlyStorage.shiftRelease s k

theorem State.endOfStream_registers (s : State) (k : Nat) (se : Session) : OnlyStorage s (s.endOfStream k se) := by
  unfold State.endOfStream
  split <;> exact OnlyStorage.close _ _ _

/-- The globals after a hardware fault of owner `k`; `halts` says whether the policy halted the block (60_exceptions.md R219,
R221). -/
def Globals.faulted (g : Globals) (k i : Nat) (halts : Bool) : Globals :=
  { g with
    backendValid := false
    faultLog := g.faultLog ++ [{ session := k, bitIndex := i, info := .peripheralUnresponsiveOrDesynchronized }]
    busy := false
    halted := g.halted || halts
    owner := none }

/-- Outside sessions and arena a hardware fault does this (60_exceptions.md R219, R221). -/
theorem State.hwFault_registers {s t : State} {tck tms tdi : Bool} {x : TargetState}
    (h : s.hwFault tck tms tdi x = .next t) :
    ∃ k halts, s.g.owner = some k ∧ (halts = true ↔ s.cfg.hwFaultPolicy = .haltAll) ∧
      OnlyStorage
        { s with
          e := { s.e with runA := false, runB := false, txfA := [], txfB := [], rxfB := [] }
          p := { s.p with tck := tck, tms := tms, tdi := tdi }
          target := x
          g := s.g.faulted k s.e.i halts } t := by
  obtain ⟨k, hk, ht⟩ := State.hwFault_eq_next h
  dsimp only at ht
  split at ht
  · next hp =>
    refine ⟨k, true, hk, by simp [hp], ?_⟩
    subst ht
    refine OnlyStorage.trans ?_ (State.halt_frame _)
    have := OnlyStorage.close
      { s with
        e := { s.e with runA := false, runB := false, txfA := [], txfB := [], rxfB := [] }
        p := { s.p with tck := tck, tms := tms, tdi := tdi }
        target := x
        g :=
          { s.g with
            backendValid := false
            faultLog :=
              s.g.faultLog ++ [{ session := k, bitIndex := s.e.i, info := .peripheralUnresponsiveOrDesynchronized }]
            busy := false
            owner := none } } k .hwFault
    exact ⟨this.cfg, by simp [Globals.faulted], this.e, this.p, this.target, this.serving, this.write, this.inputs,
      this.draws⟩
  · next hp =>
    refine ⟨k, false, hk, by simp [hp], ?_⟩
    subst ht
    simp only [Globals.faulted, Bool.or_false]
    exact OnlyStorage.close _ _ _

/-- What input `i` can do to the registers outside sessions and arena. -/
inductive RegisterEffect (s t : State) : Input → Prop where
  | same (i : Input) (cfg : t.cfg = s.cfg) (g : t.g = s.g) (e : t.e = s.e) (p : t.p = s.p)
      (target : t.target = s.target ∨ ∃ x, i = .targetMoves x) : RegisterEffect s t i
  | divisor (k : Nat) (w : WriteOutcome) (period : Word) (free : s.loopFree = true)
      (held : s.heldCommand k = .next (.settck period)) (applies : s.cfg.settckApplies = true) (cfg : t.cfg = s.cfg)
      (g : t.g = { s.g with div := clampDiv s.cfg period }) (e : t.e = s.e) (p : t.p = s.p)
      (target : t.target = s.target) : RegisterEffect s t (.serve k w)
  | hwStart (k : Nat) (w : WriteOutcome) (n : Word) (free : s.loopFree = true) (valid : s.g.backendValid = true)
      (kind : s.g.engine = .hw) (cfg : t.cfg = s.cfg) (g : t.g = { s.g with busy := true, owner := some k })
      (e : t.e = ((s.hwSetup n).hwStart).e) (p : t.p = s.p) (target : t.target = s.target) :
      RegisterEffect s t (.serve k w)
  | swStart (k : Nat) (w : WriteOutcome) (free : s.loopFree = true) (valid : s.g.backendValid = true)
      (kind : s.g.engine = .sw) (cfg : t.cfg = s.cfg) (g : t.g = { s.g with busy := true, owner := some k })
      (e : t.e = { s.e with i := 0 }) (p : t.p = s.p) (target : t.target = s.target) : RegisterEffect s t (.serve k w)
  | fault (tck tms tdi : Bool) (x : TargetState) (k : Nat) (halts : Bool) (possible : s.faultPossible = true)
      (owner : s.g.owner = some k) (policy : halts = true ↔ s.cfg.hwFaultPolicy = .haltAll) (cfg : t.cfg = s.cfg)
      (g : t.g = s.g.faulted k s.e.i halts)
      (e : t.e = { s.e with runA := false, runB := false, txfA := [], txfB := [], rxfB := [] })
      (p : t.p = { s.p with tck := tck, tms := tms, tdi := tdi }) (target : t.target = x) :
      RegisterEffect s t (.hwFault tck tms tdi x)
  | hang (possible : s.faultPossible = true) (cfg : t.cfg = s.cfg) (g : t.g = s.g) (e : t.e = { s.e with hung := true })
      (p : t.p = s.p) (target : t.target = s.target) : RegisterEffect s t .hang
  | reset (x : TargetState) (state : t = s.blockReset x) : RegisterEffect s t (.blockReset x)
  | feed (w : WriteOutcome) (n a b : Word) (answers : s.engineAnswers = true) (enabled : s.feedEnabled n = true)
      (cfg : t.cfg = s.cfg) (g : t.g = s.g)
      (e : t.e = { s.e with txfA := s.e.txfA ++ [a], txfB := s.e.txfB ++ [b], inW := s.e.inW + 1 }) (p : t.p = s.p)
      (target : t.target = s.target) : RegisterEffect s t (.engine .feed w)
  | drain (w : WriteOutcome) (a : Word) (q : List Word) (answers : s.engineAnswers = true) (queue : s.e.rxfB = a :: q)
      (cfg : t.cfg = s.cfg) (g : t.g = s.g) (e : t.e = { s.e with rxfB := q, outW := s.e.outW + 1 }) (p : t.p = s.p)
      (target : t.target = s.target) : RegisterEffect s t (.engine .drain w)
  | bitStep (w : WriteOutcome) (answers : s.engineAnswers = true) (enabled : s.bitStepEnabled = true)
      (cfg : t.cfg = s.cfg) (g : t.g = s.g) (e : t.e = s.e.pullA.pullB.shiftBit s.tdoPin) (p : t.p = s.bitStep.p)
      (target : t.target = s.bitStep.target) : RegisterEffect s t (.engine .bitStep w)
  | rxPush (w : WriteOutcome) (answers : s.engineAnswers = true) (enabled : s.rxPushEnabled = true) (cfg : t.cfg = s.cfg)
      (g : t.g = s.g) (e : t.e = { s.e with rxfB := s.e.rxfB ++ [s.e.isrB], isrB := 0, isrcB := 0 }) (p : t.p = s.p)
      (target : t.target = s.target) : RegisterEffect s t (.engine .rxPush w)
  | hwEnd (w : WriteOutcome) (n : Word) (answers : s.engineAnswers = true) (enabled : s.hwEndEnabled n = true)
      (cfg : t.cfg = s.cfg) (g : t.g = { s.g with busy := false, owner := none })
      (e : t.e = { s.e with runA := false, runB := false, osrcA := 0, osrcB := 0 }) (p : t.p = s.p)
      (target : t.target = s.target) : RegisterEffect s t (.engine .hwEnd w)
  | swBitStep (w : WriteOutcome) (n : Word) (tms tdi : Bool) (answers : s.engineAnswers = true)
      (enabled : s.swBitStepEnabled n = true) (cfg : t.cfg = s.cfg) (g : t.g = s.g) (e : t.e = { s.e with i := s.e.i + 1 })
      (p : t.p = { tck := false, tms := tms, tdi := tdi, driven := s.p.driven ++ [(tms, tdi)] })
      (target : t.target = targetNext s.cfg s.target tms tdi) : RegisterEffect s t (.engine .swBitStep w)
  | swEnd (w : WriteOutcome) (n : Word) (answers : s.engineAnswers = true) (enabled : s.swEndEnabled n = true)
      (cfg : t.cfg = s.cfg) (g : t.g = { s.g with busy := false, owner := none }) (e : t.e = s.e) (p : t.p = s.p)
      (target : t.target = s.target) : RegisterEffect s t (.engine .swEnd w)

theorem OnlyStorage.registers {s t : State} {i : Input} (h : OnlyStorage s t) : RegisterEffect s t i :=
  .same i h.cfg h.g h.e h.p (.inl h.target)

/-- Every effect of an input is one of these outside sessions and arena. -/
theorem Effect.registers {s t : State} {i : Input} (h : Effect i s t) : RegisterEffect s t i := by
  cases h with
  | nothing => exact .same i rfl rfl rfl rfl (.inl rfl)
  | accepted => exact .same _ rfl rfl rfl rfl (.inl rfl)
  | arrived => exact .same _ rfl rfl rfl rfl (.inl rfl)
  | ended => exact .same _ rfl rfl rfl rfl (.inl rfl)
  | lost => exact .same _ rfl rfl rfl rfl (.inl rfl)
  | peerClosed => exact (OnlyStorage.close _ _ _).registers
  | expired => exact (OnlyStorage.close _ _ _).registers
  | moved _ x => exact .same _ rfl rfl rfl rfl (.inr ⟨x, rfl⟩)
  | faulted _ _ tck tms tdi x possible taken =>
    obtain ⟨k, halts, hk, hp, ho⟩ := State.hwFault_registers taken
    exact .fault tck tms tdi x k halts possible hk hp ho.cfg ho.g ho.e ho.p ho.target
  | hung _ possible => exact .hang possible rfl rfl rfl rfl rfl
  | reset _ x => exact .reset x rfl
  | started => exact .same _ rfl rfl rfl rfl (.inl rfl)
  | executed _ _ k w se i free at_k phase complete served held taken =>
    obtain ⟨h1, h2, h3, -, -, h4⟩ := exec_registers taken
    rcases h4 with ⟨he, hg | ⟨p, rfl, ha, hg⟩⟩ | ⟨n, tms, tdi, rfl, hb, hg, ⟨hE, he⟩ | ⟨hE, he⟩⟩
    · exact .same _ h1 hg he h2 (.inl h3)
    · exact .divisor k w p free held ha h1 hg he h2 h3
    · exact .hwStart k w n free hb hE h1 (by rw [hg, served]) he h2 h3
    · exact .swStart k w free hb hE h1 (by rw [hg, served]) he h2 h3
  | decoded _ _ k w se free at_k phase complete rx taken => exact (OnlyStorage.decodeByte taken).registers
  | streamEnded => exact (State.endOfStream_registers _ _ _).registers
  | engine _ _ e w k se answers owner at_k enabled taken =>
    cases e with
    | feed =>
      obtain ⟨x, d, a, b, -, -, -, -, rfl⟩ := State.feed_eq_next taken
      exact .feed w _ a b answers enabled rfl rfl rfl rfl rfl
    | drain =>
      rcases State.drain_eq_next taken with ⟨h, rfl⟩ | ⟨x, q, o, hq, ho, rfl⟩
      · exact .same _ rfl rfl rfl rfl (.inl rfl)
      · exact .drain w x q answers hq rfl rfl rfl rfl rfl
    | bitStep =>
      simp only [State.engineEffect, Host.Outcome.next.injEq] at taken
      subst taken
      exact .bitStep w answers enabled rfl rfl rfl rfl rfl
    | rxPush =>
      simp only [State.engineEffect, Host.Outcome.next.injEq] at taken
      subst taken
      exact .rxPush w answers enabled rfl rfl rfl rfl rfl
    | hwEnd =>
      have ho := State.shiftEnd_registers taken
      exact .hwEnd w _ answers enabled ho.cfg ho.g ho.e ho.p ho.target
    | swBitStep =>
      obtain ⟨x, d, o, a, b, old, -, -, -, -, -, -, rfl⟩ := State.swBitStep_eq_next taken
      exact .swBitStep w _ _ _ answers enabled rfl rfl rfl rfl rfl
    | swEnd =>
      have ho := State.shiftEnd_registers taken
      exact .swEnd w _ answers enabled ho.cfg ho.g ho.e ho.p ho.target

end Sys2Proof.Machine
end

