-- ==== Sys2Proof/Tests/Slice0.lean ====
section
/-! SUPPORT. The model's own tests: the well-formedness smoke test, words decoded by hand from the spec's encodings, at most
two one-step tests per command and a few vectors of 95_test_vectors.md, and a witness for every obligation with hypotheses. -/

namespace Sys2Proof.Tests

open Sys2Proof Sys2Proof.Machine

/-! ## Small states -/

/-- A reply write that succeeds. -/
def ok : WriteOutcome := { ok := true, delivered := 0 }

/-- A reply write that fails after one byte. -/
def failed : WriteOutcome := { ok := false, delivered := 1 }

/-- Small parameters: 16 bits, three arena slots, two sessions, queues of one word, the loopback target. -/
def mini : Config := { Config.vectors with maxBits := 16, arenaSlots := 3, qdepth := 1, target := .loopback }

/-- The same on the software variant. -/
def miniSw : Config := { mini with engineKind := .sw }

/-- The state of an answer; a reset state where there is none (the tests ask whether there is one). -/
def stateOf (r : Res State) : State :=
  match r with
  | .next s => s
  | .fault _ => State.resetWith mini 0
  | .refused _ => State.resetWith mini 0

/-- Did the operation answer `a`? -/
def isNext {α : Type} [DecidableEq α] (r : Res α) (a : α) : Bool :=
  match r with
  | .next b => decide (b = a)
  | .fault _ => false
  | .refused _ => false

theorem eq_next {α : Type} [DecidableEq α] {r : Res α} {a : α} (h : isNext r a = true) : r = .next a := by
  cases r <;> simp_all [isNext]

/-- `s` after some inputs. -/
def after (is : List Input) (s : State) : State := stateOf (State.performAll is s)

/-- Session 0 of a fresh block, awaiting a command, with these bytes received and unread. -/
def sending (c : Config) (bytes : List Byte) : State :=
  after [.accept, .serve 0 ok, .arrive 0 bytes] (State.resetWith c 0)

/-- Session 0 after the decoder has taken the first `n` of these bytes. -/
def decoded (c : Config) (n : Nat) (bytes : List Byte) : State :=
  after (List.replicate n (.serve 0 ok)) (sending c bytes)

/-- Session 0 holding the complete command `i`. -/
def holding (c : Config) (i : Instr) : State := decoded c (encode i).length (encode i)

/-- The SHIFT of the tests: nine bits (V-S7). -/
def shift9 : Instr := .shift 9 [0x03, 0x00] [0xFF, 0x01]

/-- The SHIFT of the tests in flight. -/
def shifting (c : Config) : State := after [.serve 0 ok] (holding c shift9)

/-- A schedule of `shift9` with queues of one word. -/
def schedule9 : List EngineStep := .feed :: (List.replicate 9 .bitStep ++ [.rxPush, .drain, .hwEnd])

/-- The schedule of `shift9` on the software variant. -/
def schedule9Sw : List EngineStep := List.replicate 9 .swBitStep ++ [.swEnd]

/-- A session of a state; only read where it exists. -/
def session (s : State) (k : Nat) : Session := s.sessions.getD k Session.reset

/-- An arena slot of a state; only read where it exists. -/
def slot (s : State) (a : Nat) : Slot := s.arena.getD a { owner := none, bytes := [] }

/-! ## Well-formedness: one ill-formed command for each check (30_encoding.md R98, R102) -/

theorem test_wf_shift : shift9.wf mini = true := by decide

theorem test_wf_smoke_count_zero : (Instr.shift 0 [] []).wf mini = false := by decide

theorem test_wf_smoke_count_over : (Instr.shift 17 [0, 0, 0] [0, 0, 0]).wf mini = false := by decide

theorem test_wf_smoke_tms_length : (Instr.shift 9 [0] [0, 0]).wf mini = false := by decide

theorem test_wf_smoke_tdi_length : (Instr.shift 9 [0, 0] [0, 0, 0]).wf mini = false := by decide

/-! ## Decoding words written out from R87, R88, R89 -/

theorem test_decode_getinfo :
    decode mini [0x67, 0x65, 0x74, 0x69, 0x6E, 0x66, 0x6F, 0x3A, 0x99] = .done .getinfo [0x99] := by decide

theorem test_decode_settck :
    decode mini [0x73, 0x65, 0x74, 0x74, 0x63, 0x6B, 0x3A, 0xE8, 0x03, 0x00, 0x00] = .done (.settck 1000) [] := by decide

/-- V-S7, and V-D9 with its count of 0. -/
theorem test_decode_shift :
    decode mini [0x73, 0x68, 0x69, 0x66, 0x74, 0x3A, 0x09, 0x00, 0x00, 0x00, 0x03, 0x00, 0xFF, 0x01] = .done shift9 [] ∧
    decode mini [0x73, 0x68, 0x69, 0x66, 0x74, 0x3A, 0x00, 0x00, 0x00, 0x00] = .reject .lenZero := by decide

/-- V-D1, V-D2, V-D3; V-D4 and V-D5 need more input. -/
theorem test_decode_bad_prefix :
    decode mini [0x68, 0x65] = .reject .badPrefix ∧ decode mini [0x47, 0x45, 0x54] = .reject .badPrefix ∧
    decode mini [0x73, 0x78] = .reject .badPrefix ∧ decode mini [0x67] = .more ∧
    decode mini [0x67, 0x65, 0x74, 0x69, 0x6E, 0x66, 0x6F] = .more := by decide

/-- V-D7 and V-D8. -/
theorem test_decode_prefix_tail :
    decode mini [0x67, 0x65, 0x78, 0x78, 0x78, 0x78, 0x78, 0x78] = .done .getinfo [] ∧
    decode { mini with checkFullPrefix := true } [0x67, 0x65, 0x78] = .reject .prefixTail := by decide

/-- V-D10 and V-D11, at the vectors' MAX_BITS. -/
theorem test_decode_len_over :
    decode Config.vectors [0x73, 0x68, 0x69, 0x66, 0x74, 0x3A, 0x01, 0x30, 0x00, 0x00] = .reject .lenOver ∧
    decode Config.vectors [0x73, 0x68, 0x69, 0x66, 0x74, 0x3A, 0xFF, 0xFF, 0xFF, 0xFF] = .reject .lenOver := by decide +kernel

/-- The opcode table's words (R100): the SHIFT row's word has a count of 0 (log 12). -/
theorem test_table_words :
    decodeTableWord 16 0x6765 = some .getinfo ∧ decodeTableWord 16 0x7365 = some (.settck 0) ∧
    decodeTableWord 16 0x7368 = none := by decide +kernel

/-! ## One step of each command -/

/-- X1 at the vectors' MAX_BITS: the 21 bytes. -/
theorem test_getinfo_reply :
    getInfoReply Config.vectors =
      [0x78, 0x76, 0x63, 0x53, 0x65, 0x72, 0x76, 0x65, 0x72, 0x5F, 0x76, 0x31, 0x2E, 0x30, 0x3A, 0x31, 0x32, 0x32, 0x38,
        0x38, 0x0A] := by decide +kernel

/-- X1 on the machine, with MAX_BITS = 16 and an invalid backend. -/
theorem test_getinfo_step :
    let s := holding mini .getinfo
    let t := after [.serve 0 ok] { s with g := { s.g with backendValid := false } }
    (session t 0).tx =
      [0x78, 0x76, 0x63, 0x53, 0x65, 0x72, 0x76, 0x65, 0x72, 0x5F, 0x76, 0x31, 0x2E, 0x30, 0x3A, 0x31, 0x36, 0x0A] ∧
    (session t 0).phase = .awaitingCommand := by decide +kernel

/-- V-T1 to V-T9 and V-T5 with SETTCK_APPLIES false. -/
theorem test_clamp_div :
    [0, 1, 40, 41, 100, 1000, 2621440, 2621441, 4294967295].map (clampDiv Config.vectors) =
      [1, 1, 1, 2, 3, 25, 65536, 65536, 65536] := by decide +kernel

/-- V-T5 and its last column. -/
theorem test_settck_step :
    let t := after [.serve 0 ok] (holding mini (.settck 100))
    let u := after [.serve 0 ok] (holding { mini with settckApplies := false } (.settck 100))
    (session t 0).tx = [0x64, 0x00, 0x00, 0x00] ∧ t.g.div = 3 ∧ (session u 0).tx = [0x64, 0x00, 0x00, 0x00] ∧
    u.g.div = 4 := by decide +kernel

/-- V-S7 on the hardware variant, one schedule, and on the software variant. -/
theorem test_shift_reply :
    let t := after (engineInputs schedule9) (shifting mini)
    let u := after (engineInputs schedule9Sw) (shifting miniSw)
    (session t 0).tx = [0xFE, 0x01] ∧ (session u 0).tx = [0xFE, 0x01] ∧ t.target = 1 ∧
    (t.p.tck, t.p.tms, t.p.tdi) = (false, false, true) ∧ t.g.busy = false := by decide +kernel

/-- V-F3: with an invalid backend a SHIFT closes without a reply. -/
theorem test_shift_invalid_backend :
    let s := holding mini shift9
    let t := after [.serve 0 ok] { s with g := { s.g with backendValid := false } }
    (session t 0).reason = some .backendInvalid ∧ (session t 0).tx = [] ∧ t.p.driven = [] ∧
    (slot t 2).owner = none := by decide +kernel

/-! ## Events and faults of 95_test_vectors.md -/

/-- V-F2 and V-F4: the hardware fault, with either policy. -/
theorem test_hw_fault :
    let t := after [.hwFault true true false 7] (shifting mini)
    let u := after [.hwFault true true false 7] (shifting { mini with hwFaultPolicy := .haltAll })
    (session t 0).reason = some .hwFault ∧ t.g.backendValid = false ∧ t.g.busy = false ∧ t.target = 7 ∧
    t.g.faultLog = [{ session := 0, bitIndex := 0, info := .peripheralUnresponsiveOrDesynchronized }] ∧
    u.g.halted = true := by decide +kernel

/-- V-F7: the peer resets during its own transfer. -/
theorem test_peer_reset_in_transfer :
    let t := after (.peerReset 0 :: engineInputs schedule9) (shifting mini)
    (session t 0).reason = some .write ∧ t.p.driven.length = 9 ∧ (session t 0).tx = [] := by decide +kernel

/-- V-F8 and V-D6: idle expiry, and a close between commands. -/
theorem test_idle_and_eof :
    (session (after [.idle 0] (decoded mini 5 (encode (.settck 100)))) 0).reason = some .idle ∧
    (session (after [.eof 0, .serve 0 ok] (sending mini [])) 0).reason = some .peerClosed := by decide +kernel

/-- V-R1, and the first step after a fetch runs the command fetched (log 13). -/
theorem test_fetch :
    (session (stateOf (step (State.reset.withFetchWord 16 0x6765))) 0).tx = getInfoReply Config.vectors ∧
    (stateOf (step (State.reset.withFetchWord 16 0x7365))).g.div = 1 ∧
    (session (stateOf (step (State.reset.withFetchWord 16 0x7368))) 0).reason = some .lenZero := by decide +kernel

/-! ## Checks of the invariants on a concrete state, for the witnesses -/

/-- `Session.positionOk` as a check. -/
def positionCheck (c : Config) (se : Session) : Bool :=
  match se.kind with
  | none => decide (se.hlen ≤ 1 ∧ se.plen = 0 ∧ se.tmsSlot = none ∧ se.tdiSlot = none)
  | some kind =>
    decide (2 ≤ se.hlen ∧ se.hlen ≤ kind.hdrLen ∧ classify se.hdr[0] se.hdr[1] = some kind) &&
    if kind = .shift ∧ se.hlen = 10 then
      decide (se.n = countOf se.hdr ∧ 1 ≤ se.n.toNat ∧ se.n.toNat ≤ c.maxBits ∧ se.plen ≤ 2 * vectorBytes se.n ∧
        se.tmsSlot.isSome = true ∧ se.tdiSlot.isSome = true)
    else decide (se.plen = 0 ∧ se.tmsSlot = none ∧ se.tdiSlot = none)

theorem positionOk_of_check {c : Config} {se : Session} (h : positionCheck c se = true) : Session.positionOk c se := by
  unfold positionCheck at h
  unfold Session.positionOk
  cases hk : se.kind with
  | none => simpa [hk] using h
  | some kind =>
    simp only [hk, Bool.and_eq_true, decide_eq_true_eq] at h ⊢
    refine ⟨h.1.1, h.1.2.1, h.1.2.2, ?_⟩
    split
    · next hc => simpa [hc] using h.2
    · next hc => simpa [hc] using h.2

/-- `Session.phaseOk` as a check. -/
def phaseCheck (se : Session) : Bool :=
  match se.phase with
  | .closed => decide (se.kind = none ∧ se.hlen = 0 ∧ se.rx = [] ∧ se.tdoSlot = none)
  | .accepted => decide (se.kind = none ∧ se.hlen = 0 ∧ se.tdoSlot = none)
  | .awaitingCommand => decide (se.tdoSlot = none)
  | .dispatching => decide (se.kind = some .shift ∧ se.complete = true ∧ se.tdoSlot.isSome = true)

theorem phaseOk_of_check {se : Session} (h : phaseCheck se = true) : Session.phaseOk se := by
  unfold phaseCheck at h
  unfold Session.phaseOk
  cases hp : se.phase <;> simpa [hp] using h

theorem sessionsOk_of_check {s : State} (h : (s.sessions.all fun se => positionCheck s.cfg se && phaseCheck se) = true) :
    s.SessionsOk := by
  intro k se hk
  have hm := List.all_eq_true.1 h se (List.mem_of_getElem? hk)
  simp only [Bool.and_eq_true] at hm
  exact ⟨positionOk_of_check hm.1, phaseOk_of_check hm.2⟩

/-- `State.Ownership` as a check. -/
def ownershipCheck (s : State) : Bool :=
  ((List.range s.arena.length).all fun a =>
    match (slot s a).owner with
    | none => true
    | some (k, r) => decide ((s.sessions[k]?.bind fun se => se.slotOf r) = some a)) &&
  (List.range s.sessions.length).all fun k =>
    [Role.tms, .tdi, .tdo].all fun r =>
      match (session s k).slotOf r with
      | none => true
      | some a => decide ((s.arena[a]?.bind Slot.owner) = some (k, r))

theorem ownership_of_check {s : State} (h : ownershipCheck s = true) : s.Ownership := by
  simp only [ownershipCheck, Bool.and_eq_true, List.all_eq_true, List.mem_range] at h
  obtain ⟨h1, h2⟩ := h
  intro a k r
  constructor
  · rintro ⟨sl, hsl, ho⟩
    have ha := (List.getElem?_eq_some_iff.1 hsl).1
    have hs : slot s a = sl := by simp [slot, hsl]
    have h3 := h1 a ha
    rw [hs, ho] at h3
    simpa [Option.bind_eq_some_iff] using h3
  · rintro ⟨se, hse, ho⟩
    have hk := (List.getElem?_eq_some_iff.1 hse).1
    have hs : session s k = se := by simp [session, hse]
    have h3 := h2 k hk r (by cases r <;> simp)
    rw [hs, ho] at h3
    simpa [Option.bind_eq_some_iff] using h3

/-- Single flight of a busy state, as a check on its owner. -/
theorem singleFlight_of_busy {s : State} (k : Nat) (hb : s.g.busy = true) (ho : s.g.owner = some k)
    (hk : (s.sessions[k]?.map Session.phase) = some .dispatching)
    (h : ((List.range s.sessions.length).all fun j => decide ((session s j).phase = .dispatching → j = k)) = true) :
    s.SingleFlight := by
  refine ⟨fun hf => by simp [hb] at hf, fun _ => ⟨k, ho, by simpa using hk, fun j sj hj hp => ?_⟩⟩
  have hlt := (List.getElem?_eq_some_iff.1 hj).1
  have h1 := List.all_eq_true.1 h j (List.mem_range.2 hlt)
  have hs : session s j = sj := by simp [session, hj]
  rw [hs] at h1
  exact of_decide_eq_true h1 hp

/-- Every slot below `a` is owned. -/
theorem lowest_of_check {s : State} {a : Nat}
    (h : ((List.range a).all fun b => (s.arena[b]?.all fun sl => sl.owner.isSome)) = true) :
    ∀ (b : Nat) (sb : Slot), b < a → s.arena[b]? = some sb → sb.owner ≠ none := by
  intro b sb hb hs
  have h1 := List.all_eq_true.1 h b (List.mem_range.2 hb)
  rw [hs] at h1
  intro hn
  simp [hn] at h1

/-- A run of enabled engine steps, as a check. -/
def runCheck : List EngineStep → State → State → Bool
  | [], s, t => decide (s = t)
  | e :: es, s, t =>
    s.engineStepEnabled e && isNext (s.perform (.engine e ok)) (stateOf (s.perform (.engine e ok))) &&
      runCheck es (stateOf (s.perform (.engine e ok))) t

theorem engineRun_of_check {es : List EngineStep} {s t : State} (h : runCheck es s t = true) : EngineRun es s t := by
  induction es generalizing s with
  | nil =>
    simp only [runCheck, decide_eq_true_eq] at h
    exact h ▸ .nil s
  | cons e es ih =>
    simp only [runCheck, Bool.and_eq_true] at h
    exact .cons h.1.1 (eq_next h.1.2) (ih h.2)

/-- The SHIFT in flight satisfies the whole invariant. -/
theorem shifting_inv : (shifting mini).Inv where
  config := by decide +kernel
  shape := by unfold State.Shape; decide +kernel
  divisor := by unfold State.DivisorLegal; decide +kernel
  memory := by unfold State.MemoryCanonical; decide +kernel
  lockStep := by unfold State.LockStep; decide +kernel
  bounds := by unfold State.EngineBounds; decide +kernel
  flight := singleFlight_of_busy 0 (by decide +kernel) (by decide +kernel) (by decide +kernel) (by decide +kernel)
  halt := by unfold State.HaltedClosed; decide +kernel
  sessions := sessionsOk_of_check (by decide +kernel)
  owned := ownership_of_check (by decide +kernel)
  clock := by unfold State.ClockLow; decide +kernel

/-! ## Witnesses: for each obligation with hypotheses, a state and operands that meet them together -/

/-- A state about to take `i` as its next input. -/
def taking (i : Input) (s : State) : State := { s with inputs := [i] }

theorem witness_DecodeInvertsEncode :
    (Instr.shift 1 [0xFF] [0xFF]).wf mini = true ∧ (Instr.shift 16 [0, 0] [0, 0]).wf mini = true ∧
    (Instr.settck 0xFFFFFFFF).wf mini = true := by decide

theorem witness_DecodedCommandIsWellFormed :
    decode { mini with checkFullPrefix := true } (encode shift9 ++ [0x67]) = .done shift9 [0x67] ∧
    decode mini [0x73, 0x65, 0, 0, 0, 0, 0, 1, 0, 0, 0] = .done (.settck 1) [] := by decide

theorem witness_OnlyTheNamedEncodingsAreIllegal :
    (∃ b0 b1 : Byte, ¬(b0 = 0x67 ∧ b1 = 0x65) ∧ ¬(b0 = 0x73 ∧ b1 = 0x65) ∧ ¬(b0 = 0x73 ∧ b1 = 0x68)) ∧
    (le32 0 0 0 0).toNat = 0 ∧ mini.maxBits < (le32 17 0 0 0).toNat ∧ 1 ≤ (le32 1 0 0 0).toNat ∧
    (le32 16 0 0 0).toNat ≤ mini.maxBits := by
  refine ⟨⟨0x67, 0x66, by decide⟩, by decide, by decide, by decide, by decide⟩

/-- With exactly two free slots for a SHIFT, and for a command that needs none. -/
theorem witness_ByteStepsReceiveTheCommand :
    (∃ (s : State) (se : Session), s.loopFree = true ∧ s.sessions[0]? = some se ∧ se.phase = .awaitingCommand ∧ se.kind = none ∧ se.hlen = 0 ∧
      se.plen = 0 ∧ se.rx = encode shift9 ++ [0x67] ∧ shift9.wf s.cfg = true ∧
      ∃ (a b : Nat) (sa sb : Slot), a < b ∧ s.arena[a]? = some sa ∧ sa.owner = none ∧ s.arena[b]? = some sb ∧ sb.owner = none) ∧
    ∃ (s : State) (se : Session), s.loopFree = true ∧ s.sessions[0]? = some se ∧ se.phase = .awaitingCommand ∧ se.kind = none ∧ se.hlen = 0 ∧
      se.plen = 0 ∧ se.rx = encode .getinfo ++ [] ∧ Instr.getinfo.kind ≠ .shift := by
  let s := sending { mini with arenaSlots := 2 } (encode shift9 ++ [0x67])
  let u := sending { mini with arenaSlots := 1 } (encode .getinfo)
  refine ⟨⟨s, session s 0, by decide +kernel, by decide +kernel, by decide +kernel, by decide +kernel, by decide +kernel,
    by decide +kernel, by decide +kernel, by decide +kernel, 0, 1, slot s 0, slot s 1, by decide, by decide +kernel,
    by decide +kernel, by decide +kernel, by decide +kernel⟩, u, session u 0, by decide +kernel, by decide +kernel,
    by decide +kernel, by decide +kernel, by decide +kernel, by decide +kernel, by decide +kernel, by decide⟩

/-- What the two statements about a step ask of a state that holds `i`. -/
def heldBy (i : Instr) (s : State) : Prop :=
  ∃ se bytes, s.cfg.valid = true ∧ s.nextInput = .serve 0 ok ∧ s.loopFree = true ∧ s.sessions[0]? = some se ∧
    se.phase = .awaitingCommand ∧ se.complete = true ∧ Session.positionOk s.cfg se ∧ s.heldCommand 0 = .next i ∧
    s.commandBytes 0 = .next bytes ∧ decode s.cfg bytes = .done i []

theorem heldBy_of_checks {i : Instr} {s : State}
    (h : (s.cfg.valid && decide (s.nextInput = .serve 0 ok) && s.loopFree && decide (s.sessions[0]? = some (session s 0)) &&
      decide ((session s 0).phase = .awaitingCommand) && (session s 0).complete && positionCheck s.cfg (session s 0) &&
      isNext (s.heldCommand 0) i && isNext (s.commandBytes 0) (encode i) && decide (decode s.cfg (encode i) = .done i [])) =
        true) : heldBy i s := by
  simp only [Bool.and_eq_true, decide_eq_true_eq] at h
  obtain ⟨⟨⟨⟨⟨⟨⟨⟨⟨h1, h2⟩, h3⟩, h4⟩, h5⟩, h6⟩, h7⟩, h8⟩, h9⟩, h10⟩ := h
  exact ⟨session s 0, encode i, h1, h2, h3, h4, h5, h6, positionOk_of_check h7, eq_next h8, eq_next h9, h10⟩

theorem witness_StepRunsHeldCommand_getinfo : heldBy .getinfo (taking (.serve 0 ok) (holding mini .getinfo)) :=
  heldBy_of_checks (by decide +kernel)

theorem witness_StepRunsHeldCommand_settck : heldBy (.settck 100) (taking (.serve 0 ok) (holding mini (.settck 100))) :=
  heldBy_of_checks (by decide +kernel)

/-- This and the two before it are also the witnesses of StepRunsDecodedBytes. -/
theorem witness_StepRunsHeldCommand_shift : heldBy shift9 (taking (.serve 0 ok) (holding mini shift9)) :=
  heldBy_of_checks (by decide +kernel)

/-- Each at a bound of R10. -/
theorem witness_BadParametersAreRefused :
    ∀ c ∈ [{ mini with maxBits := 0 }, { mini with maxBits := 2 ^ 32 - 7 }, { mini with arenaSlots := 0 },
        { mini with maxSessions := 0 }, { mini with qdepth := 0 }, { mini with cyclesPerTck := 0 },
        { mini with cyclesPerTck := 3 }, { mini with divMin := 0 }, { mini with divInit := 0 }, { mini with divMax := 3 }],
      ¬(1 ≤ c.maxBits ∧ c.maxBits ≤ 2 ^ 32 - 8 ∧ 1 ≤ c.arenaSlots ∧ 1 ≤ c.maxSessions ∧ 1 ≤ c.qdepth ∧
        2 ≤ c.cyclesPerTck ∧ c.cyclesPerTck % 2 = 0 ∧ 1 ≤ c.divMin ∧ c.divMin ≤ c.divInit ∧ c.divInit ≤ c.divMax) := by
  decide

/-- Also for ClampDivIsLegalAndRoundsUp, whose clamps are at work at 0 and at 2621441 ns (V-T1, V-T8). -/
theorem witness_ResetSatisfiesInvariant :
    Config.vectors.valid = true ∧ mini.valid = true ∧ clampDiv Config.vectors 0 = Config.vectors.divMin ∧
    clampDiv Config.vectors 2621441 = Config.vectors.divMax := by decide +kernel

theorem witness_GetInfoReplies :
    let s := holding mini .getinfo
    s.sessions[s.serving]? = some (session s 0) ∧ s.write.ok = true ∧ (session s 0).gone = false := by decide +kernel

theorem witness_SetTckWritesDivisorAndEchoes :
    let s := holding mini (.settck (le32 0xFF 0xFF 0xFF 0xFF))
    s.sessions[s.serving]? = some (session s 0) ∧ s.write.ok = true ∧ (session s 0).gone = false := by decide +kernel

/-- Both ways a reply write fails. -/
theorem witness_FailedReplyWriteCloses :
    let s := { holding mini .getinfo with write := failed }
    let u := (holding mini .getinfo).mapSession 0 fun se => { se with gone := true }
    (s.sessions[s.serving]? = some (session s 0) ∧ s.write.ok = false) ∧
    u.sessions[u.serving]? = some (session u 0) ∧ (session u 0).gone = true := by decide +kernel

theorem witness_ReplyCommandFrame :
    (∃ t, exec .getinfo (holding mini .getinfo) = .next t) ∧
    ∃ t, exec (.settck 100) { holding mini (.settck 100) with write := failed } = .next t :=
  ⟨⟨stateOf (exec .getinfo (holding mini .getinfo)), eq_next (by decide +kernel)⟩,
    stateOf (exec (.settck 100) { holding mini (.settck 100) with write := failed }), eq_next (by decide +kernel)⟩

/-- What the statements about the start of a transfer ask; the slot taken is the arena's last. -/
theorem witness_ShiftStartsHardwareTransfer :
    ∃ (s : State) (se : Session) (sl : Slot), s.sessions[s.serving]? = some se ∧ se.kind = some .shift ∧ se.n = 9 ∧
      se.tmsSlot = some 0 ∧ se.tdiSlot = some 1 ∧ s.memRead 0 0 (vectorBytes 9) = .next [0x03, 0x00] ∧
      s.memRead 1 0 (vectorBytes 9) = .next [0xFF, 0x01] ∧ s.g.backendValid = true ∧ s.g.engine = .hw ∧
      s.arena[2]? = some sl ∧ sl.owner = none ∧
      ∀ (b : Nat) (sb : Slot), b < 2 → s.arena[b]? = some sb → sb.owner ≠ none :=
  let s := holding mini shift9
  ⟨s, session s 0, slot s 2, by decide +kernel, by decide +kernel, by decide +kernel, by decide +kernel,
    by decide +kernel, eq_next (by decide +kernel), eq_next (by decide +kernel), by decide +kernel, by decide +kernel,
    by decide +kernel, by decide +kernel, lowest_of_check (by decide +kernel)⟩

theorem witness_ShiftStartsSoftwareTransfer :
    ∃ (s : State) (se : Session) (sl : Slot), s.sessions[s.serving]? = some se ∧ se.kind = some .shift ∧ se.n = 9 ∧
      se.tmsSlot = some 0 ∧ se.tdiSlot = some 1 ∧ s.memRead 0 0 (vectorBytes 9) = .next [0x03, 0x00] ∧
      s.memRead 1 0 (vectorBytes 9) = .next [0xFF, 0x01] ∧ s.g.backendValid = true ∧ s.g.engine = .sw ∧
      s.arena[2]? = some sl ∧ sl.owner = none ∧
      ∀ (b : Nat) (sb : Slot), b < 2 → s.arena[b]? = some sb → sb.owner ≠ none :=
  let s := holding miniSw shift9
  ⟨s, session s 0, slot s 2, by decide +kernel, by decide +kernel, by decide +kernel, by decide +kernel,
    by decide +kernel, eq_next (by decide +kernel), eq_next (by decide +kernel), by decide +kernel, by decide +kernel,
    by decide +kernel, by decide +kernel, lowest_of_check (by decide +kernel)⟩

theorem witness_ShiftWithInvalidBackendCloses :
    let s := holding mini shift9
    let u := { s with g := { s.g with backendValid := false } }
    u.sessions[u.serving]? = some (session u 0) ∧ u.g.backendValid = false := by decide +kernel

theorem witness_ShiftWithoutFreeSlotCloses :
    let s := holding { mini with arenaSlots := 2 } shift9
    s.sessions[s.serving]? = some (session s 0) ∧ s.g.backendValid = true ∧ ∀ sl ∈ s.arena, sl.owner ≠ none := by
  decide +kernel

theorem witness_ShiftFrame :
    (∃ t, exec shift9 (holding mini shift9) = .next t ∧ t.g.busy = true) ∧
    ∃ t, exec shift9 (holding { mini with arenaSlots := 2 } shift9) = .next t ∧ t.g.busy = false :=
  ⟨⟨stateOf (exec shift9 (holding mini shift9)), eq_next (by decide +kernel), by decide +kernel⟩,
    stateOf (exec shift9 (holding { mini with arenaSlots := 2 } shift9)), eq_next (by decide +kernel), by decide +kernel⟩

/-- What the statements about a whole transfer ask of a state, a start and a schedule. -/
def transfers (k : EngineKind) (s : State) (es : List EngineStep) : Prop :=
  ∃ se s1 s2, s.sessions[s.serving]? = some se ∧ se.gone = false ∧ s.g.busy = false ∧ s.g.engine = k ∧
    shift9.wf s.cfg = true ∧ exec shift9 s = .next s1 ∧ s1.g.busy = true ∧
    State.performAll (engineInputs es) s1 = .next s2 ∧ s2.g.busy = false

/-- The schedule goes on after the end of the transfer. -/
theorem witness_HardwareTransferResult : transfers .hw (holding mini shift9) (schedule9 ++ [.feed, .hwEnd]) :=
  let s := holding mini shift9
  let s1 := stateOf (exec shift9 s)
  ⟨session s 0, s1, after (engineInputs (schedule9 ++ [.feed, .hwEnd])) s1, by decide +kernel, by decide +kernel,
    by decide +kernel, by decide +kernel, by decide +kernel, eq_next (by decide +kernel), by decide +kernel,
    eq_next (by decide +kernel), by decide +kernel⟩

theorem witness_SoftwareTransferResult : transfers .sw (holding miniSw shift9) schedule9Sw :=
  let s := holding miniSw shift9
  let s1 := stateOf (exec shift9 s)
  ⟨session s 0, s1, after (engineInputs schedule9Sw) s1, by decide +kernel, by decide +kernel, by decide +kernel,
    by decide +kernel, by decide +kernel, eq_next (by decide +kernel), by decide +kernel, eq_next (by decide +kernel),
    by decide +kernel⟩

/-- One state, its two variants. -/
theorem witness_VariantsAgree :
    ∃ s : State, transfers .hw { s with g := { s.g with engine := .hw } } schedule9 ∧
      transfers .sw { s with g := { s.g with engine := .sw } } schedule9Sw :=
  let s := holding mini shift9
  let h := { s with g := { s.g with engine := .hw } }
  let w := { s with g := { s.g with engine := .sw } }
  let h1 := stateOf (exec shift9 h)
  let w1 := stateOf (exec shift9 w)
  ⟨s, ⟨session s 0, h1, after (engineInputs schedule9) h1, by decide +kernel, by decide +kernel, by decide +kernel,
      by decide +kernel, by decide +kernel, eq_next (by decide +kernel), by decide +kernel, eq_next (by decide +kernel),
      by decide +kernel⟩,
    session s 0, w1, after (engineInputs schedule9Sw) w1, by decide +kernel, by decide +kernel, by decide +kernel,
    by decide +kernel, by decide +kernel, eq_next (by decide +kernel), by decide +kernel, eq_next (by decide +kernel),
    by decide +kernel⟩

/-- A run cut short inside the transfer, and one to its end. -/
theorem witness_HardwareTransferTerminates :
    ∃ (s s1 s2 s3 : State), s.g.busy = false ∧ s.g.engine = .hw ∧ s.e.hung = false ∧ 1 ≤ s.cfg.qdepth ∧
      shift9.wf s.cfg = true ∧ exec shift9 s = .next s1 ∧ s1.g.busy = true ∧
      EngineRun [.feed, .bitStep] s1 s2 ∧ s2.g.busy = true ∧ EngineRun schedule9 s1 s3 ∧ s3.g.busy = false :=
  let s := holding mini shift9
  let s1 := stateOf (exec shift9 s)
  ⟨s, s1, after (engineInputs [.feed, .bitStep]) s1, after (engineInputs schedule9) s1, by decide +kernel,
    by decide +kernel, by decide +kernel, by decide +kernel, by decide +kernel, eq_next (by decide +kernel),
    by decide +kernel, engineRun_of_check (by decide +kernel), by decide +kernel, engineRun_of_check (by decide +kernel),
    by decide +kernel⟩

/-- On either variant, with either cause of the failure. -/
theorem witness_FailedTransferReplyCloses :
    (∃ (s : State) (se : Session) (bytes : List Byte), s.engineStepEnabled .hwEnd = true ∧ s.g.owner = some 0 ∧
      s.sessions[0]? = some se ∧ se.tdoSlot = some 2 ∧ s.memRead 2 0 (vectorBytes se.n) = .next bytes ∧ failed.ok = false) ∧
    ∃ (s : State) (se : Session) (bytes : List Byte), s.engineStepEnabled .swEnd = true ∧ s.g.owner = some 0 ∧
      s.sessions[0]? = some se ∧ se.tdoSlot = some 2 ∧ s.memRead 2 0 (vectorBytes se.n) = .next bytes ∧ se.gone = true :=
  let s := after (engineInputs (schedule9.take 12)) (shifting mini)
  let u := after (.peerReset 0 :: engineInputs (schedule9Sw.take 9)) (shifting miniSw)
  ⟨⟨s, session s 0, [0xFE, 0x01], by decide +kernel, by decide +kernel, by decide +kernel, by decide +kernel,
      eq_next (by decide +kernel), by decide⟩,
    u, session u 0, [0xFE, 0x01], by decide +kernel, by decide +kernel, by decide +kernel, by decide +kernel,
    eq_next (by decide +kernel), by decide +kernel⟩

/-- Vectors of nine bits that differ in their trailing bits only. -/
theorem witness_TrailingBitsAreZeroOutAndIgnoredIn :
    ([0xFF, 0x01] : List Byte) ≠ [0xFF, 0xFF] ∧
    ∀ i, i < 9 → vecBit [0x03, 0x00] i = vecBit [0x03, 0xFE] i ∧ vecBit [0xFF, 0x01] i = vecBit [0xFF, 0xFF] i := by decide

theorem witness_LoopbackDelaysTdiByOneEdge : mini.target = .loopback := by decide

/-- One byte pair for each of the four outcomes (V-D1 last). -/
theorem witness_FirstTwoBytesClassify :
    ∀ bs ∈ ([[0x67, 0x65], [0x73, 0x65], [0x73, 0x68], [0x68, 0x65]] : List (List Byte)), ∀ j ∈ [0, 1],
      let s := decoded mini j bs
      s.loopFree = true ∧ s.sessions[0]? = some (session s 0) ∧ (session s 0).phase = .awaitingCommand ∧
      (session s 0).kind = none ∧ (session s 0).hlen = j ∧ (session s 0).rx = bs.drop j := by decide +kernel

/-- The first and the last compared byte of a literal, right and wrong, and the last operand byte of a SETTCK. -/
theorem witness_HeaderByteIsStoredOrFailsTheTail :
    ∀ x ∈ ([(2, .getinfo, 0x74), (2, .getinfo, 0x78), (7, .getinfo, 0x3A), (7, .getinfo, 0x00), (10, .settck, 0x00)] :
        List (Nat × Kind × Byte)),
      let bs := (literal x.2.1 ++ [0, 0, 0, 0]).take x.1
      let s := decoded { mini with checkFullPrefix := true } x.1 (bs ++ [x.2.2])
      (session s 0).hlen < 11 ∧ s.loopFree = true ∧ s.sessions[0]? = some (session s 0) ∧
      (session s 0).phase = .awaitingCommand ∧ (session s 0).kind = some x.2.1 ∧ 2 ≤ (session s 0).hlen ∧
      (session s 0).hlen < x.2.1.hdrLen ∧ ¬(x.2.1 = .shift ∧ (session s 0).hlen = 9) ∧ (session s 0).plen = 0 ∧
      (session s 0).rx = [x.2.2] := by decide +kernel

/-- Nine header bytes of a SHIFT whose count has low byte `n`, with byte 9 to come, and `k` arena slots. -/
def ninth (k : Nat) (n : Byte) : State :=
  decoded { mini with arenaSlots := k } 9 (literal .shift ++ [n, 0, 0, 0])

/-- Counts 0, 1, 16 (MAX_BITS) and 17. -/
theorem witness_NinthByteValidatesTheCount :
    ∀ n ∈ ([0, 1, 16, 17] : List Byte),
      let s := ninth 2 n
      s.loopFree = true ∧ s.sessions[0]? = some (session s 0) ∧ (session s 0).phase = .awaitingCommand ∧
      (session s 0).kind = some .shift ∧ (session s 0).hlen = 9 ∧ (session s 0).plen = 0 ∧
      (session s 0).tmsSlot = none ∧ (session s 0).tdiSlot = none ∧ (session s 0).tdoSlot = none ∧
      (session s 0).rx = [0] ∧
      (le32 (session s 0).hdr[6] (session s 0).hdr[7] (session s 0).hdr[8] 0).toNat = n.toNat := by decide +kernel

/-- Exactly two free slots. -/
theorem witness_NinthByteValidatesTheCount_slots :
    ∃ (a d : Nat) (sa sd : Slot), a < d ∧ (ninth 2 16).arena[a]? = some sa ∧ sa.owner = none ∧
      (ninth 2 16).arena[d]? = some sd ∧ sd.owner = none ∧
      ∀ (x : Nat) (sx : Slot), x < d → x ≠ a → (ninth 2 16).arena[x]? = some sx → sx.owner ≠ none :=
  ⟨0, 1, slot (ninth 2 16) 0, slot (ninth 2 16) 1, by decide, by decide +kernel, by decide +kernel, by decide +kernel,
    by decide +kernel, fun x sx h1 h2 _ => absurd (Nat.lt_one_iff.1 h1) h2⟩

/-- One free slot only. -/
theorem witness_NinthByteValidatesTheCount_noSlots :
    ∀ (a d : Nat) (sa sd : Slot), a ≠ d → (ninth 1 1).arena[a]? = some sa → (ninth 1 1).arena[d]? = some sd →
      sa.owner ≠ none ∨ sd.owner ≠ none := by
  intro a d sa sd hne ha hd
  have hl : (ninth 1 1).arena.length = 1 := by decide +kernel
  have h1 := (List.getElem?_eq_some_iff.1 ha).1
  have h2 := (List.getElem?_eq_some_iff.1 hd).1
  omega

/-- The first and the last byte of either vector. -/
theorem witness_PayloadByteIsStored :
    ∀ j ∈ [0, 1, 2, 3],
      let s := decoded mini (10 + j) (encode shift9)
      let se := session s 0
      s.loopFree = true ∧ s.sessions[0]? = some se ∧ se.phase = .awaitingCommand ∧ se.kind = some .shift ∧ se.hlen = 10 ∧
      se.plen = j ∧ se.plen < 2 * vectorBytes se.n ∧ vectorBytes se.n ≤ s.cfg.slotBytes ∧ se.tmsSlot = some 0 ∧
      se.tdiSlot = some 1 ∧ s.arena[0]? = some (slot s 0) ∧ (slot s 0).owner ≠ none ∧ s.arena[1]? = some (slot s 1) ∧
      (slot s 1).owner ≠ none ∧ se.rx.length = 4 - j ∧ ∀ sl ∈ s.arena, Memory.wf sl.bytes = true := by decide +kernel

/-- A byte that is stored, and one that closes the session. -/
theorem witness_ByteStepConsumesOneByte :
    ∀ s ∈ [decoded mini 1 [0x67, 0x65], decoded mini 1 [0x67, 0x66], decoded mini 13 (encode shift9)],
      s.loopFree = true ∧ s.sessions[0]? = some (session s 0) ∧ (session s 0).phase = .awaitingCommand ∧
      (session s 0).complete = false ∧ positionCheck s.cfg (session s 0) = true ∧ (session s 0).rx.length = 1 ∧
      isNext (s.perform (.serve 0 ok)) (after [.serve 0 ok] s) = true := by decide +kernel

/-- The second slot is the lowest closed one; then every slot is open; then the loop is busy; then halted. -/
theorem witness_AcceptTakesLowestClosedSlot :
    (let s := sending mini []
     s.g.busy = false ∧ s.g.halted = false ∧ s.sessions[1]? = some (session s 1) ∧ (session s 1).phase = .closed ∧
       (session s 0).phase ≠ .closed) ∧
    (∀ se ∈ (after [.accept] (sending mini [])).sessions, se.phase ≠ .closed) ∧ (shifting mini).g.busy = true ∧
    (after [.hwFault true true true 0] (shifting { mini with hwFaultPolicy := .haltAll })).g.halted = true := by
  decide +kernel

theorem witness_ArrivalsOnlyAppend :
    let s := sending mini []
    s.sessions[0]? = some (session s 0) ∧ (session s 0).phase ≠ .closed ∧ s.sessions[1]? = some (session s 1) ∧
    (session s 1).phase = .closed := by decide +kernel

/-- An accepted session, and an end-of-stream inside a command and between commands. -/
theorem witness_InitAndEndOfStream :
    (let s := after [.accept] (State.resetWith mini 0)
     s.loopFree = true ∧ s.sessions[0]? = some (session s 0) ∧ (session s 0).phase = .accepted) ∧
    ∀ s ∈ [after [.eof 0] (decoded mini 1 [0x67]), after [.eof 0] (sending mini [])],
      s.loopFree = true ∧ s.sessions[0]? = some (session s 0) ∧ (session s 0).phase = .awaitingCommand ∧
      (session s 0).complete = false ∧ (session s 0).rx = [] ∧ (session s 0).eof = true := by decide +kernel

theorem witness_PeerResetAndIdleClose :
    (let s := sending mini []
     s.sessions[0]? = some (session s 0) ∧ s.g.busy = false ∧ (session s 0).phase = .awaitingCommand ∧
       s.sessions[1]? = some (session s 1) ∧ (session s 1).phase = .closed) ∧
    let s := after [.accept] (State.resetWith mini 0)
    s.sessions[0]? = some (session s 0) ∧ s.g.busy = false ∧ (session s 0).phase = .accepted := by decide +kernel

theorem witness_CloseReleasesAndRecords :
    (shifting mini).sessions[0]? = some (session (shifting mini) 0) ∧ (session (shifting mini) 0).tdoSlot = some 2 := by
  decide +kernel

/-- With either policy; the last is also HaltClosesEverySession's. -/
theorem witness_HardwareFaultEffect :
    ∀ x ∈ [(mini, HwFaultPolicy.serveNonShift), ({ mini with hwFaultPolicy := .haltAll }, .haltAll)],
      let s := shifting x.1
      s.g.busy = true ∧ s.g.engine = .hw ∧ s.e.hung = false ∧ s.g.owner = some 0 ∧
      s.sessions[0]? = some (session s 0) ∧ s.cfg.hwFaultPolicy = x.2 := by decide +kernel

/-- A halted block and an input that would otherwise have an effect. -/
theorem witness_HaltedBlockOnlyResets :
    ∃ s : State, s.g.halted = true ∧ s.HaltedClosed ∧ (∀ x, Input.accept ≠ .blockReset x) ∧
      s.perform .accept = .next (after [.accept] s) :=
  let s := after [.hwFault true true true 0] (shifting { mini with hwFaultPolicy := .haltAll })
  ⟨s, by decide +kernel, by unfold State.HaltedClosed; decide +kernel, by simp, eq_next (by decide +kernel)⟩

theorem witness_SoftwareVariantLeavesTheHardwareIdle :
    ∃ s : State, s.g.engine = .sw ∧ s.SoftwareIdle ∧ step s = .next (stateOf (step s)) :=
  let s := taking (.engine .swBitStep ok) (shifting miniSw)
  ⟨s, by decide +kernel, by unfold State.SoftwareIdle; decide +kernel, eq_next (by decide +kernel)⟩

theorem witness_StuckUntilReset :
    ∃ s : State, s.stuck = true ∧ (∀ x, Input.engine .feed ok ≠ .blockReset x) ∧
      s.perform (.engine .feed ok) = .next (after [.engine .feed ok] s) :=
  let s := after [.hang] (shifting mini)
  ⟨s, by decide +kernel, by simp, eq_next (by decide +kernel)⟩

/-- A state in flight that takes an engine step: it meets the hypotheses of every statement that an invariant is kept, and
those of PhaseTransitionsAreThoseOfTheTable. -/
theorem witness_invariants :
    ∃ s t : State, s.Inv ∧ s.SingleFlight ∧ s.MemoryCanonical ∧ s.LockStep ∧ s.DivisorLegal ∧ step s = .next t ∧
      s.sessions[0]? = some (session s 0) ∧ t.sessions[0]? = some (session t 0) ∧ t.e.inW = 1 :=
  let s := taking (.engine .feed ok) (shifting mini)
  have h : s.Inv := ⟨shifting_inv.1, shifting_inv.2, shifting_inv.3, shifting_inv.4, shifting_inv.5, shifting_inv.6,
    shifting_inv.7, shifting_inv.8, shifting_inv.9, shifting_inv.10, shifting_inv.11⟩
  ⟨s, stateOf (step s), h, h.flight, h.memory, h.lockStep, h.divisor, eq_next (by decide +kernel), by decide +kernel,
    by decide +kernel, by decide +kernel⟩

/-- For OnlyResetRecovers, OnlySetTckWritesTheDivisor, EdgesOnlyFromBitSteps and TxOnlyGrows: a SETTCK that writes the
divisor and a bit step during a transfer. -/
theorem witness_perform :
    (∃ s t : State, s.perform (.serve 0 ok) = .next t ∧ (∀ x, Input.serve 0 ok ≠ .blockReset x) ∧ t.g.div ≠ s.g.div ∧
      s.sessions[0]? = some (session s 0) ∧ t.sessions[0]? = some (session t 0) ∧ (session t 0).tx ≠ (session s 0).tx) ∧
    ∃ s t : State, s.perform (.engine .bitStep ok) = .next t ∧ s.g.busy = true ∧ t.p ≠ s.p :=
  let s := holding mini (.settck 100)
  let u := after [.engine .feed ok] (shifting mini)
  ⟨⟨s, after [.serve 0 ok] s, eq_next (by decide +kernel), by simp, by decide +kernel, by decide +kernel,
      by decide +kernel, by decide +kernel⟩,
    u, after [.engine .bitStep ok] u, eq_next (by decide +kernel), by decide +kernel, by decide +kernel⟩

theorem witness_BusyDisablesSessionSteps :
    let s := after [.engine .feed ok] (shifting mini)
    s.g.busy = true ∧ s.sessions[1]? = some (session s 1) ∧ (session s 1).phase ≠ .dispatching := by decide +kernel

/-- Session 0 holds two slots; session 1 takes a step. -/
def twoSessions (b : Byte) : State :=
  after [.accept, .arrive 0 ((encode shift9).take 10 ++ [b]), .accept, .arrive 1 [0x67, 0x65],
      .serve 0 ok, .serve 0 ok, .serve 0 ok, .serve 0 ok, .serve 0 ok, .serve 0 ok, .serve 0 ok, .serve 0 ok, .serve 0 ok,
      .serve 0 ok, .serve 0 ok, .serve 0 ok, .serve 1 ok] (State.resetWith { mini with arenaSlots := 4 } 0)

theorem witness_SessionStepsAreIsolated :
    ∃ s t : State, s.Ownership ∧ s.perform (.serve 1 ok) = .next t ∧
      (∃ sl : Slot, s.arena[0]? = some sl ∧ sl.owner = some (0, .tms)) ∧ session t 1 ≠ session s 1 :=
  let s := twoSessions 0x55
  ⟨s, after [.serve 1 ok] s, ownership_of_check (by decide +kernel), eq_next (by decide +kernel),
    ⟨slot s 0, by decide +kernel, by decide +kernel⟩, by decide +kernel⟩

/-- Two states that differ in session 0's secret byte; session 1 takes a step. -/
theorem witness_SessionStepsDoNotLeak :
    ∃ s s' t t' : State, s.Ownership ∧ s'.cfg = s.cfg ∧ s'.g = s.g ∧ s'.sessions[1]? = s.sessions[1]? ∧
      s'.arena.map Slot.owner = s.arena.map Slot.owner ∧
      (∀ (a : Nat) (sl sl' : Slot) (r : Role), s.arena[a]? = some sl → s'.arena[a]? = some sl' →
        sl.owner = some (1, r) → sl'.bytes = sl.bytes) ∧
      s.perform (.serve 1 ok) = .next t ∧ s'.perform (.serve 1 ok) = .next t' ∧ s'.arena ≠ s.arena :=
  let s := twoSessions 0x55
  let s' := twoSessions 0xAA
  ⟨s, s', after [.serve 1 ok] s, after [.serve 1 ok] s', ownership_of_check (by decide +kernel), by decide +kernel,
    by decide +kernel, by decide +kernel, by decide +kernel,
    fun a sl sl' r h _ ho => by
      have owners : ∀ x ∈ s.arena, x.owner = none ∨ x.owner = some (0, .tms) ∨ x.owner = some (0, .tdi) := by
        decide +kernel
      rcases owners sl (List.mem_of_getElem? h) with h | h | h <;> rw [h] at ho <;> simp at ho,
    eq_next (by decide +kernel), eq_next (by decide +kernel), by decide +kernel⟩

/-- The last byte of a slot. -/
theorem witness_ArenaReadAfterWrite :
    ∃ s t : State, s.MemoryCanonical ∧ s.memWrite 0 1 0x7F = .next t :=
  ⟨shifting mini, stateOf ((shifting mini).memWrite 0 1 0x7F), shifting_inv.memory, eq_next (by decide +kernel)⟩

/-- A schedule without drains that is still busy at its end. -/
theorem witness_WithoutDrainsTheFeedStalls :
    ∃ s s1 s2 : State, s.g.busy = false ∧ s.g.engine = .hw ∧ exec shift9 s = .next s1 ∧ s1.g.busy = true ∧
      .drain ∉ schedule9.take 11 ∧ State.performAll (engineInputs (schedule9.take 11)) s1 = .next s2 ∧ s2.g.busy = true :=
  let s := holding mini shift9
  let s1 := stateOf (exec shift9 s)
  ⟨s, s1, after (engineInputs (schedule9.take 11)) s1, by decide +kernel, by decide +kernel, eq_next (by decide +kernel),
    by decide +kernel, by decide, eq_next (by decide +kernel), by decide +kernel⟩

end Sys2Proof.Tests
end

section
/-! The bounds of R10 as one conjunction, and what a step does outside them (00_scope.md R10). -/

namespace Sys2Proof

theorem Config.valid_iff (c : Config) :
    c.valid = true ↔
      1 ≤ c.maxBits ∧ c.maxBits ≤ 2 ^ 32 - 8 ∧ 1 ≤ c.arenaSlots ∧ 1 ≤ c.maxSessions ∧ 1 ≤ c.qdepth ∧
      2 ≤ c.cyclesPerTck ∧ c.cyclesPerTck % 2 = 0 ∧ 1 ≤ c.divMin ∧ c.divMin ≤ c.divInit ∧ c.divInit ≤ c.divMax := by
  simp only [Config.valid, Bool.and_eq_true, decide_eq_true_eq, and_assoc]

theorem Machine.step_eq_refused_of_not_valid {s : Machine.State} (h : ¬s.cfg.valid = true) :
    Machine.step s = .refused .badConfig :=
  if_neg h

/-- Settles O8: the bounds of R10 are exactly `Config.valid`, which `step` tests before it takes an input. -/
theorem badParametersAreRefused : Obligations.BadParametersAreRefused := by
  unfold Obligations.BadParametersAreRefused
  intro s broken
  exact Machine.step_eq_refused_of_not_valid fun valid => broken ((Config.valid_iff s.cfg).1 valid)

end Sys2Proof
end

section
/-! Little-endian words: the value of `le32`, and that `le32Bytes` and `le32` are inverse to each other (00_scope.md R12,
20_memory.md R70). Both inverse laws compare values, through `toNat_le32`. -/

namespace Sys2Proof

/-- Appending low bits puts the high ones at the weight `2 ^ n`. -/
theorem toNat_append_eq_add {m n : Nat} (hi : BitVec m) (lo : BitVec n) :
    (hi ++ lo).toNat = 2 ^ n * hi.toNat + lo.toNat := by
  rw [BitVec.toNat_append, ← Nat.shiftLeft_add_eq_or_of_lt lo.isLt, Nat.shiftLeft_eq, Nat.mul_comm]

theorem toNat_le32 (b0 b1 b2 b3 : Byte) :
    (le32 b0 b1 b2 b3).toNat = b0.toNat + 2 ^ 8 * b1.toNat + 2 ^ 16 * b2.toNat + 2 ^ 24 * b3.toNat := by
  have value : (le32 b0 b1 b2 b3).toNat =
      2 ^ 24 * b3.toNat + (2 ^ 16 * b2.toNat + (2 ^ 8 * b1.toNat + b0.toNat)) := by
    rw [← toNat_append_eq_add b1 b0, ← toNat_append_eq_add b2 (b1 ++ b0)]
    exact toNat_append_eq_add b3 (b2 ++ (b1 ++ b0))
  omega

theorem le32Bytes_le32 (b0 b1 b2 b3 : Byte) : le32Bytes (le32 b0 b1 b2 b3) = [b0, b1, b2, b3] := by
  simp only [le32Bytes, List.cons.injEq, and_true, ← BitVec.toNat_inj, BitVec.extractLsb'_toNat, toNat_le32,
    Nat.shiftRight_eq_div_pow]
  omega

theorem operandAt_le32Bytes (w : Word) : operandAt (le32Bytes w) 0 = w := by
  have bytes : operandAt (le32Bytes w) 0 =
      le32 (w.extractLsb' 0 8) (w.extractLsb' 8 8) (w.extractLsb' 16 8) (w.extractLsb' 24 8) := rfl
  apply BitVec.eq_of_toNat_eq
  simp only [bytes, toNat_le32, BitVec.extractLsb'_toNat, Nat.shiftRight_eq_div_pow]
  omega

/-- Settles O15: the value of `le32`, and the two inverse laws of `le32` and `le32Bytes`. -/
theorem operandBytesAreLittleEndian : Obligations.OperandBytesAreLittleEndian := by
  unfold Obligations.OperandBytesAreLittleEndian
  exact ⟨fun b0 b1 b2 b3 => ⟨toNat_le32 b0 b1 b2 b3, le32Bytes_le32 b0 b1 b2 b3⟩, operandAt_le32Bytes⟩

end Sys2Proof
end

section
/-! The loopback fixture (10_state.md R47): it drives the TDI bit of the edge before. -/

namespace Sys2Proof.Machine

theorem targetOut_targetNext_of_loopback {c : Config} (loopback : c.target = .loopback) (t : TargetState) (tms tdi : Bool) :
    targetOut c (targetNext c t tms tdi) = tdi := by
  cases tdi <;> simp [targetOut, targetNext, loopback]

/-- Settles O30: TDO bit 0 is read from the state the transfer found, bit `i + 1` from the one edge `i` left. -/
theorem loopbackDelaysTdiByOneEdge : Obligations.LoopbackDelaysTdiByOneEdge := by
  unfold Obligations.LoopbackDelaysTdiByOneEdge
  intro c t0 tms tdi loopback
  constructor
  · simp only [tdoBit, targetAt, targetOut, loopback]
    exact decide_eq_decide.2 Iff.rfl
  · intro i
    exact targetOut_targetNext_of_loopback loopback _ _ _

end Sys2Proof.Machine
end

section
/-! The divisor: `ClampDiv` is legal, and the ways a step can write `G.DIV` and `DIVL` (10_state.md R22, R44;
41_shift_engine.md R160, R162). -/

namespace Sys2Proof.Machine

theorem State.loopFree_iff (s : State) : s.loopFree = true ↔ s.g.busy = false ∧ s.g.halted = false := by
  simp [State.loopFree]

theorem State.engineAnswers_iff (s : State) : s.engineAnswers = true ↔ s.g.busy = true ∧ s.e.hung = false := by
  simp [State.engineAnswers]

/-- A pull of SM_A writes its own shift register, that register's count and its queue only (R154). -/
theorem Engine.pullA_frame (e : Engine) :
    e.pullA = { e with osrA := e.pullA.osrA, osrcA := e.pullA.osrcA, txfA := e.pullA.txfA } := by
  unfold Engine.pullA
  split
  · split <;> rfl
  · rfl

/-- A pull of SM_B writes its own shift register, that register's count and its queue only (R154). -/
theorem Engine.pullB_frame (e : Engine) :
    e.pullB = { e with osrB := e.pullB.osrB, osrcB := e.pullB.osrcB, txfB := e.pullB.txfB } := by
  unfold Engine.pullB
  split
  · split <;> rfl
  · rfl

@[simp] theorem Engine.pullA_osrcB (e : Engine) : e.pullA.osrcB = e.osrcB := by rw [e.pullA_frame]
@[simp] theorem Engine.pullA_isrcB (e : Engine) : e.pullA.isrcB = e.isrcB := by rw [e.pullA_frame]
@[simp] theorem Engine.pullA_txfB (e : Engine) : e.pullA.txfB = e.txfB := by rw [e.pullA_frame]
@[simp] theorem Engine.pullA_rxfB (e : Engine) : e.pullA.rxfB = e.rxfB := by rw [e.pullA_frame]
@[simp] theorem Engine.pullA_divl (e : Engine) : e.pullA.divl = e.divl := by rw [e.pullA_frame]
@[simp] theorem Engine.pullA_hung (e : Engine) : e.pullA.hung = e.hung := by rw [e.pullA_frame]
@[simp] theorem Engine.pullB_osrcA (e : Engine) : e.pullB.osrcA = e.osrcA := by rw [e.pullB_frame]
@[simp] theorem Engine.pullB_isrcB (e : Engine) : e.pullB.isrcB = e.isrcB := by rw [e.pullB_frame]
@[simp] theorem Engine.pullB_txfA (e : Engine) : e.pullB.txfA = e.txfA := by rw [e.pullB_frame]
@[simp] theorem Engine.pullB_rxfB (e : Engine) : e.pullB.rxfB = e.rxfB := by rw [e.pullB_frame]
@[simp] theorem Engine.pullB_divl (e : Engine) : e.pullB.divl = e.divl := by rw [e.pullB_frame]
@[simp] theorem Engine.pullB_hung (e : Engine) : e.pullB.hung = e.hung := by rw [e.pullB_frame]

/-- `G.DIV` is kept, written by SETTCK, or reset. -/
theorem RegisterEffect.div_cases {s t : State} {i : Input} (h : RegisterEffect s t i) :
    t.g.div = s.g.div ∨
      (s.g.busy = false ∧ ∃ k w p, i = .serve k w ∧ s.heldCommand k = .next (.settck p) ∧ s.cfg.settckApplies = true ∧
        t.g.div = clampDiv s.cfg p) ∨
      ∃ x, i = .blockReset x ∧ t = s.blockReset x := by
  cases h with
  | divisor k w p free held applies cfg g =>
    exact .inr (.inl ⟨((State.loopFree_iff s).1 free).1, k, w, p, rfl, held, applies, congrArg Globals.div g⟩)
  | reset x state => exact .inr (.inr ⟨x, rfl, state⟩)
  | same _ _ g | hwStart _ _ _ _ _ _ _ g | swStart _ _ _ _ _ _ g | fault _ _ _ _ _ _ _ _ _ _ g | hang _ _ g
  | feed _ _ _ _ _ _ _ g | drain _ _ _ _ _ _ g | bitStep _ _ _ _ g | rxPush _ _ _ _ g | hwEnd _ _ _ _ _ g
  | swBitStep _ _ _ _ _ _ _ g | swEnd _ _ _ _ _ g =>
    exact .inl ((congrArg Globals.div g).trans rfl)

/-- `DIVL` is kept, latched from `G.DIV` at the start of a transfer, or reset. -/
theorem RegisterEffect.divl_cases {s t : State} {i : Input} (h : RegisterEffect s t i) :
    t.e.divl = s.e.divl ∨ (s.g.busy = false ∧ t.e.divl = s.g.div) ∨ ∃ x, i = .blockReset x ∧ t = s.blockReset x := by
  cases h with
  | hwStart _ _ _ free _ _ _ _ e => exact .inr (.inl ⟨((State.loopFree_iff s).1 free).1, congrArg Engine.divl e⟩)
  | reset x state => exact .inr (.inr ⟨x, rfl, state⟩)
  | bitStep _ _ _ _ _ e => exact .inl ((congrArg Engine.divl e).trans (by simp [Engine.shiftBit]))
  | same _ _ _ e | divisor _ _ _ _ _ _ _ _ e | swStart _ _ _ _ _ _ _ e | fault _ _ _ _ _ _ _ _ _ _ _ e | hang _ _ _ e
  | feed _ _ _ _ _ _ _ _ e | drain _ _ _ _ _ _ _ e | rxPush _ _ _ _ _ e | hwEnd _ _ _ _ _ _ e
  | swBitStep _ _ _ _ _ _ _ _ e | swEnd _ _ _ _ _ _ e =>
    exact .inl ((congrArg Engine.divl e).trans rfl)

/-- No input writes a parameter (00_scope.md R9). -/
theorem RegisterEffect.cfg_eq {s t : State} {i : Input} (h : RegisterEffect s t i) : t.cfg = s.cfg := by
  cases h with
  | reset x state => rw [state]; rfl
  | _ => assumption

/-- A divisor the parameters admit (10_state.md R22). -/
def AdmitsDiv (c : Config) (d : Nat) : Prop := c.divMin ≤ d ∧ d ≤ c.divMax

theorem State.divisorLegal_iff (s : State) : s.DivisorLegal ↔ AdmitsDiv s.cfg s.g.div ∧ AdmitsDiv s.cfg s.e.divl := by
  simp only [State.DivisorLegal, AdmitsDiv, and_assoc]

theorem clampDiv_admitted {c : Config} (valid : c.valid = true) (p : Word) : AdmitsDiv c (clampDiv c p) := by
  obtain ⟨-, -, -, -, -, -, -, -, hmin, hmax⟩ := (Config.valid_iff c).1 valid
  simp only [AdmitsDiv, clampDiv, clamp]
  omega

theorem State.resetWith_divisorLegal {c : Config} (valid : c.valid = true) (t : TargetState) :
    (State.resetWith c t).DivisorLegal := by
  obtain ⟨-, -, -, -, -, -, -, -, hmin, hmax⟩ := (Config.valid_iff c).1 valid
  exact ⟨hmin, hmax, hmin, hmax⟩

/-- Every effect keeps both divisors legal: the values written are `ClampDiv`'s, `G.DIV` itself and DIV_INIT. -/
theorem RegisterEffect.divisorLegal {s t : State} {i : Input} (h : RegisterEffect s t i) (valid : s.cfg.valid = true)
    (legal : s.DivisorLegal) : t.DivisorLegal := by
  obtain ⟨hdiv, hdivl⟩ := s.divisorLegal_iff.1 legal
  have reset (x : TargetState) : AdmitsDiv s.cfg (s.blockReset x).g.div ∧ AdmitsDiv s.cfg (s.blockReset x).e.divl :=
    (s.blockReset x).divisorLegal_iff.1 (State.resetWith_divisorLegal valid s.target)
  rw [State.divisorLegal_iff, h.cfg_eq]
  constructor
  · rcases h.div_cases with hd | ⟨-, k, w, p, -, -, -, hd⟩ | ⟨x, -, rfl⟩
    · exact hd ▸ hdiv
    · exact hd ▸ clampDiv_admitted valid p
    · exact (reset x).1
  · rcases h.divl_cases with hl | ⟨-, hl⟩ | ⟨x, -, rfl⟩
    · exact hl ▸ hdivl
    · exact hl ▸ hdiv
    · exact (reset x).2

/-- Settles O49. -/
theorem divisorStaysLegal : Obligations.DivisorStaysLegal := by
  unfold Obligations.DivisorStaysLegal
  intro s t legal stepped
  obtain ⟨valid, effect⟩ := step_effect stepped
  obtain ⟨hcfg, hg, -, -, he, -⟩ := s.latched_frame s.nextInput
  refine effect.registers.divisorLegal (by rw [hcfg]; exact valid) ?_
  rwa [State.divisorLegal_iff, hcfg, hg, he, ← State.divisorLegal_iff]

/-- Settles O53: the cases of `G.DIV` and of `DIVL`, block reset apart. -/
theorem onlySetTckWritesTheDivisor : Obligations.OnlySetTckWritesTheDivisor := by
  unfold Obligations.OnlySetTckWritesTheDivisor
  intro s t i performed notReset
  have effect := (State.perform_effect performed).registers
  obtain ⟨hcfg, hg, -, -, he, -⟩ := s.latch_frame i
  constructor
  · intro changed
    rcases effect.div_cases with hd | ⟨hfree, k, w, p, rfl, held, applies, hd⟩ | ⟨x, rfl, -⟩
    · exact absurd (hd.trans (congrArg Globals.div hg)) changed
    · exact ⟨hg ▸ hfree, k, w, p, rfl, held, hcfg ▸ applies, hcfg ▸ hd⟩
    · exact absurd rfl (notReset x)
  · intro busy
    rcases effect.divl_cases with hl | ⟨hfree, -⟩ | ⟨x, rfl, -⟩
    · rw [hl, he]
    · simp [hg, busy] at hfree
    · exact absurd rfl (notReset x)

end Sys2Proof.Machine
end

section
/-! A byte step of the decoder (40_commands.md R111-R117): what it can do, and what it leaves in the session's registers. -/

namespace Sys2Proof.Machine

/-! ## The position invariant, by class -/

theorem Session.positionOk_of_kind_none {c : Config} {se : Session} (kind : se.kind = none) :
    Session.positionOk c se ↔ se.hlen ≤ 1 ∧ se.plen = 0 ∧ se.tmsSlot = none ∧ se.tdiSlot = none := by
  simp only [Session.positionOk, kind]

/-- A command whose header does not yet name a legal count (every GETINFO and SETTCK, and a SHIFT before byte 9). -/
theorem Session.positionOk_of_kind_some {c : Config} {se : Session} {kind : Kind} (hkind : se.kind = some kind)
    (early : ¬(kind = .shift ∧ se.hlen = 10)) :
    Session.positionOk c se ↔
      2 ≤ se.hlen ∧ se.hlen ≤ kind.hdrLen ∧ classify se.hdr[0] se.hdr[1] = some kind ∧
        se.plen = 0 ∧ se.tmsSlot = none ∧ se.tdiSlot = none := by
  simp only [Session.positionOk, hkind, if_neg early]

/-- A SHIFT whose count has been validated. -/
theorem Session.positionOk_of_counted {c : Config} {se : Session} (hkind : se.kind = some .shift) (hlen : se.hlen = 10) :
    Session.positionOk c se ↔
      classify se.hdr[0] se.hdr[1] = some .shift ∧ se.n = countOf se.hdr ∧ 1 ≤ se.n.toNat ∧ se.n.toNat ≤ c.maxBits ∧
        se.plen ≤ 2 * vectorBytes se.n ∧ se.tmsSlot.isSome = true ∧ se.tdiSlot.isSome = true := by
  simp [Session.positionOk, hkind, hlen, Kind.hdrLen]

/-- While the header is incomplete there is no payload and no slot is held. -/
theorem Session.positionOk.header {c : Config} {se : Session} (pos : Session.positionOk c se)
    (header : se.hlen < hdrLen se.kind) : se.plen = 0 ∧ se.tmsSlot = none ∧ se.tdiSlot = none := by
  cases hkind : se.kind with
  | none => exact ((Session.positionOk_of_kind_none hkind).1 pos).2
  | some kind =>
    have early : ¬(kind = .shift ∧ se.hlen = 10) := by
      rintro ⟨rfl, hlen⟩
      simp [hkind, hdrLen, Kind.hdrLen, hlen] at header
    exact ((Session.positionOk_of_kind_some hkind early).1 pos).2.2.2

theorem Session.complete_iff (se : Session) : se.complete = true ↔ se.kind.isSome = true ∧ se.hlen + se.plen = se.need := by
  simp [Session.complete]

/-- The only complete header with bytes still to come is that of a SHIFT. -/
theorem Session.positionOk.payload {c : Config} {se : Session} (pos : Session.positionOk c se)
    (incomplete : se.complete = false) (past : ¬se.hlen < hdrLen se.kind) :
    se.kind = some .shift ∧ se.hlen = 10 ∧ se.plen < 2 * vectorBytes se.n := by
  have short : ¬(se.kind.isSome = true ∧ se.hlen + se.plen = se.need) := by
    rw [← Session.complete_iff, incomplete]; exact Bool.false_ne_true
  cases hkind : se.kind with
  | none =>
    have := ((Session.positionOk_of_kind_none hkind).1 pos).1
    simp only [hkind, hdrLen] at past
    omega
  | some kind =>
    by_cases counted : kind = .shift ∧ se.hlen = 10
    · obtain ⟨rfl, hlen⟩ := counted
      obtain ⟨-, -, -, -, bound, -, -⟩ := (Session.positionOk_of_counted hkind hlen).1 pos
      simp only [hkind, Option.isSome_some, Session.need, hlen, true_and, Nat.lt_irrefl, if_false] at short
      exact ⟨rfl, hlen, by omega⟩
    · obtain ⟨-, most, -, plen, -, -⟩ := (Session.positionOk_of_kind_some hkind counted).1 pos
      simp only [hkind, hdrLen] at past
      have whole : se.hlen = kind.hdrLen := le_antisymm most (Nat.le_of_not_lt past)
      cases kind with
      | shift => exact absurd ⟨rfl, whole⟩ counted
      | getinfo | settck =>
        exact absurd ⟨by simp [hkind], by simp only [whole, plen, Session.need, hkind, Kind.hdrLen]⟩ short

/-! ## The outcomes of a byte step -/

theorem State.mapSession_mapSession (s : State) (k : Nat) (f g : Session → Session) :
    (s.mapSession k f).mapSession k g = s.mapSession k (g ∘ f) := by
  simp [State.mapSession, List.modify_modify_eq]

/-- Session `k` with the byte taken from RX and stored as the next header byte (R111). -/
def State.storeHeader (k : Nat) (b : Byte) (rest : List Byte) (se : Session) (s : State) : State :=
  s.mapSession k fun x =>
    { x with rx := rest, hdr := se.hdr.setIfInBounds se.hlen b, hlen := se.hlen + 1 }

/-- What consuming byte `b`, with `rest` left in RX, can do to the state when session `k` holds `se` (R111-R117). -/
inductive ByteEffect (k : Nat) (b : Byte) (rest : List Byte) (se : Session) (s : State) : State → Prop where
  | stored (header : se.hlen < hdrLen se.kind) (first : se.kind = none → se.hlen ≠ 1)
      (early : ¬(se.kind = some .shift ∧ se.hlen = 9)) : ByteEffect k b rest se s (s.storeHeader k b rest se)
  | classified (kind : Kind) (second : se.hlen = 1)
      (known : classify (se.hdr.setIfInBounds se.hlen b)[0] (se.hdr.setIfInBounds se.hlen b)[1] = some kind) :
      ByteEffect k b rest se s ((s.storeHeader k b rest se).mapSession k fun x => { x with kind := some kind })
  | failed (code : CloseReason) (header : se.hlen < hdrLen se.kind) :
      ByteEffect k b rest se s ((s.storeHeader k b rest se).close k code)
  | noSlot (n : Word) (header : se.hlen < hdrLen se.kind) :
      ByteEffect k b rest se s (((s.storeHeader k b rest se).mapSession k fun x => { x with n := n }).close k .noSlot)
  | oneSlot (n : Word) (a : Nat) (s1 : State) (header : se.hlen < hdrLen se.kind)
      (tms : ((s.storeHeader k b rest se).mapSession k fun x => { x with n := n }).acquireSlot k .tms = some (a, s1)) :
      ByteEffect k b rest se s ((s1.mapSession k fun x => { x with tmsSlot := some a }).close k .noSlot)
  | counted (a d : Nat) (s1 s2 : State) (shift : se.kind = some .shift) (ninth : se.hlen = 9)
      (legal : countError s.cfg (countOf (se.hdr.setIfInBounds se.hlen b)) = none)
      (tms : ((s.storeHeader k b rest se).mapSession k fun x =>
        { x with n := countOf (se.hdr.setIfInBounds se.hlen b) }).acquireSlot k .tms = some (a, s1))
      (tdi : (s1.mapSession k fun x => { x with tmsSlot := some a }).acquireSlot k .tdi = some (d, s2)) :
      ByteEffect k b rest se s (s2.mapSession k fun x => { x with tdiSlot := some d, plen := 0 })
  | payload (a off : Nat) (s1 : State) (past : ¬se.hlen < hdrLen se.kind)
      (held : se.tmsSlot = some a ∨ se.tdiSlot = some a)
      (written : (s.mapSession k fun x => { x with rx := rest }).memWrite a off b = .next s1) :
      ByteEffect k b rest se s (s1.mapSession k fun x => { x with plen := x.plen + 1 })

/-- The count check closes the session, or takes both slots (R115). -/
theorem ByteEffect.validateCount {s : State} {k : Nat} {b : Byte} {rest : List Byte} {se : Session}
    (shift : se.kind = some .shift) (ninth : se.hlen = 9) :
    ByteEffect k b rest se s
      ((s.storeHeader k b rest se).validateCount k (se.hdr.setIfInBounds se.hlen b)) := by
  have header : se.hlen < hdrLen se.kind := by simp [shift, ninth, hdrLen, Kind.hdrLen]
  unfold State.validateCount
  split
  · exact .failed _ header
  · exact .failed _ header
  · exact .failed _ header
  · exact .failed _ header
  · next legal =>
    dsimp only
    split
    · exact .noSlot _ header
    · next a s1 tms =>
      split
      · exact .oneSlot _ a s1 header tms
      · next d s2 tdi => exact .counted a d s1 s2 shift ninth legal tms tdi

/-- The header branch of a byte step (R111). -/
theorem ByteEffect.headerByte {s : State} {k : Nat} {b : Byte} {rest : List Byte} {se : Session}
    (header : se.hlen < hdrLen se.kind) :
    ByteEffect k b rest se s ((s.mapSession k fun x => { x with rx := rest }).headerByte k b se) := by
  have stored : ((s.mapSession k fun x => { x with rx := rest }).mapSession k fun x =>
      { x with hdr := se.hdr.setIfInBounds se.hlen b, hlen := se.hlen + 1 }) = s.storeHeader k b rest se :=
    State.mapSession_mapSession _ _ _ _
  unfold State.headerByte
  dsimp only
  rw [stored]
  split
  · next second =>
    unfold State.classifyStep
    split
    · next kind known => exact .classified kind (by omega) known
    · exact .failed _ header
  · next notSecond =>
    split
    · next hkind => exact .stored header (fun _ => by omega) (by simp [hkind])
    · next kind hkind =>
      split
      · exact .failed _ header
      · split
        · next ninth => exact .validateCount (by rw [hkind, ninth.1]) (by omega)
        · next early =>
          refine .stored header (by simp [hkind]) ?_
          rintro ⟨shift, ninth⟩
          exact early ⟨Option.some.inj (hkind.symm.trans shift), by omega⟩

/-- Every answer of a byte step is one of these. -/
theorem State.decodeByte_effect {s t : State} {k : Nat} {se : Session} (at_k : s.sessions[k]? = some se) (rx : se.rx ≠ [])
    (h : s.decodeByte k = .next t) : ∃ b rest, se.rx = b :: rest ∧ ByteEffect k b rest se s t := by
  obtain ⟨b, rest, hrx⟩ := List.exists_cons_of_ne_nil rx
  refine ⟨b, rest, hrx, ?_⟩
  simp only [State.decodeByte, at_k, hrx] at h
  split at h
  · next header =>
    simp only [Host.Outcome.next.injEq] at h
    exact h ▸ .headerByte header
  · next past =>
    obtain ⟨a, off, u, held, written, rfl⟩ := State.payloadByte_eq_next h
    exact .payload a off u past held written

end Sys2Proof.Machine
end

section
/-! What a byte step leaves in the session it serves (10_state.md R37; 40_commands.md R110-R117). -/

namespace Sys2Proof.Machine

theorem modify_eq_set {α : Type} {l : List α} {k : Nat} {a : α} (f : α → α) (h : l[k]? = some a) :
    l.modify k f = l.set k (f a) := by
  simp [List.modify_eq_set_getElem?, h]

theorem State.acquireSlot_sessions {s t : State} {k a : Nat} {r : Role} (h : s.acquireSlot k r = some (a, t)) :
    t.sessions = s.sessions := by
  rw [((State.acquireSlot_eq_some s t k r a).1 h).2.2]; rfl

theorem State.memWrite_sessions {s t : State} {k off : Nat} {b : Byte} (h : s.memWrite k off b = .next t) :
    t.sessions = s.sessions := by
  rw [((State.memWrite_eq_next s t k off b).1 h).2]; rfl

theorem Session.positionOk_closed (c : Config) (code : CloseReason) (se : Session) :
    Session.positionOk c (se.closed code) := by
  simp [Session.positionOk, Session.closed]

/-- The count check passes exactly for the counts of R98 (c), (d). -/
theorem countError_eq_none {c : Config} {n : Word} : countError c n = none ↔ 1 ≤ n.toNat ∧ n.toNat ≤ c.maxBits := by
  unfold countError
  split_ifs <;> simp <;> omega

/-- Session `se` one byte of RX further on: the register position is consistent and counts the byte. -/
structure Session.OneByteOn (c : Config) (rest : List Byte) (se se' : Session) : Prop where
  position : Session.positionOk c se'
  consumed : se'.hlen + se'.plen = se.hlen + se.plen + 1
  rx : se'.rx = rest
  phase : se'.phase = se.phase
  tdoSlot : se'.tdoSlot = se.tdoSlot
  tx : se'.tx = se.tx
  seen : se'.seen = se.seen

/-- The session with a header byte stored (R111). -/
def Session.storeHeader (b : Byte) (rest : List Byte) (se : Session) : Session :=
  { se with rx := rest, hdr := se.hdr.setIfInBounds se.hlen b, hlen := se.hlen + 1 }

/-- A stored byte past the first two leaves those in place. -/
theorem getElem_setIfInBounds_header (h : Vector Byte 11) {j : Nat} (b : Byte) (hj : 2 ≤ j) :
    (h.setIfInBounds j b)[0] = h[0] ∧ (h.setIfInBounds j b)[1] = h[1] := by
  constructor <;> rw [Vector.getElem_setIfInBounds_ne] <;> omega

theorem Session.positionOk.classify {c : Config} {se : Session} {kind : Kind} (pos : Session.positionOk c se)
    (hkind : se.kind = some kind) :
    2 ≤ se.hlen ∧ se.hlen ≤ kind.hdrLen ∧ classify se.hdr[0] se.hdr[1] = some kind := by
  simp only [Session.positionOk, hkind] at pos
  obtain ⟨least, most, known, -⟩ := pos
  exact ⟨least, most, known⟩

/-- A stored header byte that needs no check, or passed it (R111, R113). -/
theorem Session.OneByteOn.stored {c : Config} {se : Session} (pos : Session.positionOk c se)
    (header : se.hlen < hdrLen se.kind) (first : se.kind = none → se.hlen ≠ 1)
    (early : ¬(se.kind = some .shift ∧ se.hlen = 9)) (b : Byte) (rest : List Byte) :
    Session.OneByteOn c rest se (se.storeHeader b rest) := by
  refine ⟨?_, by simp only [Session.storeHeader]; omega, rfl, rfl, rfl, rfl, rfl⟩
  obtain ⟨plen, tms, tdi⟩ := pos.header header
  cases hkind : se.kind with
  | none =>
    have := ((Session.positionOk_of_kind_none hkind).1 pos).1
    have := first hkind
    exact (Session.positionOk_of_kind_none (se := se.storeHeader b rest) hkind).2
      ⟨by simp only [Session.storeHeader]; omega, plen, tms, tdi⟩
  | some kind =>
    simp only [hkind, hdrLen] at header
    obtain ⟨least, -, known⟩ := pos.classify hkind
    obtain ⟨h0, h1⟩ := getElem_setIfInBounds_header se.hdr b least
    refine (Session.positionOk_of_kind_some (se := se.storeHeader b rest) hkind ?_).2
      ⟨Nat.le_succ_of_le least, header, by simp only [Session.storeHeader, h0, h1, known], plen, tms, tdi⟩
    rintro ⟨rfl, hlen⟩
    exact early ⟨hkind, Nat.succ.inj hlen⟩

/-- The second byte, stored and classified (R112). -/
theorem Session.OneByteOn.classified {c : Config} {se : Session} (pos : Session.positionOk c se) {kind : Kind}
    {b : Byte} {rest : List Byte} (second : se.hlen = 1)
    (known : classify (se.storeHeader b rest).hdr[0] (se.storeHeader b rest).hdr[1] = some kind) :
    Session.OneByteOn c rest se { se.storeHeader b rest with kind := some kind } := by
  have hkind : se.kind = none := by
    cases hkind : se.kind with
    | none => rfl
    | some kind' => have := (pos.classify hkind).1; omega
  obtain ⟨-, plen, tms, tdi⟩ := (Session.positionOk_of_kind_none hkind).1 pos
  have long : 2 ≤ kind.hdrLen := by cases kind <;> decide
  have two : (se.storeHeader b rest).hlen = 2 := congrArg Nat.succ second
  refine ⟨(Session.positionOk_of_kind_some (kind := kind) rfl (by simp [two])).2
    ⟨two.ge, two.le.trans long, known, plen, tms, tdi⟩, by simp only [Session.storeHeader]; omega, rfl, rfl, rfl, rfl, rfl⟩

/-- Byte 9 of a SHIFT, stored, with a legal count and both slots taken (R115). -/
theorem Session.OneByteOn.counted {c : Config} {se : Session} (pos : Session.positionOk c se) {b : Byte}
    {rest : List Byte} (shift : se.kind = some .shift) (ninth : se.hlen = 9)
    (legal : countError c (countOf (se.storeHeader b rest).hdr) = none) (a d : Nat) :
    Session.OneByteOn c rest se
      { se.storeHeader b rest with
        n := countOf (se.storeHeader b rest).hdr, tmsSlot := some a, tdiSlot := some d, plen := 0 } := by
  obtain ⟨plen, -, -⟩ := pos.header (by simp [shift, ninth, hdrLen, Kind.hdrLen])
  obtain ⟨least, -, known⟩ := pos.classify shift
  obtain ⟨h0, h1⟩ := getElem_setIfInBounds_header se.hdr b least
  obtain ⟨positive, most⟩ := countError_eq_none.1 legal
  refine ⟨(Session.positionOk_of_counted (by exact shift) (congrArg Nat.succ ninth)).2
    ⟨?_, rfl, positive, most, Nat.zero_le _, rfl, rfl⟩, ?_, rfl, rfl, rfl, rfl, rfl⟩
  · simp only [Session.storeHeader, h0, h1, known]
  · simp only [Session.storeHeader]; omega

/-- A payload byte (R117). -/
theorem Session.OneByteOn.payload {c : Config} {se : Session} (pos : Session.positionOk c se)
    (incomplete : se.complete = false) (past : ¬se.hlen < hdrLen se.kind) (rest : List Byte) :
    Session.OneByteOn c rest se { se with rx := rest, plen := se.plen + 1 } := by
  obtain ⟨shift, hlen, room⟩ := pos.payload incomplete past
  obtain ⟨known, count, positive, most, -, tms, tdi⟩ := (Session.positionOk_of_counted shift hlen).1 pos
  have position := (Session.positionOk_of_counted (se := { se with rx := rest, plen := se.plen + 1 }) shift hlen).2
    ⟨known, count, positive, most, room, tms, tdi⟩
  exact ⟨position, rfl, rfl, rfl, rfl, rfl, rfl⟩

theorem State.storeHeader_sessions {s : State} {k : Nat} {se : Session} (at_k : s.sessions[k]? = some se) (b : Byte)
    (rest : List Byte) : (s.storeHeader k b rest se).sessions = s.sessions.set k (se.storeHeader b rest) :=
  modify_eq_set _ at_k

/-- After a byte step the session is closed, or in the same phase; and where it was consistent and its command incomplete, it
is one byte further on. -/
theorem ByteEffect.session {s t : State} {k : Nat} {b : Byte} {rest : List Byte} {se : Session}
    (h : ByteEffect k b rest se s t) (at_k : s.sessions[k]? = some se) :
    ∃ se', t.sessions = s.sessions.set k se' ∧
      ((∃ code x, se' = Session.closed code x ∧ x.tx = se.tx ∧ x.seen = se.seen) ∨
        (se'.phase = se.phase ∧
          (Session.positionOk s.cfg se → se.complete = false → Session.OneByteOn s.cfg rest se se'))) := by
  have inRange : k < s.sessions.length := (List.getElem?_eq_some_iff.1 at_k).1
  have modified (x : Session) (f : Session → Session) : (s.sessions.set k x).modify k f = s.sessions.set k (f x) := by
    rw [modify_eq_set f (List.getElem?_set_self inRange), List.set_set]
  have storedAt := State.storeHeader_sessions at_k b rest
  cases h with
  | stored header first early => exact ⟨_, storedAt, .inr ⟨rfl, fun pos _ => .stored pos header first early b rest⟩⟩
  | classified kind second known =>
    refine ⟨{ se.storeHeader b rest with kind := some kind }, ?_, .inr ⟨rfl, fun pos _ => .classified pos second known⟩⟩
    rw [State.mapSession_sessions, storedAt, modified]
  | failed code header =>
    refine ⟨Session.closed code (se.storeHeader b rest), ?_, .inl ⟨code, _, rfl, rfl, rfl⟩⟩
    rw [State.close_sessions, storedAt, modified]
  | noSlot n header =>
    refine ⟨Session.closed .noSlot { se.storeHeader b rest with n := n }, ?_, .inl ⟨.noSlot, _, rfl, rfl, rfl⟩⟩
    rw [State.close_sessions, State.mapSession_sessions, storedAt, modified, modified]
  | oneSlot n a s1 header tms =>
    refine ⟨Session.closed .noSlot { se.storeHeader b rest with n := n, tmsSlot := some a }, ?_,
      .inl ⟨.noSlot, _, rfl, rfl, rfl⟩⟩
    rw [State.close_sessions, State.mapSession_sessions, State.acquireSlot_sessions tms, State.mapSession_sessions,
      storedAt, modified, modified, modified]
  | counted a d s1 s2 shift ninth legal tms tdi =>
    refine ⟨{ se.storeHeader b rest with
        n := countOf (se.storeHeader b rest).hdr, tmsSlot := some a, tdiSlot := some d, plen := 0 }, ?_,
      .inr ⟨rfl, fun pos _ => .counted pos shift ninth legal a d⟩⟩
    rw [State.mapSession_sessions, State.acquireSlot_sessions tdi, State.mapSession_sessions,
      State.acquireSlot_sessions tms, State.mapSession_sessions, storedAt, modified, modified, modified]
    rfl
  | payload a off s1 past held written =>
    refine ⟨{ se with rx := rest, plen := se.plen + 1 }, ?_,
      .inr ⟨rfl, fun pos incomplete => .payload pos incomplete past rest⟩⟩
    rw [State.mapSession_sessions, State.memWrite_sessions written, State.mapSession_sessions,
      modify_eq_set _ at_k, modified]

/-- Settles O35: the loop serves the byte step, and its session is closed or one byte further on. -/
theorem byteStepConsumesOneByte : Obligations.ByteStepConsumesOneByte := by
  unfold Obligations.ByteStepConsumesOneByte
  intro s t k w se b rest free at_k phase incomplete pos rx performed
  have stepped : State.decodeByte k { s with serving := k, write := w } = .next t := by
    have served : State.loopFree { s with serving := k, write := w } = true := free
    simpa [State.perform, State.sessionStep, State.awaitingStep, at_k, served, phase, incomplete, rx] using performed
  obtain ⟨b', rest', hrx, effect⟩ :=
    State.decodeByte_effect (s := { s with serving := k, write := w }) at_k (by simp [rx]) stepped
  obtain ⟨rfl, rfl⟩ := List.cons.inj (rx.symm.trans hrx)
  obtain ⟨se', hsessions, after⟩ := effect.session at_k
  refine ⟨se', ?_, ?_⟩
  · rw [hsessions]
    exact List.getElem?_set_self (List.getElem?_eq_some_iff.1 at_k).1
  · rcases after with ⟨code, x, rfl, tx, seen⟩ | ⟨-, on⟩
    · exact ⟨tx, seen, .inl ⟨rfl, rfl, rfl, rfl, rfl⟩⟩
    · obtain ⟨-, consumed, hrx, hphase, -, tx, seen⟩ := on pos incomplete
      exact ⟨tx, seen, .inr ⟨hphase.trans phase, hrx, consumed⟩⟩

end Sys2Proof.Machine
end

section
/-! The invariants over the registers outside sessions and arena: lock step, queue bounds, the resting clock and the
engine's flags, each kept by every effect (10_state.md R42, R43, R45; 41_shift_engine.md R145, R151, R154, R166). -/

namespace Sys2Proof.Machine

/-! ## A bit step's pulls -/

theorem Engine.pullA_osrcA_le {e : Engine} (h : e.osrcA ≤ 32) : e.pullA.osrcA ≤ 32 := by
  unfold Engine.pullA
  split
  · split
    · exact h
    · exact le_rfl
  · exact h

theorem Engine.pullB_osrcB_le {e : Engine} (h : e.osrcB ≤ 32) : e.pullB.osrcB ≤ 32 := by
  unfold Engine.pullB
  split
  · split
    · exact h
    · exact le_rfl
  · exact h

theorem Engine.pullA_txfA_length_le (e : Engine) : e.pullA.txfA.length ≤ e.txfA.length := by
  unfold Engine.pullA
  split
  · split
    · exact le_rfl
    · next queue => simp [queue]
  · exact le_rfl

theorem Engine.pullB_txfB_length_le (e : Engine) : e.pullB.txfB.length ≤ e.txfB.length := by
  unfold Engine.pullB
  split
  · split
    · exact le_rfl
    · next queue => simp [queue]
  · exact le_rfl

/-- SM_A and SM_B in lock step, as a property of the engine (R151, R154). -/
def Engine.LockStep (e : Engine) : Prop :=
  e.runA = e.runB ∧ e.cntA = e.cntB ∧ e.osrcA = e.osrcB ∧ e.txfA.length = e.txfB.length

/-- Two machines in lock step pull together: their shift registers run empty together, and their queues do. -/
theorem Engine.LockStep.pull {e : Engine} (h : e.LockStep) : e.pullA.pullB.LockStep := by
  obtain ⟨run, cnt, osrc, queues⟩ := h
  by_cases empty : e.osrcA = 0
  · have emptyB : e.osrcB = 0 := osrc ▸ empty
    cases hA : e.txfA with
    | nil =>
      have hB : e.txfB = [] := List.eq_nil_of_length_eq_zero (by rw [← queues, hA]; rfl)
      simp [Engine.LockStep, Engine.pullA, Engine.pullB, hA, hB, run, cnt, osrc]
    | cons a qA =>
      obtain ⟨b, qB, hB⟩ := List.exists_of_length_succ e.txfB (n := qA.length) (by rw [← queues, hA]; rfl)
      have rest : qA.length = qB.length := by simpa [hA, hB] using queues
      simp [Engine.LockStep, Engine.pullA, Engine.pullB, empty, emptyB, hA, hB, run, cnt, rest]
  · have fullB : e.osrcB ≠ 0 := osrc ▸ empty
    simp [Engine.LockStep, Engine.pullA, Engine.pullB, fullB, run, cnt, osrc, queues]

/-! ## The invariants -/

/-- Every effect keeps the machines in lock step (R151, R154). -/
theorem RegisterEffect.lockStep {s t : State} {i : Input} (h : RegisterEffect s t i) (lock : s.LockStep) : t.LockStep := by
  change s.e.LockStep at lock
  change t.e.LockStep
  have ⟨run, cnt, osrc, queues⟩ := lock
  cases h with
  | same _ _ _ e | divisor _ _ _ _ _ _ _ _ e | swEnd _ _ _ _ _ _ e => rw [e]; exact lock
  | hwStart _ _ _ _ _ _ _ _ e => rw [e]; exact ⟨rfl, rfl, rfl, rfl⟩
  | fault _ _ _ _ _ _ _ _ _ _ _ e => rw [e]; exact ⟨rfl, cnt, osrc, rfl⟩
  | feed _ _ a b _ _ _ _ e => rw [e]; exact ⟨run, cnt, osrc, by simp [queues]⟩
  | bitStep _ _ _ _ _ e =>
    obtain ⟨run, cnt, osrc, queues⟩ := Engine.LockStep.pull lock
    rw [e]
    exact ⟨run, congrArg (· - 1) cnt, congrArg (· - 1) osrc, queues⟩
  | hwEnd _ _ _ _ _ _ e => rw [e]; exact ⟨rfl, cnt, rfl, queues⟩
  | swStart _ _ _ _ _ _ _ e | hang _ _ _ e | drain _ _ _ _ _ _ _ e | rxPush _ _ _ _ _ e | swBitStep _ _ _ _ _ _ _ _ e =>
    rw [e]; exact ⟨run, cnt, osrc, queues⟩
  | reset x state => rw [state]; exact ⟨rfl, rfl, rfl, rfl⟩

/-- Every effect keeps the queues within QDEPTH and the shift registers' counts within 32 (R42, R43). -/
theorem RegisterEffect.engineBounds {s t : State} {i : Input} (h : RegisterEffect s t i) (bounds : s.EngineBounds) :
    t.EngineBounds := by
  have hcfg := h.cfg_eq
  obtain ⟨txfA, txfB, rxfB, osrcA, osrcB, isrcB⟩ := bounds
  rw [State.EngineBounds, hcfg]
  cases h with
  | same _ _ _ e | divisor _ _ _ _ _ _ _ _ e | swStart _ _ _ _ _ _ _ e | hang _ _ _ e | swBitStep _ _ _ _ _ _ _ _ e
  | swEnd _ _ _ _ _ _ e =>
    rw [e]; exact ⟨txfA, txfB, rxfB, osrcA, osrcB, isrcB⟩
  | hwStart _ _ _ _ _ _ _ _ e =>
    rw [e]; exact ⟨Nat.zero_le _, Nat.zero_le _, Nat.zero_le _, Nat.zero_le _, Nat.zero_le _, Nat.zero_le _⟩
  | fault _ _ _ _ _ _ _ _ _ _ _ e =>
    rw [e]; exact ⟨Nat.zero_le _, Nat.zero_le _, Nat.zero_le _, osrcA, osrcB, isrcB⟩
  | feed _ _ a b _ enabled _ _ e =>
    simp only [State.feedEnabled, Bool.and_eq_true, decide_eq_true_eq] at enabled
    obtain ⟨⟨-, roomA⟩, roomB⟩ := enabled
    rw [e]
    exact ⟨by simpa using roomA, by simpa using roomB, rxfB, osrcA, osrcB, isrcB⟩
  | drain _ a q _ queue _ _ e =>
    rw [e]
    exact ⟨txfA, txfB, by rw [queue] at rxfB; exact (Nat.le_succ _).trans rxfB, osrcA, osrcB, isrcB⟩
  | bitStep _ _ enabled _ _ e =>
    simp only [State.bitStepEnabled, Bool.and_eq_true, decide_eq_true_eq] at enabled
    have pulledA : s.e.pullA.pullB.txfA.length ≤ s.cfg.qdepth := by
      rw [Engine.pullB_txfA]; exact (Engine.pullA_txfA_length_le s.e).trans txfA
    have pulledB : s.e.pullA.pullB.txfB.length ≤ s.cfg.qdepth :=
      (Engine.pullB_txfB_length_le _).trans (by rwa [Engine.pullA_txfB])
    have countA : s.e.pullA.pullB.osrcA ≤ 32 := by rw [Engine.pullB_osrcA]; exact Engine.pullA_osrcA_le osrcA
    have countB : s.e.pullA.pullB.osrcB ≤ 32 := Engine.pullB_osrcB_le (by rwa [Engine.pullA_osrcB])
    rw [e]
    exact ⟨pulledA, pulledB, by simpa [Engine.shiftBit] using rxfB, (Nat.sub_le _ _).trans countA,
      (Nat.sub_le _ _).trans countB, by simpa [Engine.shiftBit] using enabled.2⟩
  | rxPush _ _ enabled _ _ e =>
    simp only [State.rxPushEnabled, Bool.and_eq_true, decide_eq_true_eq] at enabled
    rw [e]
    exact ⟨txfA, txfB, by simpa using enabled.2, osrcA, osrcB, Nat.zero_le _⟩
  | hwEnd _ _ _ _ _ _ e => rw [e]; exact ⟨txfA, txfB, rxfB, Nat.zero_le _, Nat.zero_le _, isrcB⟩
  | reset x state =>
    rw [state]; exact ⟨Nat.zero_le _, Nat.zero_le _, Nat.zero_le _, Nat.zero_le _, Nat.zero_le _, Nat.zero_le _⟩

/-- Every effect leaves the clock low, unless it leaves the backend invalid (R145, R159; 60_exceptions.md R219). -/
theorem RegisterEffect.clockLow {s t : State} {i : Input} (h : RegisterEffect s t i) (low : s.ClockLow) : t.ClockLow := by
  intro valid
  cases h with
  | same _ _ g _ p | divisor _ _ _ _ _ _ _ g _ p | hwStart _ _ _ _ _ _ _ g _ p | swStart _ _ _ _ _ _ g _ p
  | hang _ _ g _ p | feed _ _ _ _ _ _ _ g _ p | drain _ _ _ _ _ _ g _ p | rxPush _ _ _ _ g _ p
  | hwEnd _ _ _ _ _ g _ p | swEnd _ _ _ _ _ g _ p =>
    rw [p]; exact low ((congrArg Globals.backendValid g).symm.trans valid)
  | fault _ _ _ _ _ _ _ _ _ _ g => simp [g, Globals.faulted] at valid
  | bitStep _ _ _ _ _ _ p => rw [p]; rfl
  | swBitStep _ _ _ _ _ _ _ _ _ p => rw [p]
  | reset x state => rw [state]; rfl

/-- The engine is the one fixed at reset, a transfer has a valid backend, and only a hardware transfer hangs (R23, R24, R25;
41_shift_engine.md R166). -/
def State.EngineFlags (s : State) : Prop :=
  s.g.engine = s.cfg.engineKind ∧ (s.g.busy = true → s.g.backendValid = true) ∧
    (s.e.hung = true → s.g.busy = true ∧ s.g.engine = .hw)

theorem State.faultPossible_iff (s : State) :
    s.faultPossible = true ↔ s.g.busy = true ∧ s.e.hung = false ∧ s.g.engine = .hw := by
  simp [State.faultPossible, State.engineAnswers, and_assoc]

/-- Every effect keeps the engine's flags consistent. -/
theorem RegisterEffect.engineFlags {s t : State} {i : Input} (h : RegisterEffect s t i) (flags : s.EngineFlags) :
    t.EngineFlags := by
  have hcfg := h.cfg_eq
  obtain ⟨kind, valid, hung⟩ := flags
  rw [State.EngineFlags, hcfg]
  cases h with
  | same _ _ g e | divisor _ _ _ _ _ _ _ g e => rw [g, e]; exact ⟨kind, valid, hung⟩
  | hwStart _ _ _ _ validNow hw _ g e => rw [g, e]; exact ⟨kind, fun _ => validNow, fun _ => ⟨rfl, hw⟩⟩
  | swStart _ _ _ validNow _ _ g e => rw [g, e]; exact ⟨kind, fun _ => validNow, fun stuck => ⟨rfl, (hung stuck).2⟩⟩
  | fault _ _ _ _ _ _ possible _ _ _ g e =>
    have answers := ((State.faultPossible_iff s).1 possible).2.1
    rw [g, e]
    exact ⟨kind, nofun, fun stuck => absurd stuck (by simp [answers])⟩
  | hang possible _ g e =>
    obtain ⟨busy, -, hw⟩ := (State.faultPossible_iff s).1 possible
    rw [g, e]
    exact ⟨kind, valid, fun _ => ⟨busy, hw⟩⟩
  | feed _ _ _ _ _ _ _ g e | drain _ _ _ _ _ _ g e | rxPush _ _ _ _ g e | swBitStep _ _ _ _ _ _ _ g e =>
    rw [g, e]; exact ⟨kind, valid, hung⟩
  | bitStep _ _ _ _ g e => rw [g, e]; exact ⟨kind, valid, by simpa [Engine.shiftBit] using hung⟩
  | hwEnd _ _ answers _ _ g e | swEnd _ _ answers _ _ g e =>
    have answers := ((State.engineAnswers_iff s).1 answers).2
    rw [g, e]
    exact ⟨kind, nofun, fun stuck => absurd stuck (by simp [answers])⟩
  | reset x state => rw [state]; exact ⟨rfl, nofun, nofun⟩

end Sys2Proof.Machine
end

section
/-! The phases of the sessions (42_session.md R185): every way one input can change them, together with BUSY, OWNER and
HALTED, as one relation. Single flight (R201) and the halt (60_exceptions.md R221) are read off it. -/

namespace Sys2Proof.Machine

/-! ## Replies -/

/-- The session with reply bytes appended to TX, and those the host received to `seen` (42_session.md R192). -/
def Session.transcribe (tx seen : List Byte) (se : Session) : Session :=
  { se with tx := se.tx ++ tx, seen := se.seen ++ seen }

/-- The session back at the start of a command (40_commands.md R119). -/
def Session.restarted (se : Session) : Session :=
  { se with hlen := 0, plen := 0, kind := none, phase := .awaitingCommand }

theorem State.restart_eq (s : State) (k : Nat) : s.restart k = s.mapSession k Session.restarted := rfl

/-- A fresh connection (42_session.md R186). -/
def Session.accepted (se : Session) : Session :=
  { se with
    phase := .accepted, hlen := 0, plen := 0, kind := none, tmsSlot := none, tdiSlot := none, tdoSlot := none, tx := []
    reason := none, rx := [], eof := false, gone := false, seen := [] }

theorem State.acceptInto_eq (s : State) (k : Nat) : s.acceptInto k = s.mapSession k Session.accepted := rfl

theorem State.releaseSlots_sessions (s : State) (k : Nat) :
    (s.releaseSlots k).sessions = s.sessions.modify k Session.released := by
  cases at_k : s.sessions[k]? with
  | none => rw [State.releaseSlots_of_none s k at_k, State.modify_of_none _ _ _ at_k]
  | some se => rw [State.releaseSlots_of_some s k se at_k]

/-- A reply is written and the rule goes on, or the session closes with `E_WRITE` (42_session.md R192, R193). -/
theorem State.emitThen_cases {s : State} {k : Nat} {se : Session} (at_k : s.sessions[k]? = some se) (bytes : List Byte)
    (cont : State → State) :
    ∃ tx seen, s.emitThen k bytes cont = cont (s.mapSession k (Session.transcribe tx seen)) ∨
      s.emitThen k bytes cont = (s.mapSession k (Session.transcribe tx seen)).close k .write := by
  rw [State.emitThen_of_some s k bytes cont se at_k]
  split
  · exact ⟨bytes, bytes, .inl rfl⟩
  · refine ⟨[], bytes.take s.write.delivered, .inr ?_⟩
    have kept : (fun x : Session => { x with seen := x.seen ++ bytes.take s.write.delivered }) =
        Session.transcribe [] (bytes.take s.write.delivered) := by
      funext x
      simp [Session.transcribe]
    rw [kept]

/-- GETINFO and SETTCK answer with a reply, after a possible write of `G.DIV` (40_commands.md R116, R121). -/
theorem exec_reply {s t : State} {i : Instr} (h : exec i s = .next t) (reply : i.kind ≠ .shift) :
    ∃ div bytes, t =
      State.emitThen s.serving bytes (State.restart s.serving) { s with g := { s.g with div := div } } := by
  cases i with
  | getinfo =>
    simp only [exec, execGetInfo] at h
    split at h
    · simp at h
    · simp only [Host.Outcome.next.injEq] at h
      exact ⟨s.g.div, _, h.symm⟩
  | settck p =>
    simp only [exec, execSetTck, State.setDivisor] at h
    split at h
    · simp at h
    · simp only [Host.Outcome.next.injEq] at h
      split at h
      · exact ⟨_, _, h.symm⟩
      · exact ⟨s.g.div, _, h.symm⟩
  | shift n tms tdi => exact absurd rfl reply

@[simp] theorem State.transferStart_cfg (s : State) (n : Word) : (s.transferStart n).cfg = s.cfg := by
  unfold State.transferStart; split <;> rfl
@[simp] theorem State.transferStart_g (s : State) (n : Word) : (s.transferStart n).g = s.g := by
  unfold State.transferStart; split <;> rfl
@[simp] theorem State.transferStart_sessions (s : State) (n : Word) : (s.transferStart n).sessions = s.sessions := by
  unfold State.transferStart; split <;> rfl
@[simp] theorem State.transferStart_arena (s : State) (n : Word) : (s.transferStart n).arena = s.arena := by
  unfold State.transferStart; split <;> rfl

/-! ## Phases by session -/

/-- The phase of session `j`, if there is such a session. -/
def State.phaseAt (s : State) (j : Nat) : Option Phase := (s.sessions[j]?).map Session.phase

theorem State.phaseAt_of_some {s : State} {j : Nat} {se : Session} (at_j : s.sessions[j]? = some se) :
    s.phaseAt j = some se.phase := by
  simp [State.phaseAt, at_j]

theorem State.phaseAt_eq_of_sessions {s t : State} (h : t.sessions = s.sessions) (j : Nat) : t.phaseAt j = s.phaseAt j := by
  simp [State.phaseAt, h]

theorem State.phaseAt_of_modify {s t : State} {k : Nat} {f : Session → Session}
    (h : t.sessions = s.sessions.modify k f) (j : Nat) :
    t.phaseAt j = if k = j then (s.sessions[j]?).map fun se => (f se).phase else s.phaseAt j := by
  simp only [State.phaseAt, h, List.getElem?_modify]
  split <;> simp [Function.comp_def]

theorem State.phaseAt_of_modify_ne {s t : State} {k : Nat} {f : Session → Session}
    (h : t.sessions = s.sessions.modify k f) (j : Nat) (hj : j ≠ k) : t.phaseAt j = s.phaseAt j := by
  rw [State.phaseAt_of_modify h, if_neg hj.symm]

theorem State.phaseAt_of_modify_self {s t : State} {k : Nat} {f : Session → Session} {se : Session}
    (h : t.sessions = s.sessions.modify k f) (at_k : s.sessions[k]? = some se) : t.phaseAt k = some (f se).phase := by
  rw [State.phaseAt_of_modify h, if_pos rfl, at_k, Option.map_some]

/-- An update that keeps the phase of the session it touches keeps all phases. -/
theorem State.phaseAt_of_modify_keep {s t : State} {k : Nat} {f : Session → Session}
    (h : t.sessions = s.sessions.modify k f) (keep : ∀ se, (f se).phase = se.phase) (j : Nat) :
    t.phaseAt j = s.phaseAt j := by
  rw [State.phaseAt_of_modify h]
  split
  · simp [State.phaseAt, keep]
  · rfl

theorem State.phaseAt_of_set_self {s t : State} {k : Nat} {se se' : Session} (h : t.sessions = s.sessions.set k se')
    (at_k : s.sessions[k]? = some se) : t.phaseAt k = some se'.phase := by
  rw [State.phaseAt, h, List.getElem?_set_self (List.getElem?_eq_some_iff.1 at_k).1, Option.map_some]

theorem State.phaseAt_of_set_ne {s t : State} {k : Nat} {se' : Session} (h : t.sessions = s.sessions.set k se') (j : Nat)
    (hj : j ≠ k) : t.phaseAt j = s.phaseAt j := by
  rw [State.phaseAt, h, List.getElem?_set_ne hj.symm, State.phaseAt]

/-! ## The halt -/

theorem State.phaseAt_closeIfOpen (s : State) (k j : Nat) :
    (s.closeIfOpen k).phaseAt j = (s.phaseAt j).map fun p => if j = k then .closed else p := by
  by_cases hj : j = k
  · subst hj
    unfold State.closeIfOpen
    cases at_j : s.sessions[j]? with
    | none => simp [State.phaseAt, at_j]
    | some se =>
      simp only [if_true]
      split
      · next closed => rw [State.phaseAt_of_some at_j, closed]; rfl
      · rw [State.phaseAt_of_modify_self (State.close_sessions s j .halted) at_j, State.phaseAt_of_some at_j]; rfl
  · have same : (s.closeIfOpen k).phaseAt j = s.phaseAt j := by
      unfold State.closeIfOpen
      split
      · rfl
      · split
        · rfl
        · exact State.phaseAt_of_modify_ne (State.close_sessions s k .halted) j hj
    simp [same, hj]

theorem State.phaseAt_foldl_closeIfOpen (l : List Nat) (s : State) (j : Nat) :
    (l.foldl (fun s k => s.closeIfOpen k) s).phaseAt j = (s.phaseAt j).map fun p => if j ∈ l then .closed else p := by
  induction l generalizing s with
  | nil => simp
  | cons k l ih =>
    rw [List.foldl_cons, ih, State.phaseAt_closeIfOpen, Option.map_map]
    congr 1
    funext p
    by_cases hj : j = k <;> simp [hj]

/-- A halt leaves every session closed (R221). -/
theorem State.halt_closed (s : State) (j : Nat) (p : Phase) (h : s.halt.phaseAt j = some p) : p = .closed := by
  rw [State.halt, State.phaseAt_foldl_closeIfOpen, Option.map_eq_some_iff] at h
  obtain ⟨q, hq, rfl⟩ := h
  obtain ⟨se, at_j, -⟩ := Option.map_eq_some_iff.1 hq
  rw [if_pos (List.mem_range.2 (List.getElem?_eq_some_iff.1 at_j).1)]

/-- What every close keeps, and a change outside parameters, sessions and arena too, a halt keeps (R221). -/
theorem State.halt_induction {P : State → Prop}
    (registers : ∀ {u v : State}, P u → v.cfg = u.cfg → v.sessions = u.sessions → v.arena = u.arena → P v)
    (close : ∀ {u : State} (k : Nat) (code : CloseReason), P u → P (u.close k code)) {s : State} (h : P s) : P s.halt := by
  have each (l : List Nat) (u : State) (hu : P u) : P (l.foldl (fun s k => s.closeIfOpen k) u) := by
    induction l generalizing u with
    | nil => exact hu
    | cons k l ih =>
      refine ih _ ?_
      change P (u.closeIfOpen k)
      unfold State.closeIfOpen
      split
      · exact hu
      · split
        · exact hu
        · exact close k .halted hu
  exact each _ _ (registers h rfl rfl rfl)

/-- The same of a hardware fault (R219). -/
theorem State.hwFault_induction {P : State → Prop}
    (registers : ∀ {u v : State}, P u → v.cfg = u.cfg → v.sessions = u.sessions → v.arena = u.arena → P v)
    (close : ∀ {u : State} (k : Nat) (code : CloseReason), P u → P (u.close k code)) {s t : State} (h : P s)
    {tck tms tdi : Bool} {x : TargetState} (faulted : s.hwFault tck tms tdi x = .next t) : P t := by
  obtain ⟨k, -, rfl⟩ := State.hwFault_eq_next faulted
  dsimp only
  split
  · refine State.halt_induction registers close (close k .hwFault ?_)
    exact registers h rfl rfl rfl
  · refine close k .hwFault ?_
    exact registers h rfl rfl rfl

/-! ## The relation -/

/-- BUSY, OWNER and HALTED. -/
def Globals.flight (g : Globals) : Bool × Option Nat × Bool := (g.busy, g.owner, g.halted)

/-- What one input can do to the phases, BUSY, OWNER and HALTED (R185, R201; 60_exceptions.md R221). -/
inductive PhaseEffect (s t : State) : Prop where
  | kept (flight : t.g.flight = s.g.flight) (same : ∀ j, t.phaseAt j = s.phaseAt j)
  | moved (k : Nat) (p q : Phase) (flight : t.g.flight = s.g.flight) (before : s.phaseAt k = some p)
      (after : t.phaseAt k = some q) (others : ∀ j, j ≠ k → t.phaseAt j = s.phaseAt j) (idle : p ≠ .dispatching)
      (quiet : q = .closed ∨ s.loopFree = true)
      (table : q = .closed ∨ q = p ∨ (p = .closed ∧ q = .accepted) ∨ (p = .accepted ∧ q = .awaitingCommand))
  | started (k : Nat) (free : s.loopFree = true) (flight : t.g.flight = (true, some k, s.g.halted))
      (before : s.phaseAt k = some .awaitingCommand) (after : t.phaseAt k = some .dispatching)
      (others : ∀ j, j ≠ k → t.phaseAt j = s.phaseAt j)
  | freed (k : Nat) (busy : s.g.busy = true) (owner : s.g.owner = some k)
      (flight : t.g.flight = (false, none, s.g.halted))
      (after : ∀ q, t.phaseAt k = some q → q = .awaitingCommand ∨ q = .closed)
      (others : ∀ j, j ≠ k → t.phaseAt j = s.phaseAt j)
  | cleared (idle : t.g.busy = false ∧ t.g.owner = none)
      (policy : t.g.halted = true → t.cfg.hwFaultPolicy = .haltAll)
      (closed : ∀ j p, t.phaseAt j = some p → p = .closed)

/-- The reply of a transfer and what follows it: the owner is back at the start of a command with its slots released, or
closed (40_commands.md R127, R130). -/
theorem State.shiftEmit_sessions {s : State} {k : Nat} {se : Session} (at_k : s.sessions[k]? = some se)
    (bytes : List Byte) :
    ∃ tx seen,
      (s.emitThen k bytes (State.shiftRelease k)).sessions =
          s.sessions.modify k (Session.restarted ∘ Session.released ∘ Session.transcribe tx seen) ∨
        (s.emitThen k bytes (State.shiftRelease k)).sessions =
          s.sessions.modify k (Session.closed .write ∘ Session.transcribe tx seen) := by
  obtain ⟨tx, seen, emitted | emitted⟩ := State.emitThen_cases at_k bytes (State.shiftRelease k)
  · refine ⟨tx, seen, .inl ?_⟩
    rw [emitted, State.shiftRelease, State.restart_eq, State.mapSession_sessions, State.releaseSlots_sessions,
      State.mapSession_sessions, List.modify_modify_eq, List.modify_modify_eq]
    rfl
  · refine ⟨tx, seen, .inr ?_⟩
    rw [emitted, State.close_sessions, State.mapSession_sessions, List.modify_modify_eq]

/-- A session that is not dispatching is updated by a move of the table of R185. -/
theorem PhaseEffect.of_modify {s t : State} {k : Nat} {se : Session} {f : Session → Session}
    (at_k : s.sessions[k]? = some se) (idle : se.phase ≠ .dispatching) (flight : t.g.flight = s.g.flight)
    (sessions : t.sessions = s.sessions.modify k f) (quiet : (f se).phase = .closed ∨ s.loopFree = true)
    (table : (f se).phase = .closed ∨ (f se).phase = se.phase ∨ (se.phase = .closed ∧ (f se).phase = .accepted) ∨
      (se.phase = .accepted ∧ (f se).phase = .awaitingCommand)) : PhaseEffect s t :=
  .moved k se.phase (f se).phase flight (State.phaseAt_of_some at_k) (State.phaseAt_of_modify_self sessions at_k)
    (State.phaseAt_of_modify_ne sessions) idle quiet table

/-- A session that is not dispatching closes. -/
theorem PhaseEffect.of_closed {s t : State} {k : Nat} {se : Session} {f : Session → Session}
    (at_k : s.sessions[k]? = some se) (idle : se.phase ≠ .dispatching) (flight : t.g.flight = s.g.flight)
    (sessions : t.sessions = s.sessions.modify k f) (closed : ∀ x, (f x).phase = .closed) : PhaseEffect s t :=
  .of_modify at_k idle flight sessions (.inl (closed se)) (.inl (closed se))

/-- An execution in the loop replies, starts a transfer or closes its session (40_commands.md R116, R121, R124). -/
theorem exec_phases {s t : State} {i : Instr} {se : Session} (h : exec i s = .next t) (free : s.loopFree = true)
    (at_k : s.sessions[s.serving]? = some se) (phase : se.phase = .awaitingCommand) : PhaseEffect s t := by
  have idle : se.phase ≠ .dispatching := by simp [phase]
  cases i with
  | shift n tms tdi =>
    obtain ⟨se', at_k', ⟨-, rfl⟩ | ⟨-, -, rfl⟩ | ⟨-, -, o, sl, -, -, -, rfl⟩⟩ := execShift_eq_next h
    · exact .of_closed at_k idle (by simp [Globals.flight])
        ((State.close_sessions _ _ _).trans (List.modify_modify_eq ..)) fun _ => rfl
    · exact .of_closed at_k idle (by simp [Globals.flight])
        ((State.close_sessions _ _ _).trans (List.modify_modify_eq ..)) fun _ => rfl
    · have sessions := State.transferStart_sessions
        { s with
          sessions := s.sessions.modify s.serving fun se => { se with phase := .dispatching, tdoSlot := some o }
          arena := s.arena.modify o fun _ => { owner := some (s.serving, .tdo), bytes := [] }
          g := { s.g with busy := true, owner := some s.serving } } n
      exact .started s.serving free (by rw [State.transferStart_g]; rfl) (phase ▸ State.phaseAt_of_some at_k)
        (State.phaseAt_of_modify_self sessions at_k) (State.phaseAt_of_modify_ne sessions)
  | getinfo | settck =>
    obtain ⟨div, bytes, rfl⟩ := exec_reply h nofun
    obtain ⟨tx, seen, emitted | emitted⟩ :=
      State.emitThen_cases (s := { s with g := { s.g with div := div } }) at_k bytes (State.restart s.serving)
    · rw [emitted]
      have sessions := State.restart_sessions
        (State.mapSession s.serving (Session.transcribe tx seen) { s with g := { s.g with div := div } }) s.serving
      rw [State.mapSession_sessions, List.modify_modify_eq] at sessions
      exact .of_modify at_k idle rfl sessions (.inr free) (.inr (.inl phase.symm))
    · rw [emitted]
      exact .of_closed at_k idle (by simp [Globals.flight])
        ((State.close_sessions _ _ _).trans (List.modify_modify_eq ..)) fun _ => rfl

/-- The end of a transfer returns the owner to the start of a command, or closes it (40_commands.md R127, R130). -/
theorem State.shiftEnd_phases {s t : State} {e : Engine} {k : Nat} {se : Session}
    (h : State.shiftEnd k se { s with e := e } = .next t)
    (busy : s.g.busy = true) (owner : s.g.owner = some k) (at_k : s.sessions[k]? = some se) : PhaseEffect s t := by
  have flight : t.g.flight = (false, none, s.g.halted) := by rw [(State.shiftEnd_registers h).g]; rfl
  obtain ⟨o, bytes, -, -, rfl⟩ := State.shiftEnd_eq_next h
  obtain ⟨tx, seen, sessions | sessions⟩ :=
    State.shiftEmit_sessions (s := { s with e := e, g := { s.g with busy := false, owner := none } }) at_k bytes
  · refine .freed k busy owner flight (fun q hq => .inl ?_) (State.phaseAt_of_modify_ne sessions)
    exact Option.some.inj (hq.symm.trans (State.phaseAt_of_modify_self sessions at_k))
  · refine .freed k busy owner flight (fun q hq => .inr ?_) (State.phaseAt_of_modify_ne sessions)
    exact Option.some.inj (hq.symm.trans (State.phaseAt_of_modify_self sessions at_k))

/-- A hardware fault closes the owner; with the halt it closes every session (60_exceptions.md R219, R221). -/
theorem State.hwFault_phases {s t : State} {tck tms tdi : Bool} {x : TargetState}
    (h : s.hwFault tck tms tdi x = .next t) (busy : s.g.busy = true) : PhaseEffect s t := by
  obtain ⟨k, halts, owner, policy, registers⟩ := State.hwFault_registers h
  obtain ⟨k', owner', stopped⟩ := State.hwFault_eq_next h
  obtain rfl : k = k' := Option.some.inj (owner.symm.trans owner')
  dsimp only at stopped
  split at stopped
  · next halting =>
    refine .cleared (by rw [registers.g]; exact ⟨rfl, rfl⟩) (fun _ => by rw [registers.cfg]; exact halting) ?_
    rw [stopped]
    exact State.halt_closed _
  · next going =>
    have quiet : halts = false := by simpa [going] using policy
    have sessions : t.sessions = s.sessions.modify k (Session.closed .hwFault) := by rw [stopped, State.close_sessions]
    refine .freed k busy owner (by rw [registers.g, quiet]; simp [Globals.flight, Globals.faulted]) (fun q hq => .inr ?_)
      (State.phaseAt_of_modify_ne sessions)
    rw [State.phaseAt_of_modify sessions, if_pos rfl, Option.map_eq_some_iff] at hq
    obtain ⟨se, -, rfl⟩ := hq
    rfl

/-- Every effect of an input is one of these on the phases. -/
theorem Effect.phases {s t : State} {i : Input} (h : Effect i s t) : PhaseEffect s t := by
  have kept {u : State} (flight : u.g.flight = s.g.flight) (sessions : u.sessions = s.sessions) : PhaseEffect s u :=
    .kept flight (State.phaseAt_eq_of_sessions sessions)
  cases h with
  | nothing | moved | hung => exact kept rfl rfl
  | accepted _ k se free at_k phase =>
    exact .of_modify at_k (by simp [phase]) rfl (State.mapSession_sessions s k Session.accepted) (.inr free)
      (.inr (.inr (.inl ⟨phase, rfl⟩)))
  | arrived _ k bytes =>
    exact .kept rfl (State.phaseAt_of_modify_keep rfl fun se => by split <;> rfl)
  | ended => exact .kept rfl (State.phaseAt_of_modify_keep rfl fun se => by split <;> rfl)
  | lost => exact .kept rfl (State.phaseAt_of_modify_keep rfl fun _ => rfl)
  | peerClosed _ k se at_k phase =>
    exact .of_closed at_k (by rcases phase with phase | phase <;> simp [phase]) (by simp) (State.close_sessions _ _ _)
      fun _ => rfl
  | expired _ k se at_k phase =>
    exact .of_closed at_k (by simp [phase]) (by simp) (State.close_sessions _ _ _) fun _ => rfl
  | faulted _ _ tck tms tdi x possible taken =>
    exact State.hwFault_phases taken ((State.faultPossible_iff s).1 possible).1
  | reset _ x =>
    refine .cleared ⟨rfl, rfl⟩ nofun fun j p hp => ?_
    obtain ⟨se, at_j, rfl⟩ := Option.map_eq_some_iff.1 hp
    rw [List.eq_of_mem_replicate (List.mem_of_getElem? at_j)]
    rfl
  | started _ k w se free at_k phase =>
    exact .of_modify at_k (by simp [phase]) rfl (State.init_sessions s k) (.inr free)
      (.inr (.inr (.inr ⟨phase, rfl⟩)))
  | executed _ _ k w se i free at_k phase complete served held taken =>
    subst served
    exact exec_phases taken free at_k phase
  | decoded _ _ k w se free at_k phase complete rx taken =>
    obtain ⟨b, rest, -, effect⟩ := State.decodeByte_effect at_k rx taken
    obtain ⟨se', sessions, after⟩ := effect.session at_k
    have table : se'.phase = .closed ∨ se'.phase = se.phase := by
      rcases after with ⟨code, x, rfl, -⟩ | ⟨same, -⟩
      · exact .inl rfl
      · exact .inr same
    exact .moved k se.phase se'.phase (by rw [(OnlyStorage.decodeByte taken).g]) (State.phaseAt_of_some at_k)
      (State.phaseAt_of_set_self sessions at_k) (State.phaseAt_of_set_ne sessions) (by simp [phase]) (.inr free)
      (table.imp_right .inl)
  | streamEnded _ k w se free at_k phase complete rx eof =>
    unfold State.endOfStream
    split <;> exact .of_closed at_k (by simp [phase]) (by simp) (State.close_sessions _ _ _) fun _ => rfl
  | engine _ _ e w k se answers owner at_k enabled taken =>
    have busy := ((State.engineAnswers_iff s).1 answers).1
    cases e with
    | feed =>
      obtain ⟨x, d, a, b, -, -, -, -, rfl⟩ := State.feed_eq_next taken
      exact kept rfl rfl
    | drain =>
      rcases State.drain_eq_next taken with ⟨-, rfl⟩ | ⟨x, q, o, -, -, rfl⟩ <;> exact kept rfl rfl
    | bitStep =>
      simp only [State.engineEffect, Host.Outcome.next.injEq] at taken
      exact taken ▸ kept rfl rfl
    | rxPush =>
      simp only [State.engineEffect, Host.Outcome.next.injEq] at taken
      exact taken ▸ kept rfl rfl
    | hwEnd => exact State.shiftEnd_phases taken busy owner at_k
    | swBitStep =>
      obtain ⟨x, d, o, a, b, old, -, -, -, -, -, -, rfl⟩ := State.swBitStep_eq_next taken
      exact kept rfl rfl
    | swEnd => exact State.shiftEnd_phases (e := s.e) taken busy owner at_k

/-! ## Single flight and the halt -/

/-- Single flight as one equation each for BUSY and the dispatching sessions (R201). -/
theorem State.singleFlight_iff (s : State) :
    s.SingleFlight ↔
      s.g.busy = s.g.owner.isSome ∧ ∀ j, s.phaseAt j = some .dispatching ↔ s.g.owner = some j := by
  have dispatching (j : Nat) :
      s.phaseAt j = some .dispatching ↔ ∃ se, s.sessions[j]? = some se ∧ se.phase = .dispatching :=
    Option.map_eq_some_iff
  constructor
  · rintro ⟨idle, flying⟩
    cases busy : s.g.busy with
    | false =>
      obtain ⟨owner, quiet⟩ := idle busy
      refine ⟨by simp [owner], fun j => ?_⟩
      simp only [dispatching, owner, reduceCtorEq, iff_false]
      rintro ⟨se, at_j, phase⟩
      exact quiet se (List.mem_of_getElem? at_j) phase
    | true =>
      obtain ⟨k, owner, ⟨se, at_k, phase⟩, unique⟩ := flying busy
      refine ⟨by simp [owner], fun j => ?_⟩
      rw [dispatching, owner, Option.some.injEq]
      constructor
      · rintro ⟨sj, at_j, phase'⟩
        exact (unique j sj at_j phase').symm
      · rintro rfl
        exact ⟨se, at_k, phase⟩
  · rintro ⟨busy, phases⟩
    cases owner : s.g.owner with
    | none =>
      have idle : s.g.busy = false := by simp [busy, owner]
      refine ⟨fun _ => ⟨owner, fun se mem phase => ?_⟩, by simp [idle]⟩
      obtain ⟨j, at_j⟩ := List.getElem?_of_mem mem
      simpa [owner] using (phases j).1 ((dispatching j).2 ⟨se, at_j, phase⟩)
    | some k =>
      have flying : s.g.busy = true := by simp [busy, owner]
      refine ⟨by simp [flying], fun _ => ⟨k, owner, (dispatching k).1 ((phases k).2 owner), fun j sj at_j phase => ?_⟩⟩
      exact (Option.some.inj (owner.symm.trans ((phases j).1 ((dispatching j).2 ⟨sj, at_j, phase⟩)))).symm

theorem Globals.flight_eq {g : Globals} {busy halted : Bool} {owner : Option Nat} :
    g.flight = (busy, owner, halted) ↔ g.busy = busy ∧ g.owner = owner ∧ g.halted = halted := by
  simp [Globals.flight]

/-- Every effect keeps single flight (R201). -/
theorem PhaseEffect.singleFlight {s t : State} (h : PhaseEffect s t) (single : s.SingleFlight) : t.SingleFlight := by
  rw [State.singleFlight_iff] at single ⊢
  obtain ⟨busy, phases⟩ := single
  cases h with
  | kept flight same =>
    obtain ⟨hb, ho, -⟩ := Globals.flight_eq.1 flight
    exact ⟨by rw [hb, ho, busy], fun j => by rw [same, ho, phases]⟩
  | moved k p q flight before after others idle quiet table =>
    obtain ⟨hb, ho, -⟩ := Globals.flight_eq.1 flight
    refine ⟨by rw [hb, ho, busy], fun j => ?_⟩
    by_cases hj : j = k
    · subst hj
      have still : q ≠ .dispatching := by
        rcases table with rfl | rfl | ⟨-, rfl⟩ | ⟨-, rfl⟩
        · nofun
        · exact idle
        · nofun
        · nofun
      have notOwner : s.g.owner ≠ some j := fun owner => by simpa [before, idle] using (phases j).2 owner
      simp [after, still, ho, notOwner]
    · rw [others j hj, ho, phases]
  | started k free flight before after others =>
    obtain ⟨hb, ho, -⟩ := Globals.flight_eq.1 flight
    have none : s.g.owner = none := by simpa [((State.loopFree_iff s).1 free).1] using busy
    refine ⟨by rw [hb, ho]; rfl, fun j => ?_⟩
    by_cases hj : j = k
    · subst hj; simp [after, ho]
    · rw [others j hj, ho, phases, none]; simp [Ne.symm hj]
  | freed k hbusy owner flight after others =>
    obtain ⟨hb, ho, -⟩ := Globals.flight_eq.1 flight
    refine ⟨by rw [hb, ho]; rfl, fun j => ?_⟩
    rw [ho]
    simp only [reduceCtorEq, iff_false]
    by_cases hj : j = k
    · subst hj
      intro still
      simpa using after _ still
    · rw [others j hj, phases, owner]; simp [Ne.symm hj]
  | cleared idle policy closed =>
    refine ⟨by rw [idle.1, idle.2]; rfl, fun j => ?_⟩
    rw [idle.2]
    simp only [reduceCtorEq, iff_false]
    intro still
    simpa using closed j _ still

/-- Every effect keeps a halted block closed (10_state.md R27, 60_exceptions.md R221). -/
theorem PhaseEffect.haltedClosed {s t : State} (h : PhaseEffect s t) (cfg : t.cfg = s.cfg) (halt : s.HaltedClosed) :
    t.HaltedClosed := by
  have closed_iff (u : State) : (∀ se ∈ u.sessions, se.phase = .closed) ↔ ∀ j p, u.phaseAt j = some p → p = .closed := by
    constructor
    · intro all j p hp
      obtain ⟨se, at_j, rfl⟩ := Option.map_eq_some_iff.1 hp
      exact all se (List.mem_of_getElem? at_j)
    · intro all se mem
      obtain ⟨j, at_j⟩ := List.getElem?_of_mem mem
      exact all j _ (State.phaseAt_of_some at_j)
  intro halted
  rw [closed_iff, cfg]
  cases h with
  | kept flight same =>
    obtain ⟨hb, -, hh⟩ := Globals.flight_eq.1 flight
    obtain ⟨busy, policy, all⟩ := halt (hh ▸ halted)
    exact ⟨hb.trans busy, policy, fun j p hp => (closed_iff s).1 all j p (same j ▸ hp)⟩
  | moved k p q flight before after others idle quiet table =>
    obtain ⟨hb, -, hh⟩ := Globals.flight_eq.1 flight
    obtain ⟨busy, policy, all⟩ := halt (hh ▸ halted)
    refine ⟨hb.trans busy, policy, fun j r hr => ?_⟩
    by_cases hj : j = k
    · subst hj
      obtain rfl : q = r := Option.some.inj (after.symm.trans hr)
      exact quiet.resolve_right (by simp [State.loopFree_iff, ← hh, halted])
    · exact (closed_iff s).1 all j r (others j hj ▸ hr)
  | started k free flight =>
    obtain ⟨-, -, hh⟩ := Globals.flight_eq.1 flight
    exact absurd (hh.symm.trans halted) (by simp [((State.loopFree_iff s).1 free).2])
  | freed k busy owner flight =>
    obtain ⟨-, -, hh⟩ := Globals.flight_eq.1 flight
    exact absurd (halt (hh ▸ halted)).1 (by simp [busy])
  | cleared idle policy closed => exact ⟨idle.1, cfg ▸ policy halted, closed⟩

end Sys2Proof.Machine
end

section
/-! Invariants of sessions and arena that every storage operation keeps: such a predicate is kept by every effect of an
input. The canonical form of the bytes and the numbers of slots are two such predicates (20_memory.md R60, R66-R68;
10_state.md R20). -/

namespace Sys2Proof.Machine

/-- `P` speaks of parameters, sessions and arena only, and each storage operation keeps it. -/
structure StorageInvariant (P : State → Prop) : Prop where
  registers : ∀ {s t : State}, P s → t.cfg = s.cfg → t.sessions = s.sessions → t.arena = s.arena → P t
  mapSession : ∀ {s : State} (k : Nat) (f : Session → Session), P s → P (s.mapSession k f)
  takeSlot : ∀ {s : State} (a : Nat) (o : Option (Nat × Role)), P s → P (s.mapSlot a fun _ => { owner := o, bytes := [] })
  releaseSlots : ∀ {s : State} (k : Nat), P s → P (s.releaseSlots k)
  memWrite : ∀ {s t : State} {a off : Nat} {b : Byte}, P s → s.memWrite a off b = .next t → P t

namespace StorageInvariant

variable {P : State → Prop} {s t : State} {k : Nat}

theorem close (hP : StorageInvariant P) (h : P s) (code : CloseReason) : P (s.close k code) :=
  hP.mapSession k _ (hP.releaseSlots k h)

theorem acquireSlot (hP : StorageInvariant P) (h : P s) {r : Role} {a : Nat} (taken : s.acquireSlot k r = some (a, t)) :
    P t := by
  obtain ⟨-, -, rfl⟩ := (State.acquireSlot_eq_some _ _ _ _ _).1 taken
  exact hP.takeSlot a _ h

theorem memWriteAll (hP : StorageInvariant P) (h : P s) {off : Nat} {v : List Byte}
    (written : s.memWriteAll k off v = .next t) : P t := by
  induction v generalizing s off with
  | nil =>
    simp only [State.memWriteAll, Host.Outcome.next.injEq] at written
    exact written ▸ h
  | cons b v ih =>
    simp only [State.memWriteAll, andThen_eq_next] at written
    obtain ⟨u, first, rest⟩ := written
    exact ih (hP.memWrite h first) rest

/-- A reply keeps the invariant where what follows it does. -/
theorem emitThen (hP : StorageInvariant P) (h : P s) (bytes : List Byte) {cont : State → State}
    (hcont : ∀ {u : State}, P u → P (cont u)) : P (s.emitThen k bytes cont) := by
  cases at_k : s.sessions[k]? with
  | none => simpa only [State.emitThen, at_k] using h
  | some se =>
    obtain ⟨tx, seen, emitted | emitted⟩ := State.emitThen_cases at_k bytes cont
    · exact emitted ▸ hcont (hP.mapSession k _ h)
    · exact emitted ▸ hP.close (hP.mapSession k _ h) .write

theorem shiftEnd (hP : StorageInvariant P) (h : P s) {se : Session} (ended : s.shiftEnd k se = .next t) : P t := by
  obtain ⟨o, bytes, -, -, rfl⟩ := State.shiftEnd_eq_next ended
  refine hP.emitThen ?_ bytes fun h => hP.mapSession k _ (hP.releaseSlots k h)
  exact hP.registers h rfl rfl rfl

theorem executed (hP : StorageInvariant P) (h : P s) {i : Instr} (taken : exec i s = .next t) : P t := by
  cases i with
  | shift n tms tdi =>
    obtain ⟨se, -, ⟨-, rfl⟩ | ⟨-, -, rfl⟩ | ⟨-, -, o, sl, -, -, -, rfl⟩⟩ := execShift_eq_next taken
    · exact hP.close (hP.mapSession _ _ h) _
    · exact hP.close (hP.mapSession _ _ h) _
    · exact hP.registers
        (hP.takeSlot o (some (s.serving, .tdo))
          (hP.mapSession s.serving (fun se => { se with phase := .dispatching, tdoSlot := some o }) h))
        (State.transferStart_cfg _ _) (State.transferStart_sessions _ _) (State.transferStart_arena _ _)
  | getinfo | settck =>
    obtain ⟨div, bytes, rfl⟩ := exec_reply taken nofun
    refine hP.emitThen ?_ bytes fun h => hP.mapSession _ _ h
    exact hP.registers h rfl rfl rfl

theorem byte (hP : StorageInvariant P) (h : P s) {b : Byte} {rest : List Byte} {se : Session}
    (effect : ByteEffect k b rest se s t) : P t := by
  have stored : P (s.storeHeader k b rest se) := hP.mapSession k _ h
  cases effect with
  | stored => exact stored
  | classified => exact hP.mapSession k _ stored
  | failed code => exact hP.close stored code
  | noSlot n => exact hP.close (hP.mapSession k _ stored) .noSlot
  | oneSlot n a s1 header tms =>
    exact hP.close (hP.mapSession k _ (hP.acquireSlot (hP.mapSession k _ stored) tms)) .noSlot
  | counted a d s1 s2 shift ninth legal tms tdi =>
    exact hP.mapSession k _ (hP.acquireSlot (hP.mapSession k _ (hP.acquireSlot (hP.mapSession k _ stored) tms)) tdi)
  | payload a off s1 past held written => exact hP.mapSession k _ (hP.memWrite (hP.mapSession k _ h) written)

theorem drain (hP : StorageInvariant P) (h : P s) {se : Session} (drained : s.drain k se = .next t) : P t := by
  unfold State.drain at drained
  split at drained
  · simp only [Host.Outcome.next.injEq] at drained
    exact drained ▸ h
  · split at drained
    · simp at drained
    · refine hP.memWriteAll ?_ drained
      exact hP.registers h rfl rfl rfl

theorem swBitStep (hP : StorageInvariant P) (h : P s) {se : Session} (stepped : s.swBitStep k se = .next t) : P t := by
  unfold State.swBitStep at stepped
  split at stepped
  · simp only [andThen_eq_next, Host.Outcome.next.injEq, State.cycle_eq] at stepped
    obtain ⟨a, -, b, -, old, -, u, written, rfl⟩ := stepped
    have kept : P u := by
      refine hP.memWrite ?_ written
      exact hP.registers h rfl rfl rfl
    exact hP.registers kept rfl rfl rfl
  · simp at stepped

/-- Every effect of an input keeps a storage invariant that block reset establishes. -/
theorem effect (hP : StorageInvariant P) {i : Input} (h : Effect i s t) (hs : P s) (reset : ∀ x, P (s.blockReset x)) :
    P t := by
  cases h with
  | nothing => exact hs
  | moved | hung => exact hP.registers hs rfl rfl rfl
  | accepted | arrived | ended | lost | started => exact hP.mapSession _ _ hs
  | peerClosed | expired => exact hP.close hs _
  | faulted _ _ _ _ _ _ possible taken =>
    exact State.hwFault_induction hP.registers (fun _ code hu => hP.close hu code) hs taken
  | reset _ x => exact reset x
  | executed _ _ _ _ _ _ _ _ _ _ _ _ taken => exact hP.executed hs taken
  | decoded _ _ k w se free at_k phase complete rx taken =>
    obtain ⟨b, rest, -, effect⟩ := State.decodeByte_effect at_k rx taken
    exact hP.byte hs effect
  | streamEnded =>
    unfold State.endOfStream
    split <;> exact hP.close hs _
  | engine _ _ e w k se answers owner at_k enabled taken =>
    cases e with
    | feed =>
      obtain ⟨x, d, a, b, -, -, -, -, rfl⟩ := State.feed_eq_next taken
      exact hP.registers hs rfl rfl rfl
    | drain => exact hP.drain hs taken
    | bitStep | rxPush =>
      simp only [State.engineEffect, Host.Outcome.next.injEq] at taken
      exact taken ▸ hP.registers hs rfl rfl rfl
    | hwEnd =>
      refine hP.shiftEnd ?_ taken
      exact hP.registers hs rfl rfl rfl
    | swBitStep => exact hP.swBitStep hs taken
    | swEnd => exact hP.shiftEnd hs taken

end StorageInvariant

/-! ## The canonical form and the numbers of slots -/

theorem memoryCanonical_storageInvariant : StorageInvariant State.MemoryCanonical where
  registers h cfg _ arena := h.of_same cfg arena
  mapSession _ _ h := h.of_same rfl rfl
  takeSlot a _ h := h.mapSlot a _ fun _ _ => ⟨rfl, rfl⟩
  releaseSlots k h := h.releaseSlots k
  memWrite h written := h.memWrite written

/-- There are as many session slots and arena slots as the parameters say (10_state.md R20). -/
def State.SlotCounts (s : State) : Prop :=
  s.sessions.length = s.cfg.maxSessions ∧ s.arena.length = s.cfg.arenaSlots

theorem slotCounts_storageInvariant : StorageInvariant State.SlotCounts where
  registers h cfg sessions arena := by rw [State.SlotCounts, cfg, sessions, arena]; exact h
  mapSession k f h := ⟨(List.length_modify ..).trans h.1, h.2⟩
  takeSlot a o h := ⟨h.1, (List.length_modify ..).trans h.2⟩
  releaseSlots {s} k h := by
    obtain ⟨sessions, arena⟩ := h
    cases at_k : s.sessions[k]? with
    | none => rw [State.releaseSlots_of_none s k at_k]; exact ⟨sessions, arena⟩
    | some se =>
      rw [State.releaseSlots_of_some s k se at_k]
      exact ⟨by simpa using sessions, by simpa using arena⟩
  memWrite h written := by
    rw [((State.memWrite_eq_next _ _ _ _ _).1 written).2]
    exact ⟨h.1, (List.length_modify ..).trans h.2⟩

end Sys2Proof.Machine
end

section
/-! Every effect keeps the sessions' registers consistent (10_state.md R30-R34; 42_session.md R185, R195). -/

namespace Sys2Proof.Machine

/-- A session whose registers are consistent. -/
def Session.Ok (c : Config) (se : Session) : Prop := Session.positionOk c se ∧ Session.phaseOk se

theorem Session.ok_closed (c : Config) (code : CloseReason) (se : Session) : Session.Ok c (se.closed code) :=
  ⟨Session.positionOk_closed c code se, rfl, rfl, rfl, rfl⟩

/-- Outside a counted SHIFT a session holds neither vector slot. -/
theorem Session.positionOk.slots_eq_none {c : Config} {se : Session} (pos : Session.positionOk c se)
    (notShift : se.kind ≠ some .shift) : se.tmsSlot = none ∧ se.tdiSlot = none := by
  cases hkind : se.kind with
  | none => exact ((Session.positionOk_of_kind_none hkind).1 pos).2.2
  | some kind =>
    have early : ¬(kind = .shift ∧ se.hlen = 10) := fun counted => notShift (hkind.trans (congrArg some counted.1))
    exact ((Session.positionOk_of_kind_some hkind early).1 pos).2.2.2.2

theorem Session.ok_restarted {c : Config} {se : Session} (tms : se.tmsSlot = none) (tdi : se.tdiSlot = none)
    (tdo : se.tdoSlot = none) : Session.Ok c se.restarted :=
  ⟨(Session.positionOk_of_kind_none rfl).2 ⟨Nat.zero_le _, rfl, tms, tdi⟩, tdo⟩

/-- An open session's consistency does not depend on RX. -/
theorem Session.Ok.setRx {c : Config} {se : Session} (ok : Session.Ok c se) (isOpen : se.phase ≠ .closed) (rx : List Byte) :
    Session.Ok c { se with rx := rx } := by
  obtain ⟨pos, phase⟩ := ok
  refine ⟨pos, ?_⟩
  unfold Session.phaseOk at phase ⊢
  cases hphase : se.phase with
  | closed => exact absurd hphase isOpen
  | accepted | awaitingCommand | dispatching => rw [hphase] at phase; exact phase

/-- The served command's class is the session's KIND. -/
theorem State.heldCommand_kind {s : State} {k : Nat} {i : Instr} {se : Session} (held : s.heldCommand k = .next i)
    (at_k : s.sessions[k]? = some se) : se.kind = some i.kind := by
  simp only [State.heldCommand, at_k] at held
  split at held
  · simp at held
  · next hkind => cases held; exact hkind
  · next hkind => cases held; exact hkind
  · next hkind =>
    split at held
    · simp only [andThen_eq_next, Host.Outcome.next.injEq] at held
      obtain ⟨tms, -, tdi, -, rfl⟩ := held
      exact hkind
    · simp at held

namespace State.SessionsOk

variable {s t : State} {k : Nat}

theorem congr (ok : s.SessionsOk) (cfg : t.cfg = s.cfg) (sessions : t.sessions = s.sessions) : t.SessionsOk := by
  rw [State.SessionsOk, cfg, sessions]; exact ok

/-- Only session `k` has changed, and it is consistent. -/
theorem modify (ok : s.SessionsOk) (cfg : t.cfg = s.cfg) {f : Session → Session}
    (sessions : t.sessions = s.sessions.modify k f)
    (at_k : ∀ se, s.sessions[k]? = some se → Session.Ok s.cfg se → Session.Ok s.cfg (f se)) : t.SessionsOk := by
  intro j sj at_j
  rw [cfg]
  rw [sessions, List.getElem?_modify] at at_j
  obtain ⟨x, at_x, rfl⟩ := Option.map_eq_some_iff.1 at_j
  split
  · next hj => subst hj; exact at_k x at_x (ok k x at_x)
  · exact ok j x at_x

theorem set (ok : s.SessionsOk) (cfg : t.cfg = s.cfg) {se' : Session} (sessions : t.sessions = s.sessions.set k se')
    (at_k : Session.Ok s.cfg se') : t.SessionsOk := by
  intro j sj at_j
  rw [cfg]
  rw [sessions, List.getElem?_set] at at_j
  split at at_j
  · split at at_j
    · exact Option.some.inj at_j ▸ at_k
    · simp at at_j
  · exact ok j sj at_j

theorem close (ok : s.SessionsOk) (k : Nat) (code : CloseReason) : (s.close k code).SessionsOk :=
  ok.modify (State.close_cfg s k code) (State.close_sessions s k code) fun se _ _ => Session.ok_closed _ code se

theorem executed (ok : s.SessionsOk) {i : Instr} {se : Session} (taken : exec i s = .next t)
    (at_k : s.sessions[s.serving]? = some se) (phase : se.phase = .awaitingCommand) (complete : se.complete = true)
    (held : s.heldCommand s.serving = .next i) : t.SessionsOk := by
  obtain ⟨pos, hphase⟩ := ok s.serving se at_k
  have hkind := State.heldCommand_kind held at_k
  have tdo : se.tdoSlot = none := by simpa only [Session.phaseOk, phase] using hphase
  cases i with
  | shift n tms tdi =>
    obtain ⟨se', -, ⟨-, rfl⟩ | ⟨-, -, rfl⟩ | ⟨-, -, o, sl, -, -, -, rfl⟩⟩ := execShift_eq_next taken
    · exact ok.modify (State.close_cfg _ _ _) ((State.close_sessions _ _ _).trans (List.modify_modify_eq ..))
        fun x _ _ => Session.ok_closed _ _ _
    · exact ok.modify (State.close_cfg _ _ _) ((State.close_sessions _ _ _).trans (List.modify_modify_eq ..))
        fun x _ _ => Session.ok_closed _ _ _
    · refine ok.modify (State.transferStart_cfg _ _) (State.transferStart_sessions _ _) fun x at_x hx => ?_
      obtain rfl : se = x := Option.some.inj (at_k.symm.trans at_x)
      exact ⟨pos, hkind, complete, rfl⟩
  | getinfo | settck =>
    obtain ⟨div, bytes, rfl⟩ := exec_reply taken nofun
    obtain ⟨tms, tdi⟩ := pos.slots_eq_none (by simp [hkind, Instr.kind])
    obtain ⟨tx, seen, emitted | emitted⟩ :=
      State.emitThen_cases (s := { s with g := { s.g with div := div } }) at_k bytes (State.restart s.serving)
    · rw [emitted]
      refine ok.modify rfl (List.modify_modify_eq ..) fun x at_x _ => ?_
      obtain rfl : se = x := Option.some.inj (at_k.symm.trans at_x)
      exact Session.ok_restarted tms tdi tdo
    · rw [emitted]
      exact ok.modify (State.close_cfg _ _ _) ((State.close_sessions _ _ _).trans (List.modify_modify_eq ..))
        fun x _ _ => Session.ok_closed _ _ _

theorem byte (ok : s.SessionsOk) {b : Byte} {rest : List Byte} {se : Session} (at_k : s.sessions[k]? = some se)
    (phase : se.phase = .awaitingCommand) (incomplete : se.complete = false) (cfg : t.cfg = s.cfg)
    (effect : ByteEffect k b rest se s t) : t.SessionsOk := by
  obtain ⟨pos, hphase⟩ := ok k se at_k
  obtain ⟨se', sessions, ⟨code, x, rfl, -⟩ | ⟨-, on⟩⟩ := effect.session at_k
  · exact ok.set cfg sessions (Session.ok_closed _ code x)
  · have on := on pos incomplete
    refine ok.set cfg sessions ⟨on.position, ?_⟩
    simp only [Session.phaseOk, phase] at hphase
    simp only [Session.phaseOk, on.phase, phase, on.tdoSlot, hphase]

theorem shiftEnd (ok : s.SessionsOk) {e : Engine} {se : Session} (at_k : s.sessions[k]? = some se)
    (ended : State.shiftEnd k se { s with e := e } = .next t) : t.SessionsOk := by
  have cfg : t.cfg = s.cfg := (State.shiftEnd_registers ended).cfg
  obtain ⟨o, bytes, -, -, rfl⟩ := State.shiftEnd_eq_next ended
  obtain ⟨tx, seen, sessions | sessions⟩ :=
    State.shiftEmit_sessions (s := { s with e := e, g := { s.g with busy := false, owner := none } }) at_k bytes
  · exact ok.modify cfg sessions fun x _ _ => Session.ok_restarted rfl rfl rfl
  · exact ok.modify cfg sessions fun x _ _ => Session.ok_closed _ _ _

/-- Every effect of an input keeps the sessions consistent. -/
theorem effect (ok : s.SessionsOk) {i : Input} (h : Effect i s t) : t.SessionsOk := by
  cases h with
  | nothing => exact ok
  | moved | hung => exact ok.congr rfl rfl
  | accepted _ k se free at_k phase =>
    exact ok.modify rfl (State.mapSession_sessions s k Session.accepted) fun x _ _ =>
      ⟨(Session.positionOk_of_kind_none rfl).2 ⟨Nat.zero_le _, rfl, rfl, rfl⟩, rfl, rfl, rfl⟩
  | arrived _ k bytes =>
    refine ok.modify rfl (State.mapSession_sessions s k _) fun x _ hx => ?_
    split
    · next listening =>
      simp only [Session.isOpen, Bool.and_eq_true, decide_eq_true_eq] at listening
      exact hx.setRx listening.1 _
    · exact hx
  | ended _ k =>
    refine ok.modify rfl (State.mapSession_sessions s k _) fun x _ hx => ?_
    split
    · exact hx
    · exact hx
  | lost _ k => exact ok.modify rfl (State.mapSession_sessions s k _) fun x _ hx => hx
  | peerClosed | expired => exact ok.close _ _
  | faulted _ _ _ _ _ _ possible taken =>
    exact State.hwFault_induction (fun hu cfg sessions _ => congr hu cfg sessions) (fun k code hu => close hu k code) ok
      taken
  | reset _ x =>
    intro j se at_j
    rw [List.eq_of_mem_replicate (List.mem_of_getElem? at_j)]
    exact ⟨(Session.positionOk_of_kind_none rfl).2 ⟨Nat.zero_le _, rfl, rfl, rfl⟩, rfl, rfl, rfl, rfl⟩
  | started _ k w se free at_k phase =>
    refine ok.modify rfl (State.init_sessions s k) fun x at_x hx => ?_
    obtain rfl : se = x := Option.some.inj (at_k.symm.trans at_x)
    obtain ⟨pos, hphase⟩ := hx
    simp only [Session.phaseOk, phase] at hphase
    exact ⟨pos, hphase.2.2⟩
  | executed _ _ k w se i free at_k phase complete served held taken =>
    subst served
    exact ok.executed taken at_k phase complete held
  | decoded _ _ k w se free at_k phase complete rx taken =>
    obtain ⟨b, rest, -, effect⟩ := State.decodeByte_effect at_k rx taken
    exact ok.byte at_k phase complete (OnlyStorage.decodeByte taken).cfg effect
  | streamEnded =>
    unfold State.endOfStream
    split <;> exact ok.close _ _
  | engine _ _ e w k se answers owner at_k enabled taken =>
    cases e with
    | feed =>
      obtain ⟨x, d, a, b, -, -, -, -, rfl⟩ := State.feed_eq_next taken
      exact ok.congr rfl rfl
    | drain =>
      rcases State.drain_eq_next taken with ⟨-, rfl⟩ | ⟨x, q, o, -, -, rfl⟩ <;> exact ok.congr rfl rfl
    | bitStep | rxPush =>
      simp only [State.engineEffect, Host.Outcome.next.injEq] at taken
      exact taken ▸ ok.congr rfl rfl
    | hwEnd => exact ok.shiftEnd at_k taken
    | swBitStep =>
      obtain ⟨x, d, o, a, b, old, -, -, -, -, -, -, rfl⟩ := State.swBitStep_eq_next taken
      exact ok.congr rfl rfl
    | swEnd => exact ok.shiftEnd (e := s.e) at_k taken

end State.SessionsOk

end Sys2Proof.Machine
end

section
/-! Every effect keeps ownership: a slot is owned for a role exactly if that session's register names it (10_state.md R34,
R39; 20_memory.md R67, R68). -/

namespace Sys2Proof.Machine

/-- Who owns arena slot `a`, and for what. -/
def State.ownerAt (s : State) (a : Nat) : Option (Nat × Role) := (s.arena[a]?).bind Slot.owner

/-- The slot that session `k`'s register for role `r` names. -/
def State.heldBy (s : State) (k : Nat) (r : Role) : Option Nat := (s.sessions[k]?).bind fun se => se.slotOf r

theorem State.ownership_iff (s : State) :
    s.Ownership ↔ ∀ a k r, s.ownerAt a = some (k, r) ↔ s.heldBy k r = some a := by
  simp only [State.Ownership, State.ownerAt, State.heldBy, Option.bind_eq_some_iff]

theorem State.heldBy_of_some {s : State} {k : Nat} {se : Session} (at_k : s.sessions[k]? = some se) (r : Role) :
    s.heldBy k r = se.slotOf r := by
  simp [State.heldBy, at_k]

theorem Session.holds_iff (se : Session) (a : Nat) : se.holds a = true ↔ ∃ r, se.slotOf r = some a := by
  constructor
  · intro h
    simp only [Session.holds, Bool.or_eq_true, decide_eq_true_eq] at h
    obtain (tms | tdi) | tdo := h
    · exact ⟨.tms, tms⟩
    · exact ⟨.tdi, tdi⟩
    · exact ⟨.tdo, tdo⟩
  · rintro ⟨r, hr⟩
    simp only [Session.holds, Bool.or_eq_true, decide_eq_true_eq]
    cases r with
    | tms => exact .inl (.inl hr)
    | tdi => exact .inl (.inr hr)
    | tdo => exact .inr hr

/-- The three slot registers. -/
def Session.slots (se : Session) : Option Nat × Option Nat × Option Nat := (se.tmsSlot, se.tdiSlot, se.tdoSlot)

theorem Session.slots_eq_iff (se se' : Session) : se'.slots = se.slots ↔ ∀ r, se'.slotOf r = se.slotOf r := by
  simp only [Session.slots, Prod.mk.injEq]
  constructor
  · rintro ⟨tms, tdi, tdo⟩ r
    cases r with
    | tms => exact tms
    | tdi => exact tdi
    | tdo => exact tdo
  · intro h
    exact ⟨h .tms, h .tdi, h .tdo⟩

theorem Session.slotOf_eq_none {se : Session} (h : se.slots = (none, none, none)) (r : Role) : se.slotOf r = none := by
  simp only [Session.slots, Prod.mk.injEq] at h
  obtain ⟨tms, tdi, tdo⟩ := h
  cases r with
  | tms => exact tms
  | tdi => exact tdi
  | tdo => exact tdo

theorem State.heldBy_of_modify {s t : State} {k : Nat} {f : Session → Session}
    (sessions : t.sessions = s.sessions.modify k f) (j : Nat) (r : Role) :
    t.heldBy j r = if k = j then (s.sessions[j]?).bind fun se => (f se).slotOf r else s.heldBy j r := by
  simp only [State.heldBy, sessions, List.getElem?_modify]
  split <;> simp [Option.bind_map]

/-- An update of session `k` that keeps its slot registers. -/
theorem State.heldBy_of_modify_keep {s t : State} {k : Nat} {f : Session → Session}
    (sessions : t.sessions = s.sessions.modify k f)
    (keep : ∀ se, s.sessions[k]? = some se → (f se).slots = se.slots) (j : Nat) (r : Role) :
    t.heldBy j r = s.heldBy j r := by
  rw [State.heldBy_of_modify sessions]
  split
  · next hj =>
    subst hj
    cases at_k : s.sessions[k]? with
    | none => simp [State.heldBy, at_k]
    | some se => simp [State.heldBy, at_k, (Session.slots_eq_iff se (f se)).1 (keep se at_k)]
  · rfl

theorem State.ownerAt_of_modify {s t : State} {a : Nat} {f : Slot → Slot} (arena : t.arena = s.arena.modify a f) (b : Nat) :
    t.ownerAt b = if a = b then (s.arena[b]?).bind fun sl => (f sl).owner else s.ownerAt b := by
  simp only [State.ownerAt, arena, List.getElem?_modify]
  split <;> simp [Option.bind_map]

theorem State.close_ownerAt {s : State} {k : Nat} {se : Session} (at_k : s.sessions[k]? = some se) (code : CloseReason)
    (a : Nat) : (s.close k code).ownerAt a = if se.holds a then none else s.ownerAt a := by
  simp only [State.ownerAt, State.close_arena, at_k]
  cases s.arena[a]? with
  | none => simp
  | some sl => by_cases h : se.holds a <;> simp [h]

theorem State.releaseSlots_ownerAt {s : State} {k : Nat} {se : Session} (at_k : s.sessions[k]? = some se) (a : Nat) :
    (s.releaseSlots k).ownerAt a = if se.holds a then none else s.ownerAt a := by
  simp only [State.ownerAt, State.releaseSlots_of_some s k se at_k, List.getElem?_mapIdx]
  cases s.arena[a]? with
  | none => simp
  | some sl => by_cases h : se.holds a <;> simp [h]

/-- After reset no slot is owned and no register names one (10_state.md R51). -/
theorem State.resetWith_ownership (c : Config) (x : TargetState) : (State.resetWith c x).Ownership := by
  rw [State.ownership_iff]
  intro a k r
  have unowned : (State.resetWith c x).ownerAt a = none := by
    simp only [State.ownerAt, State.resetWith, Option.bind_eq_none_iff]
    intro sl at_a
    rw [List.eq_of_mem_replicate (List.mem_of_getElem? at_a)]
  have unheld : (State.resetWith c x).heldBy k r = none := by
    simp only [State.heldBy, State.resetWith, Option.bind_eq_none_iff]
    intro se at_k
    rw [List.eq_of_mem_replicate (List.mem_of_getElem? at_k)]
    cases r <;> rfl
  simp [unowned, unheld]

namespace State.Ownership

variable {s t : State} {k : Nat}

theorem congr (own : s.Ownership) (owners : ∀ a, t.ownerAt a = s.ownerAt a) (held : ∀ k r, t.heldBy k r = s.heldBy k r) :
    t.Ownership := by
  rw [State.ownership_iff] at own ⊢
  intro a k r
  rw [owners, held, own]

theorem of_same (own : s.Ownership) (sessions : t.sessions = s.sessions) (arena : t.arena = s.arena) : t.Ownership :=
  own.congr (fun a => by rw [State.ownerAt, arena, State.ownerAt]) fun k r => by rw [State.heldBy, sessions, State.heldBy]

/-- An update of session `k` that keeps its slot registers. -/
theorem modify (own : s.Ownership) {f : Session → Session} (sessions : t.sessions = s.sessions.modify k f)
    (arena : t.arena = s.arena) (keep : ∀ se, s.sessions[k]? = some se → (f se).slots = se.slots) :
    t.Ownership :=
  own.congr (fun a => by rw [State.ownerAt, arena, State.ownerAt]) (State.heldBy_of_modify_keep sessions keep)

/-- An update of slot `a` that keeps its owner. -/
theorem modifySlot (own : s.Ownership) {a : Nat} {f : Slot → Slot} (sessions : t.sessions = s.sessions)
    (arena : t.arena = s.arena.modify a f) (keep : ∀ sl, (f sl).owner = sl.owner) : t.Ownership := by
  refine own.congr (fun b => ?_) fun k r => by rw [State.heldBy, sessions, State.heldBy]
  rw [State.ownerAt_of_modify arena]
  split
  · simp only [State.ownerAt, keep]
  · rfl

/-- A free slot is taken by a session whose register for the role is none (20_memory.md R67). -/
theorem acquire (own : s.Ownership) {r : Role} {a : Nat} {se : Session} (at_k : s.sessions[k]? = some se)
    (unheld : se.slotOf r = none) (free : ∃ sl, s.arena[a]? = some sl ∧ sl.owner = none) {f : Session → Session}
    (sessions : t.sessions = s.sessions.modify k f)
    (named : ∀ r', (f se).slotOf r' = if r' = r then some a else se.slotOf r')
    (arena : t.arena = s.arena.modify a fun _ => { owner := some (k, r), bytes := [] }) : t.Ownership := by
  obtain ⟨sl, at_a, noOwner⟩ := free
  rw [State.ownership_iff] at own ⊢
  have unowned (j : Nat) (r' : Role) : s.heldBy j r' ≠ some a := fun held => by
    simpa [State.ownerAt, at_a, noOwner] using (own a j r').2 held
  intro b j r'
  rw [State.ownerAt_of_modify arena, State.heldBy_of_modify sessions]
  by_cases hj : k = j
  · subst hj
    have held : s.heldBy k r' = se.slotOf r' := State.heldBy_of_some at_k r'
    rw [if_pos rfl, at_k, Option.bind_some, named]
    by_cases hb : a = b
    · subst hb
      have other : se.slotOf r' ≠ some a := held ▸ unowned k r'
      by_cases hr : r' = r
      · simp [hr, at_a]
      · simp [hr, at_a, other, Ne.symm hr]
    · rw [if_neg hb, own, held]
      by_cases hr : r' = r
      · simp [hr, hb, unheld]
      · simp [hr]
  · rw [if_neg hj]
    by_cases hb : a = b
    · subst hb
      simp [at_a, hj, unowned]
    · rw [if_neg hb, own]

theorem acquireSlot (own : s.Ownership) {r : Role} {a : Nat} {se : Session} (at_k : s.sessions[k]? = some se)
    (unheld : se.slotOf r = none) (taken : s.acquireSlot k r = some (a, t)) {f : Session → Session}
    (named : ∀ r', (f se).slotOf r' = if r' = r then some a else se.slotOf r') : (t.mapSession k f).Ownership := by
  obtain ⟨free, -, rfl⟩ := (State.acquireSlot_eq_some _ _ _ _ _).1 taken
  exact own.acquire at_k unheld free rfl named rfl

/-- Session `k` gives up every slot it holds, and its registers name none (20_memory.md R68). -/
theorem release (own : s.Ownership) {se : Session} (at_k : s.sessions[k]? = some se) {f : Session → Session}
    (sessions : t.sessions = s.sessions.modify k f) (released : ∀ x, (f x).slots = (none, none, none))
    (owners : ∀ a, t.ownerAt a = if se.holds a then none else s.ownerAt a) : t.Ownership := by
  rw [State.ownership_iff] at own ⊢
  have holds (a : Nat) : se.holds a = true ↔ ∃ r, s.ownerAt a = some (k, r) := by
    simp only [Session.holds_iff, own, State.heldBy_of_some at_k]
  intro a j r
  rw [owners, State.heldBy_of_modify sessions]
  by_cases hj : k = j
  · subst hj
    rw [if_pos rfl, at_k, Option.bind_some, Session.slotOf_eq_none (released se)]
    by_cases held : se.holds a = true
    · simp [held]
    · have notMine : s.ownerAt a ≠ some (k, r) := fun mine => held ((holds a).2 ⟨r, mine⟩)
      simp [held, notMine]
  · rw [if_neg hj, ← own]
    by_cases held : se.holds a = true
    · obtain ⟨r', mine⟩ := (holds a).1 held
      simp [held, mine, hj]
    · simp [held]

theorem close (own : s.Ownership) (k : Nat) (code : CloseReason) : (s.close k code).Ownership := by
  cases at_k : s.sessions[k]? with
  | none => rw [State.close_of_none s k code at_k]; exact own
  | some se =>
    exact own.release at_k (State.close_sessions s k code) (fun _ => rfl) (State.close_ownerAt at_k code)

theorem releaseSlots (own : s.Ownership) (k : Nat) : (s.releaseSlots k).Ownership := by
  cases at_k : s.sessions[k]? with
  | none => rw [State.releaseSlots_of_none s k at_k]; exact own
  | some se =>
    exact own.release at_k (State.releaseSlots_sessions s k) (fun _ => rfl)
      (State.releaseSlots_ownerAt at_k)

/-- The updates of a session that leave its slot registers alone. -/
theorem mapSession (own : s.Ownership) {f : Session → Session} (keep : ∀ se, (f se).slots = se.slots) :
    (s.mapSession k f).Ownership :=
  own.modify (State.mapSession_sessions s k f) rfl fun se _ => keep se

theorem memWrite (own : s.Ownership) {a off : Nat} {b : Byte} (written : s.memWrite a off b = .next t) : t.Ownership := by
  obtain ⟨-, rfl⟩ := (State.memWrite_eq_next _ _ _ _ _).1 written
  exact own.modifySlot rfl (State.mapSlot_arena s a _) fun _ => rfl

theorem emitThen (own : s.Ownership) (bytes : List Byte) {cont : State → State}
    (hcont : ∀ {u : State}, u.Ownership → (cont u).Ownership) : (s.emitThen k bytes cont).Ownership := by
  cases at_k : s.sessions[k]? with
  | none => simpa only [State.emitThen, at_k] using own
  | some se =>
    have transcribed (tx seen : List Byte) : (s.mapSession k (Session.transcribe tx seen)).Ownership :=
      own.mapSession fun _ => rfl
    obtain ⟨tx, seen, emitted | emitted⟩ := State.emitThen_cases at_k bytes cont
    · exact emitted ▸ hcont (transcribed tx seen)
    · exact emitted ▸ (transcribed tx seen).close k .write

theorem restart (own : s.Ownership) (k : Nat) : (s.restart k).Ownership :=
  own.mapSession fun _ => rfl

theorem shiftEnd (own : s.Ownership) {e : Engine} {se : Session} (ended : State.shiftEnd k se { s with e := e } = .next t) :
    t.Ownership := by
  obtain ⟨o, bytes, -, -, rfl⟩ := State.shiftEnd_eq_next ended
  refine emitThen ?_ bytes fun h => (h.releaseSlots k).restart k
  exact own.of_same rfl rfl

theorem executed (own : s.Ownership) {i : Instr} {se : Session} (taken : exec i s = .next t)
    (at_k : s.sessions[s.serving]? = some se) (tdo : se.tdoSlot = none) : t.Ownership := by
  cases i with
  | shift n tms tdi =>
    have dispatching : (s.mapSession s.serving fun se => { se with phase := .dispatching }).Ownership :=
      own.mapSession fun _ => rfl
    obtain ⟨se', -, ⟨-, rfl⟩ | ⟨-, -, rfl⟩ | ⟨-, -, o, sl, at_o, free, -, rfl⟩⟩ := execShift_eq_next taken
    · exact dispatching.close _ _
    · exact dispatching.close _ _
    · exact own.acquire (r := .tdo) at_k tdo ⟨sl, at_o, free⟩ (State.transferStart_sessions _ _)
        (fun r => by cases r <;> rfl) (State.transferStart_arena _ _)
  | getinfo | settck =>
    obtain ⟨div, bytes, rfl⟩ := exec_reply taken nofun
    refine emitThen ?_ bytes fun h => h.restart _
    exact own.of_same rfl rfl

theorem byte (own : s.Ownership) {b : Byte} {rest : List Byte} {se : Session} (at_k : s.sessions[k]? = some se)
    (pos : Session.positionOk s.cfg se) (effect : ByteEffect k b rest se s t) : t.Ownership := by
  have stored : (s.storeHeader k b rest se).Ownership := own.mapSession fun _ => rfl
  have counted (n : Word) :
      ((s.storeHeader k b rest se).mapSession k fun x => { x with n := n }).Ownership :=
    stored.mapSession fun _ => rfl
  have at_counted (n : Word) : ((s.storeHeader k b rest se).mapSession k fun x => { x with n := n }).sessions[k]? =
      some { se.storeHeader b rest with n := n } := by
    rw [State.mapSession_sessions, State.storeHeader_sessions at_k, List.getElem?_modify_eq,
      List.getElem?_set_self (List.getElem?_eq_some_iff.1 at_k).1]
    rfl
  cases effect with
  | stored => exact stored
  | classified => exact stored.mapSession fun _ => rfl
  | failed code => exact stored.close k code
  | noSlot n => exact (counted n).close k .noSlot
  | oneSlot n a s1 header tms =>
    obtain ⟨-, noTms, -⟩ := pos.header header
    exact ((counted n).acquireSlot (r := .tms) (at_counted n) noTms tms fun r => by cases r <;> rfl).close k .noSlot
  | counted a d s1 s2 shift ninth legal tms tdi =>
    obtain ⟨-, noTms, noTdi⟩ := pos.header (by simp [shift, ninth, hdrLen, Kind.hdrLen])
    have first := (counted _).acquireSlot (r := .tms) (at_counted _) noTms tms
      (f := fun x => { x with tmsSlot := some a }) fun r => by cases r <;> rfl
    refine first.acquireSlot (r := .tdi)
      (se := { se.storeHeader b rest with n := countOf (se.hdr.setIfInBounds se.hlen b), tmsSlot := some a }) ?_ noTdi tdi
      fun r => by cases r <;> rfl
    rw [State.mapSession_sessions, State.acquireSlot_sessions tms, List.getElem?_modify_eq, at_counted]
    rfl
  | payload a off s1 past held written =>
    have consumed : (s.mapSession k fun x => { x with rx := rest }).Ownership :=
      own.mapSession fun _ => rfl
    exact (consumed.memWrite written).mapSession fun _ => rfl

/-- Every effect of an input keeps ownership, where the sessions are consistent. -/
theorem effect (own : s.Ownership) (ok : s.SessionsOk) {i : Input} (h : Effect i s t) : t.Ownership := by
  cases h with
  | nothing => exact own
  | moved | hung => exact own.of_same rfl rfl
  | accepted _ k se free at_k phase =>
    refine own.modify (State.mapSession_sessions s k Session.accepted) rfl fun x at_x => ?_
    obtain rfl : se = x := Option.some.inj (at_k.symm.trans at_x)
    obtain ⟨pos, closed⟩ := ok k se at_k
    simp only [Session.phaseOk, phase] at closed
    obtain ⟨kind, -, -, tdo⟩ := closed
    obtain ⟨tms, tdi⟩ := pos.slots_eq_none (by simp [kind])
    simp only [Session.slots, Session.accepted, tms, tdi, tdo]
  | arrived _ k bytes => exact own.mapSession fun se => by split <;> rfl
  | ended => exact own.mapSession fun se => by split <;> rfl
  | lost | started => exact own.mapSession fun _ => rfl
  | peerClosed | expired => exact own.close _ _
  | faulted _ _ _ _ _ _ possible taken =>
    exact State.hwFault_induction (fun hu _ sessions arena => of_same hu sessions arena)
      (fun k code hu => close hu k code) own taken
  | reset _ x =>
    exact of_same (State.resetWith_ownership s.cfg s.target) rfl rfl
  | executed _ _ k w se i free at_k phase complete served held taken =>
    subst served
    have hphase := (ok _ se at_k).2
    exact own.executed taken at_k (by simpa only [Session.phaseOk, phase] using hphase)
  | decoded _ _ k w se free at_k phase complete rx taken =>
    obtain ⟨b, rest, -, effect⟩ := State.decodeByte_effect at_k rx taken
    exact own.byte at_k (ok k se at_k).1 effect
  | streamEnded =>
    unfold State.endOfStream
    split <;> exact own.close _ _
  | engine _ _ e w k se answers owner at_k enabled taken =>
    cases e with
    | feed =>
      obtain ⟨x, d, a, b, -, -, -, -, rfl⟩ := State.feed_eq_next taken
      exact own.of_same rfl rfl
    | drain =>
      rcases State.drain_eq_next taken with ⟨-, rfl⟩ | ⟨x, q, o, -, -, rfl⟩
      · exact own
      · exact own.modifySlot rfl rfl fun _ => rfl
    | bitStep | rxPush =>
      simp only [State.engineEffect, Host.Outcome.next.injEq] at taken
      exact taken ▸ own.of_same rfl rfl
    | hwEnd => exact own.shiftEnd taken
    | swBitStep =>
      obtain ⟨x, d, o, a, b, old, -, -, -, -, -, -, rfl⟩ := State.swBitStep_eq_next taken
      exact own.modifySlot rfl rfl fun _ => rfl
    | swEnd => exact own.shiftEnd (e := s.e) taken

end State.Ownership

end Sys2Proof.Machine
end

section
/-! Every input answers where the invariant holds: the slots an operation reads or writes are owned, and the offsets lie
inside them (20_memory.md R60, R66; 40_commands.md R117, R123, R127; 41_shift_engine.md R152, R153, R163). -/

namespace Sys2Proof.Machine

/-! ## Storage accesses of a slot's holder -/

theorem vectorBytes_le_slotBytes {c : Config} {n : Word} (most : n.toNat ≤ c.maxBits) : vectorBytes n ≤ c.slotBytes := by
  simp only [vectorBytes, Config.slotBytes, ceilDiv]
  omega

/-- The slot a session register names is there and owned (R34, R39). -/
theorem State.Ownership.slot {s : State} (own : s.Ownership) {k a : Nat} {r : Role} {se : Session}
    (at_k : s.sessions[k]? = some se) (held : se.slotOf r = some a) :
    ∃ sl, s.arena[a]? = some sl ∧ sl.owner.isSome = true := by
  obtain ⟨sl, at_a, owner⟩ := (own a k r).2 ⟨se, at_k, held⟩
  exact ⟨sl, at_a, by simp [owner]⟩

theorem State.Ownership.memRead_answers {s : State} (own : s.Ownership) {k a : Nat} {r : Role} {se : Session}
    (at_k : s.sessions[k]? = some se) (held : se.slotOf r = some a) {off n : Nat} (inside : off + n ≤ s.cfg.slotBytes) :
    ∃ bs, s.memRead a off n = .next bs := by
  obtain ⟨sl, at_a, owner⟩ := own.slot at_k held
  exact ⟨_, (State.memRead_eq_next s a off n _).2 ⟨sl, at_a, inside, owner, rfl⟩⟩

theorem State.Ownership.memWrite_answers {s : State} (own : s.Ownership) {k a : Nat} {r : Role} {se : Session}
    (at_k : s.sessions[k]? = some se) (held : se.slotOf r = some a) {off : Nat} (inside : off + 1 ≤ s.cfg.slotBytes)
    (b : Byte) : ∃ t, s.memWrite a off b = .next t := by
  obtain ⟨sl, at_a, owner⟩ := own.slot at_k held
  exact ⟨_, (State.memWrite_eq_next s _ a off b).2 ⟨⟨sl, at_a, inside, owner⟩, rfl⟩⟩

/-! ## A complete SHIFT -/

theorem Session.positionOk.hlen_of_complete {c : Config} {se : Session} (pos : Session.positionOk c se)
    (shift : se.kind = some .shift) (complete : se.complete = true) : se.hlen = 10 := by
  obtain ⟨-, whole⟩ := se.complete_iff.1 complete
  by_contra notTen
  obtain ⟨-, most, -, plen, -, -⟩ := (Session.positionOk_of_kind_some shift fun h => notTen h.2).1 pos
  simp only [Kind.hdrLen] at most
  simp only [Session.need, shift, show se.hlen < 10 by omega, if_true] at whole
  omega

/-- A complete SHIFT holds both vector slots, and its vectors fit a slot. -/
theorem Session.positionOk.vectors {c : Config} {se : Session} (pos : Session.positionOk c se)
    (shift : se.kind = some .shift) (hlen : se.hlen = 10) :
    ∃ t d, se.tmsSlot = some t ∧ se.tdiSlot = some d ∧ vectorBytes se.n ≤ c.slotBytes := by
  obtain ⟨-, -, -, most, -, tms, tdi⟩ := (Session.positionOk_of_counted shift hlen).1 pos
  obtain ⟨t, ht⟩ := Option.isSome_iff_exists.1 tms
  obtain ⟨d, hd⟩ := Option.isSome_iff_exists.1 tdi
  exact ⟨t, d, ht, hd, vectorBytes_le_slotBytes most⟩

/-! ## The loop -/

theorem State.heldCommand_answers {s : State} {k : Nat} {se : Session} (own : s.Ownership) (at_k : s.sessions[k]? = some se)
    (pos : Session.positionOk s.cfg se) (complete : se.complete = true) : ∃ i, s.heldCommand k = .next i := by
  obtain ⟨kind, hkind⟩ := Option.isSome_iff_exists.1 (se.complete_iff.1 complete).1
  cases kind with
  | getinfo | settck =>
    simp only [State.heldCommand, at_k, hkind]
    exact ⟨_, rfl⟩
  | shift =>
    obtain ⟨t, d, ht, hd, fits⟩ := pos.vectors hkind (pos.hlen_of_complete hkind complete)
    obtain ⟨tms, htms⟩ := own.memRead_answers (r := .tms) at_k ht (off := 0) (n := vectorBytes se.n) (by omega)
    obtain ⟨tdi, htdi⟩ := own.memRead_answers (r := .tdi) at_k hd (off := 0) (n := vectorBytes se.n) (by omega)
    exact ⟨.shift se.n tms tdi, by simp only [State.heldCommand, at_k, hkind, ht, hd, htms, htdi, andThen_next]⟩

theorem exec_answers {s : State} {se : Session} {i : Instr} (at_k : s.sessions[s.serving]? = some se)
    (held : s.heldCommand s.serving = .next i) : ∃ t, exec i s = .next t := by
  cases i with
  | getinfo =>
    simp only [exec, execGetInfo, at_k]
    exact ⟨_, rfl⟩
  | settck p =>
    simp only [exec, execSetTck, at_k]
    exact ⟨_, rfl⟩
  | shift n tms tdi =>
    simp only [exec, execShift, at_k, held, andThen_next, if_true]
    split
    · exact ⟨_, rfl⟩
    · split
      · exact ⟨_, rfl⟩
      · exact ⟨_, rfl⟩

theorem State.decodeByte_answers {s : State} {k : Nat} {se : Session} (own : s.Ownership) (at_k : s.sessions[k]? = some se)
    (pos : Session.positionOk s.cfg se) (incomplete : se.complete = false) : ∃ t, s.decodeByte k = .next t := by
  simp only [State.decodeByte, at_k]
  split
  · exact ⟨_, rfl⟩
  · next b rest _ =>
    split
    · exact ⟨_, rfl⟩
    · next past =>
      obtain ⟨shift, hlen, room⟩ := pos.payload incomplete past
      obtain ⟨t, d, ht, hd, fits⟩ := pos.vectors shift hlen
      have consumed : (s.mapSession k fun x => { x with rx := rest }).Ownership :=
        own.mapSession fun _ => rfl
      have at_k' : (s.mapSession k fun x => { x with rx := rest }).sessions[k]? = some { se with rx := rest } := by
        simp [at_k]
      have written : ∃ u, (if se.plen < vectorBytes se.n
          then (s.mapSession k fun x => { x with rx := rest }).memWrite t se.plen b
          else (s.mapSession k fun x => { x with rx := rest }).memWrite d (se.plen - vectorBytes se.n) b) = .next u := by
        split
        · refine consumed.memWrite_answers (r := .tms) at_k' ht ?_ b
          rw [State.mapSession_cfg]; omega
        · refine consumed.memWrite_answers (r := .tdi) at_k' hd ?_ b
          rw [State.mapSession_cfg]; omega
      obtain ⟨u, hu⟩ := written
      simp only [State.payloadByte, ht, hd, hu, andThen_next]
      exact ⟨_, rfl⟩

theorem State.sessionStep_answers {s : State} {k : Nat} (own : s.Ownership) (ok : s.SessionsOk) (served : s.serving = k) :
    ∃ t, s.sessionStep k = .next t := by
  unfold State.sessionStep
  split
  · exact ⟨s, rfl⟩
  · next se at_k =>
    obtain ⟨pos, -⟩ := ok k se at_k
    split
    · split
      · exact ⟨s, rfl⟩
      · exact ⟨_, rfl⟩
      · unfold State.awaitingStep
        split
        · next complete =>
          subst served
          obtain ⟨i, held⟩ := State.heldCommand_answers own at_k pos complete
          simpa only [State.dispatch, held, andThen_next] using exec_answers at_k held
        · next incomplete =>
          split
          · exact State.decodeByte_answers own at_k pos (by simpa using incomplete)
          · split
            · exact ⟨_, rfl⟩
            · exact ⟨s, rfl⟩
      · exact ⟨s, rfl⟩
    · exact ⟨s, rfl⟩

/-! ## The engine -/

/-- The owner's registers while a transfer is in flight: three slots, and vectors that fit them (R25, R34). -/
structure Session.Transferring (c : Config) (se : Session) (t d o : Nat) : Prop where
  tms : se.slotOf .tms = some t
  tdi : se.slotOf .tdi = some d
  tdo : se.slotOf .tdo = some o
  fits : vectorBytes se.n ≤ c.slotBytes

theorem Session.Ok.transferring {c : Config} {se : Session} (ok : Session.Ok c se) (phase : se.phase = .dispatching) :
    ∃ t d o, Session.Transferring c se t d o := by
  obtain ⟨pos, hphase⟩ := ok
  simp only [Session.phaseOk, phase] at hphase
  obtain ⟨shift, complete, tdo⟩ := hphase
  obtain ⟨t, d, tms, tdi, fits⟩ := pos.vectors shift (pos.hlen_of_complete shift complete)
  obtain ⟨o, ho⟩ := Option.isSome_iff_exists.1 tdo
  exact ⟨t, d, o, tms, tdi, ho, fits⟩

/-- Engine word `w` of a held vector can be read, as long as the vector has such a word (R150, R152). -/
theorem State.Ownership.readWord_answers {s : State} (own : s.Ownership) {k a w : Nat} {r : Role} {se : Session}
    (at_k : s.sessions[k]? = some se) (held : se.slotOf r = some a) (fits : vectorBytes se.n ≤ s.cfg.slotBytes)
    (word : w < vectorWords se.n) : ∃ x, s.readWord a (vectorBytes se.n) w = .next x := by
  have inside : 4 * w + min 4 (vectorBytes se.n - 4 * w) ≤ s.cfg.slotBytes := by
    have : 4 * w ≤ vectorBytes se.n := by
      simp only [vectorWords, vectorBytes, ceilDiv] at word ⊢
      omega
    omega
  obtain ⟨bs, read⟩ := own.memRead_answers at_k held inside
  simp only [State.readWord, read, andThen_next]
  exact ⟨_, rfl⟩

theorem State.shiftEnd_answers {s : State} {k t d o : Nat} {se : Session} {e : Engine} (own : s.Ownership)
    (at_k : s.sessions[k]? = some se) (transfer : Session.Transferring s.cfg se t d o) :
    ∃ u, State.shiftEnd k se { s with e := e } = .next u := by
  have tdo : se.tdoSlot = some o := transfer.tdo
  obtain ⟨bs, read⟩ : ∃ bs, s.memRead o 0 (vectorBytes se.n) = .next bs :=
    own.memRead_answers at_k transfer.tdo (by simpa using transfer.fits)
  have read' : State.memRead { s with e := e, g := { s.g with busy := false, owner := none } } o 0 (vectorBytes se.n) =
      .next bs := read
  simp only [State.shiftEnd, tdo, read', andThen_next]
  exact ⟨_, rfl⟩

theorem State.drain_answers {s : State} {k t d o : Nat} {se : Session} (own : s.Ownership)
    (at_k : s.sessions[k]? = some se) (transfer : Session.Transferring s.cfg se t d o) : ∃ u, s.drain k se = .next u := by
  have tdo : se.tdoSlot = some o := transfer.tdo
  unfold State.drain
  split
  · exact ⟨s, rfl⟩
  · next w q _ =>
    simp only [tdo]
    by_cases room : 4 * s.e.outW < vectorBytes se.n
    · obtain ⟨sl, at_o, owner⟩ := own.slot at_k transfer.tdo
      refine ⟨_, State.memWriteAll_next _ o _ _ sl at_o owner ?_⟩
      have := transfer.fits
      simp only [List.length_take]
      change _ ≤ s.cfg.slotBytes
      omega
    · rw [show vectorBytes se.n - 4 * s.e.outW = 0 by omega, List.take_zero]
      exact ⟨_, rfl⟩

theorem State.swBitStep_answers {s : State} {k t d o : Nat} {se : Session} (own : s.Ownership)
    (at_k : s.sessions[k]? = some se) (transfer : Session.Transferring s.cfg se t d o) (bit : s.e.i < se.n.toNat) :
    ∃ u, s.swBitStep k se = .next u := by
  have inside : s.e.i / 8 + 1 ≤ s.cfg.slotBytes := by
    have := transfer.fits
    simp only [vectorBytes, ceilDiv] at this
    omega
  obtain ⟨a, ha⟩ := own.memRead_answers at_k transfer.tms inside
  obtain ⟨b, hb⟩ := own.memRead_answers at_k transfer.tdi inside
  have cycled : (s.cycle (vecBit a (s.e.i % 8)) (vecBit b (s.e.i % 8))).2.Ownership := own.of_same rfl rfl
  obtain ⟨old, hold⟩ := cycled.memRead_answers at_k transfer.tdo inside
  obtain ⟨u, hu⟩ := cycled.memWrite_answers at_k transfer.tdo inside
    (setBit (old.getD 0 0) (s.e.i % 8) (s.cycle (vecBit a (s.e.i % 8)) (vecBit b (s.e.i % 8))).1)
  have tms : se.tmsSlot = some t := transfer.tms
  have tdi : se.tdiSlot = some d := transfer.tdi
  have tdo : se.tdoSlot = some o := transfer.tdo
  simp only [State.swBitStep, tms, tdi, tdo, ha, hb, hold, hu, andThen_next]
  exact ⟨_, rfl⟩

theorem State.engineEffect_answers {s : State} {k t d o : Nat} {se : Session} (own : s.Ownership)
    (at_k : s.sessions[k]? = some se) (transfer : Session.Transferring s.cfg se t d o) (e : EngineStep)
    (enabled : s.engineEnabled e se.n = true) : ∃ u, s.engineEffect e k se = .next u := by
  cases e with
  | feed =>
    have tms : se.tmsSlot = some t := transfer.tms
    have tdi : se.tdiSlot = some d := transfer.tdi
    have word : s.e.inW < vectorWords se.n := by
      simp only [State.engineEnabled, State.feedEnabled, Bool.and_eq_true, decide_eq_true_eq] at enabled
      exact enabled.1.1.2
    obtain ⟨a, ha⟩ := own.readWord_answers at_k transfer.tms transfer.fits word
    obtain ⟨b, hb⟩ := own.readWord_answers at_k transfer.tdi transfer.fits word
    simp only [State.engineEffect, State.feed, tms, tdi, ha, hb, andThen_next]
    exact ⟨_, rfl⟩
  | drain => exact State.drain_answers own at_k transfer
  | bitStep | rxPush => exact ⟨_, rfl⟩
  | hwEnd | swEnd => exact State.shiftEnd_answers own at_k transfer
  | swBitStep =>
    simp only [State.engineEnabled, State.swBitStepEnabled, Bool.and_eq_true, decide_eq_true_eq] at enabled
    exact State.swBitStep_answers own at_k transfer enabled.2

theorem State.engineStep_answers {s : State} (own : s.Ownership) (ok : s.SessionsOk) (flight : s.SingleFlight)
    (e : EngineStep) : ∃ t, s.engineStep e = .next t := by
  unfold State.engineStep
  split
  · next answers =>
    obtain ⟨k, owner, ⟨se, at_k, phase⟩, -⟩ := flight.2 ((State.engineAnswers_iff s).1 answers).1
    obtain ⟨t, d, o, transfer⟩ := Session.Ok.transferring (ok k se at_k) phase
    simp only [owner, at_k]
    split
    · next enabled => exact State.engineEffect_answers own at_k transfer e enabled
    · exact ⟨s, rfl⟩
  · exact ⟨s, rfl⟩

theorem State.drawFault_answers {s : State} (flight : s.SingleFlight) (tck tms tdi : Bool) (x : TargetState) :
    ∃ t, s.drawFault tck tms tdi x = .next t := by
  unfold State.drawFault
  split
  · next possible =>
    obtain ⟨k, owner, -⟩ := flight.2 ((State.faultPossible_iff s).1 possible).1
    simp only [State.hwFault, owner]
    exact ⟨_, rfl⟩
  · exact ⟨s, rfl⟩

/-- Where single flight, the sessions' registers and ownership are in order, every input answers. -/
theorem State.perform_answers {s : State} (own : s.Ownership) (ok : s.SessionsOk) (flight : s.SingleFlight) (i : Input) :
    ∃ t, s.perform i = .next t := by
  cases i with
  | hwFault tck tms tdi x => exact State.drawFault_answers flight tck tms tdi x
  | serve k w => exact State.sessionStep_answers (s := { s with serving := k, write := w }) own ok rfl
  | engine e w => exact State.engineStep_answers (s := { s with write := w }) own ok flight e
  | _ => exact ⟨_, rfl⟩

end Sys2Proof.Machine
end

section
/-! The whole invariant: every effect of an input keeps it, and under it every step answers (10_state.md R20-R51;
42_session.md R201). -/

namespace Sys2Proof.Machine

theorem State.shape_iff (s : State) : s.Shape ↔ s.SlotCounts ∧ s.EngineFlags := by
  simp only [State.Shape, State.SlotCounts, State.EngineFlags, and_assoc]

/-- Every effect of an input keeps the whole invariant, one conjunct after the other. -/
theorem State.Inv.effect {s t : State} {i : Input} (inv : s.Inv) (h : Effect i s t) : t.Inv := by
  obtain ⟨config, shape, divisor, memory, lockStep, bounds, flight, halt, sessions, owned, clock⟩ := inv
  obtain ⟨counts, flags⟩ := s.shape_iff.1 shape
  have registers := h.registers
  have phases := h.phases
  have resetCounts (x : TargetState) : (s.blockReset x).SlotCounts :=
    ⟨List.length_replicate .., List.length_replicate ..⟩
  have resetMemory (x : TargetState) : (s.blockReset x).MemoryCanonical :=
    (State.resetWith_memoryCanonical s.cfg s.target).of_same rfl rfl
  exact
    { config := by rw [registers.cfg_eq]; exact config
      shape := t.shape_iff.2 ⟨slotCounts_storageInvariant.effect h counts resetCounts, registers.engineFlags flags⟩
      divisor := registers.divisorLegal config divisor
      memory := memoryCanonical_storageInvariant.effect h memory resetMemory
      lockStep := registers.lockStep lockStep
      bounds := registers.engineBounds bounds
      flight := phases.singleFlight flight
      halt := phases.haltedClosed registers.cfg_eq halt
      sessions := sessions.effect h
      owned := owned.effect sessions h
      clock := registers.clockLow clock }

/-- The invariant reads parameters, globals, sessions, arena, engine and pins only. -/
theorem State.Inv.of_registers {s t : State} (inv : s.Inv) (cfg : t.cfg = s.cfg) (g : t.g = s.g)
    (sessions : t.sessions = s.sessions) (arena : t.arena = s.arena) (e : t.e = s.e) (p : t.p = s.p) : t.Inv := by
  have same : t =
      { s with
        target := t.target, serving := t.serving, write := t.write, inputs := t.inputs, draws := t.draws } := by
    rw [← cfg, ← g, ← sessions, ← arena, ← e, ← p]
  rw [same]
  obtain ⟨config, shape, divisor, memory, lockStep, bounds, flight, halt, sessions, owned, clock⟩ := inv
  exact ⟨config, shape, divisor, memory, lockStep, bounds, flight, halt, sessions, owned, clock⟩

theorem State.Inv.takeInput {s : State} (inv : s.Inv) : s.takeInput.Inv := by
  obtain ⟨cfg, g, sessions, arena, e, p, -⟩ := s.takeInput_frame
  exact inv.of_registers cfg g sessions arena e p

theorem State.Inv.latch {s : State} (inv : s.Inv) (i : Input) : (s.latch i).Inv := by
  obtain ⟨cfg, g, sessions, arena, e, p, -⟩ := State.latch_frame i s
  exact inv.of_registers cfg g sessions arena e p

/-- Settles O51: the input that the step takes answers, and its effect keeps the invariant. -/
theorem invariantIsKeptAndNoRunStops : Obligations.InvariantIsKeptAndNoRunStops := by
  unfold Obligations.InvariantIsKeptAndNoRunStops
  intro s inv
  have taken := inv.takeInput
  obtain ⟨t, performed⟩ := State.perform_answers taken.owned taken.sessions taken.flight s.nextInput
  refine ⟨t, step_eq_next.2 ⟨inv.config, performed⟩, ?_⟩
  exact (taken.latch s.nextInput).effect (State.perform_effect performed)

end Sys2Proof.Machine
end

section
/-! Reads of the arena after a write, and the canonical form under every step (20_memory.md R60, R66). -/

namespace Sys2Proof.Machine

/-- Settles O47: taking the input and latching leave the arena alone, every effect keeps the form, and reset has it. -/
theorem memoryStaysCanonical : Obligations.MemoryStaysCanonical := by
  unfold Obligations.MemoryStaysCanonical
  intro s t memory stepped
  obtain ⟨-, effect⟩ := step_effect stepped
  obtain ⟨cfg, -, -, arena, -⟩ := s.latched_frame s.nextInput
  refine memoryCanonical_storageInvariant.effect effect (memory.of_same cfg arena) fun x => ?_
  exact (State.resetWith_memoryCanonical _ s.target).of_same rfl rfl

/-- A read depends on the parameters, the slot's owner and the bytes it covers only (R66). -/
theorem State.memRead_congr {s t : State} {a off n : Nat} (cfg : t.cfg = s.cfg)
    (owner : (t.arena[a]?).map Slot.owner = (s.arena[a]?).map Slot.owner)
    (bytes : ∀ sl sl', s.arena[a]? = some sl → t.arena[a]? = some sl' → sl.owner.isSome = true →
      sl'.bytes.readRange off n = sl.bytes.readRange off n) : t.memRead a off n = s.memRead a off n := by
  unfold State.memRead
  rw [cfg]
  cases at_s : s.arena[a]? with
  | none =>
    have at_t : t.arena[a]? = none := by simpa [at_s] using owner
    simp only [at_t]
  | some sl =>
    obtain ⟨sl', at_t, same⟩ : ∃ sl', t.arena[a]? = some sl' ∧ sl'.owner = sl.owner := by simpa [at_s] using owner
    simp only [at_t, same]
    cases owned : sl.owner with
    | none => rfl
    | some o => simp only [bytes sl sl' at_s at_t (by simp [owned])]

/-- A write leaves every range that does not cover it as it was. -/
theorem Memory.readRange_write_outside {m : Memory} {off off' n : Nat} (b : Byte) (canonical : Memory.wf m = true)
    (outside : off < off' ∨ off' + n ≤ off) : (m.write off b).readRange off' n = m.readRange off' n := by
  refine List.map_congr_left fun j inside => Memory.read_write_other m off b _ canonical ?_
  rw [List.mem_range] at inside
  omega

theorem State.memRead_memWrite_same {s t : State} {k off : Nat} {b : Byte} (canonical : s.MemoryCanonical)
    (written : s.memWrite k off b = .next t) : t.memRead k off 1 = .next [b] := by
  obtain ⟨⟨sl, at_k, inside, owned⟩, rfl⟩ := (State.memWrite_eq_next _ _ _ _ _).1 written
  obtain ⟨wf, -⟩ := canonical sl (List.mem_of_getElem? at_k)
  refine (State.memRead_eq_next _ k off 1 _).2 ⟨{ sl with bytes := sl.bytes.write off b }, ?_, inside, owned, ?_⟩
  · simp [at_k]
  · simp [Memory.readRange, Memory.read_write_same _ _ _ wf]

theorem State.memRead_memWrite_other {s t : State} {k off k' off' n : Nat} {b : Byte} (canonical : s.MemoryCanonical)
    (written : s.memWrite k off b = .next t) (outside : k' ≠ k ∨ off < off' ∨ off' + n ≤ off) :
    t.memRead k' off' n = s.memRead k' off' n := by
  obtain ⟨-, rfl⟩ := (State.memWrite_eq_next _ _ _ _ _).1 written
  by_cases same : k = k'
  · subst same
    refine State.memRead_congr rfl (by simp [Function.comp_def]) fun sl sl' at_s at_t _ => ?_
    obtain ⟨wf, -⟩ := canonical sl (List.mem_of_getElem? at_s)
    obtain rfl : { sl with bytes := sl.bytes.write off b } = sl' := by simpa [at_s] using at_t
    exact Memory.readRange_write_outside b wf (outside.resolve_left (absurd rfl))
  · refine State.memRead_congr rfl (by simp [same]) fun sl sl' at_s at_t _ => ?_
    obtain rfl : sl = sl' := by simpa [same, at_s] using at_t
    rfl

/-- Settles O59: the byte written is read back, and a read of any other range finds the bytes it found before. -/
theorem arenaReadAfterWrite : Obligations.ArenaReadAfterWrite := by
  unfold Obligations.ArenaReadAfterWrite
  intro s t k off b canonical written
  exact ⟨State.memRead_memWrite_same canonical written, fun _ _ _ => State.memRead_memWrite_other canonical written⟩

end Sys2Proof.Machine
end

section
/-! What session `k` can see of the block, and that its own steps depend on that alone (20_memory.md R84; 40_commands.md
R133; 70_reset_and_hazards.md R251): two runs of every operation, from states that look alike to `k`. -/

namespace Sys2Proof.Machine

theorem State.setDivisor_write (s : State) (p : Word) : (s.setDivisor p).write = s.write := by
  unfold State.setDivisor
  split <;> rfl

/-- `s` and `s'` look alike to session `k`, the bytes of its slots apart: the same parameters, globals, registers of `k` and
slot owners. -/
structure SameView (k : Nat) (s s' : State) : Prop where
  cfg : s'.cfg = s.cfg
  g : s'.g = s.g
  session : s'.sessions[k]? = s.sessions[k]?
  owners : ∀ a : Nat, (s'.arena[a]?).map Slot.owner = (s.arena[a]?).map Slot.owner

/-- The slots that session `k` owns in `s` hold the same bytes in `s'`. -/
def SameBytes (k : Nat) (s s' : State) : Prop :=
  ∀ (a : Nat) (sl sl' : Slot) (r : Role), s.arena[a]? = some sl → s'.arena[a]? = some sl' → sl.owner = some (k, r) →
    sl'.bytes = sl.bytes

/-- Where both runs answer, their states look alike to session `k`. -/
def SameAnswer (k : Nat) (r r' : Res State) : Prop := ∀ t t', r = .next t → r' = .next t' → SameView k t t'

theorem SameAnswer.of_refused {k : Nat} {x : Refusal} {r' : Res State} : SameAnswer k (.refused x) r' := by
  simp [SameAnswer]

/-- Both runs go on from the same value. -/
theorem SameAnswer.andThen {α : Type} {k : Nat} (r : Res α) {f f' : α → Res State}
    (next : ∀ a, SameAnswer k (f a) (f' a)) : SameAnswer k (andThen r f) (andThen r f') := by
  cases r with
  | next a => exact next a
  | fault => simp [SameAnswer]
  | refused => exact .of_refused

/-- A change of two slots with the same owner after which the owners are the same again. -/
theorem Slot.owner_map_congr {x x' : Option Slot} (same : x'.map Slot.owner = x.map Slot.owner) {f f' : Slot → Slot}
    (owner : ∀ sl sl', sl'.owner = sl.owner → (f' sl').owner = (f sl).owner) :
    (x'.map f').map Slot.owner = (x.map f).map Slot.owner := by
  cases x with
  | none =>
    cases x' with
    | none => rfl
    | some sl' => simp at same
  | some sl =>
    cases x' with
    | none => simp at same
    | some sl' => exact congrArg some (owner sl sl' (Option.some.inj same))

namespace SameView

variable {k : Nat} {s s' t t' : State}

theorem symm (view : SameView k s s') : SameView k s' s :=
  ⟨view.cfg.symm, view.g.symm, view.session.symm, fun a => (view.owners a).symm⟩

theorem trans (first : SameView k s t) (second : SameView k t t') : SameView k s t' :=
  ⟨second.cfg.trans first.cfg, second.g.trans first.g, second.session.trans first.session,
    fun a => (second.owners a).trans (first.owners a)⟩

theorem answer (view : SameView k s s') : SameAnswer k (.next s) (.next s') := by
  rintro t t' ⟨⟩ ⟨⟩
  exact view

/-! ## Storage operations -/

theorem mapSession (view : SameView k s s') (f : Session → Session) :
    SameView k (s.mapSession k f) (s'.mapSession k f) :=
  { view with session := by simp [view.session] }

/-- The update of a slot looks alike where the new owner depends on the old one only. -/
theorem mapSlot (view : SameView k s s') (a : Nat) {f f' : Slot → Slot}
    (owner : ∀ sl sl', sl'.owner = sl.owner → (f' sl').owner = (f sl).owner) :
    SameView k (s.mapSlot a f) (s'.mapSlot a f') := by
  refine { view with owners := fun b => ?_ }
  simp only [State.mapSlot_arena, List.getElem?_modify, Option.map_eq_map]
  refine Slot.owner_map_congr (view.owners b) fun sl sl' same => ?_
  split
  · exact owner sl sl' same
  · exact same

theorem acquireSlot (view : SameView k s s') (r : Role) :
    (s.acquireSlot k r = none ∧ s'.acquireSlot k r = none) ∨
      ∃ a t t', s.acquireSlot k r = some (a, t) ∧ s'.acquireSlot k r = some (a, t') ∧ SameView k t t' := by
  have owners : s'.arena.map Slot.owner = s.arena.map Slot.owner :=
    List.ext_getElem? fun a => by simpa only [List.getElem?_map] using view.owners a
  have first : (s'.arena.findIdx? fun sl => sl.owner.isNone) = s.arena.findIdx? fun sl => sl.owner.isNone := by
    simpa only [List.findIdx?_map, Function.comp_def] using congrArg (List.findIdx? Option.isNone) owners
  unfold State.acquireSlot
  rw [first]
  cases s.arena.findIdx? fun sl => sl.owner.isNone with
  | none => exact .inl ⟨rfl, rfl⟩
  | some a => exact .inr ⟨a, _, _, rfl, rfl, view.mapSlot a fun _ _ _ => rfl⟩

/-- A write changes no owner. -/
theorem memWrite {a off : Nat} {b : Byte} (written : s.memWrite a off b = .next t) : SameView k s t := by
  obtain ⟨-, rfl⟩ := (State.memWrite_eq_next _ _ _ _ _).1 written
  refine ⟨rfl, rfl, rfl, fun c => ?_⟩
  rw [State.mapSlot_arena, List.getElem?_modify, Option.map_eq_map, Option.map_map]
  congr 1
  funext sl
  dsimp only [Function.comp_apply]
  split <;> rfl

theorem close (view : SameView k s s') (code : CloseReason) : SameView k (s.close k code) (s'.close k code) where
  cfg := by simpa using view.cfg
  g := by simpa using view.g
  session := by simp [view.session]
  owners a := by
    simp only [State.close_arena, view.session]
    refine Slot.owner_map_congr (view.owners a) fun sl sl' same => ?_
    split
    · rfl
    · exact same

theorem emitThen (view : SameView k s s') (write : s'.write = s.write) (bytes : List Byte) {cont : State → State}
    (hcont : ∀ {u u' : State}, SameView k u u' → SameView k (cont u) (cont u')) :
    SameView k (s.emitThen k bytes cont) (s'.emitThen k bytes cont) := by
  unfold State.emitThen
  rw [view.session, write]
  split
  · exact view
  · split
    · exact hcont (view.mapSession _)
    · exact (view.mapSession _).close .write

/-! ## The decoder -/

theorem validateCount (view : SameView k s s') (h : Vector Byte 11) :
    SameView k (s.validateCount k h) (s'.validateCount k h) := by
  unfold State.validateCount
  rw [view.cfg]
  split
  · exact view.close .lenZero
  · exact view.close .lenOver
  · exact view.close .badPrefix
  · exact view.close .prefixTail
  · have counted := view.mapSession fun se => { se with n := countOf h }
    obtain ⟨full, full'⟩ | ⟨a, t, t', tms, tms', first⟩ := counted.acquireSlot .tms
    · simp only [full, full']
      exact counted.close .noSlot
    · have held := first.mapSession fun se => { se with tmsSlot := some a }
      simp only [tms, tms']
      obtain ⟨full, full'⟩ | ⟨d, u, u', tdi, tdi', second⟩ := held.acquireSlot .tdi
      · simp only [full, full']
        exact held.close .noSlot
      · simp only [tdi, tdi']
        exact second.mapSession _

theorem headerByte (view : SameView k s s') (b : Byte) (se : Session) :
    SameView k (s.headerByte k b se) (s'.headerByte k b se) := by
  have stored := view.mapSession fun x => { x with hdr := se.hdr.setIfInBounds se.hlen b, hlen := se.hlen + 1 }
  unfold State.headerByte
  rw [view.cfg]
  dsimp only
  split
  · unfold State.classifyStep
    split
    · exact stored.mapSession _
    · exact stored.close .badPrefix
  · split
    · exact stored
    · split
      · exact stored.close .prefixTail
      · split
        · exact stored.validateCount _
        · exact stored

theorem payloadByte (view : SameView k s s') (b : Byte) (se : Session) :
    SameAnswer k (s.payloadByte k b se) (s'.payloadByte k b se) := by
  intro t t' taken taken'
  obtain ⟨_, _, u, -, written, rfl⟩ := State.payloadByte_eq_next taken
  obtain ⟨_, _, u', -, written', rfl⟩ := State.payloadByte_eq_next taken'
  exact (((memWrite written).symm.trans view).trans (memWrite written')).mapSession _

theorem decodeByte (view : SameView k s s') : SameAnswer k (s.decodeByte k) (s'.decodeByte k) := by
  unfold State.decodeByte
  rw [view.session]
  split
  · exact .of_refused
  · split
    · exact view.answer
    · next se _ _ b rest _ =>
      have consumed := view.mapSession fun se => { se with rx := rest }
      dsimp only
      split
      · exact (consumed.headerByte b se).answer
      · exact consumed.payloadByte b se

/-! ## The commands -/

theorem transferStart (view : SameView k s s') (n : Word) : SameView k (s.transferStart n) (s'.transferStart n) where
  cfg := by simpa using view.cfg
  g := by simpa using view.g
  session := by simpa using view.session
  owners := by simpa using view.owners

theorem setDivisor (view : SameView k s s') (p : Word) : SameView k (s.setDivisor p) (s'.setDivisor p) := by
  unfold State.setDivisor
  rw [view.cfg]
  split
  · exact ⟨rfl, by simp only [view.g], view.session, view.owners⟩
  · exact view

theorem executedShift (view : SameView k s s') (served : s.serving = k) (served' : s'.serving = k)
    (held : s'.heldCommand k = s.heldCommand k) (n : Word) (tms tdi : List Byte) :
    SameAnswer k (execShift n tms tdi s) (execShift n tms tdi s') := by
  have dispatching := view.mapSession fun se => { se with phase := .dispatching }
  unfold execShift
  simp only [served, served', view.session, view.g, held]
  split
  · exact .of_refused
  · split
    · exact (dispatching.close .backendInvalid).answer
    · obtain ⟨full, full'⟩ | ⟨o, t, t', taken, taken', started⟩ := dispatching.acquireSlot .tdo
      · simp only [full, full']
        exact (dispatching.close .noSlot).answer
      · have owned := started.mapSession fun se => { se with tdoSlot := some o }
        simp only [taken, taken']
        refine .andThen _ fun i => ?_
        split
        · refine (transferStart ?_ n).answer
          exact { owned with g := by simp only [owned.g] }
        · exact .of_refused

theorem executed (view : SameView k s s') (served : s.serving = k) (served' : s'.serving = k) (write : s'.write = s.write)
    (held : s'.heldCommand k = s.heldCommand k) (i : Instr) : SameAnswer k (exec i s) (exec i s') := by
  cases i with
  | getinfo =>
    simp only [exec, execGetInfo, served, served', view.session, view.cfg]
    split
    · exact .of_refused
    · exact (view.emitThen write _ fun after => after.mapSession _).answer
  | settck p =>
    simp only [exec, execSetTck, served, served', view.session]
    split
    · exact .of_refused
    · have write' : (s'.setDivisor p).write = (s.setDivisor p).write := by
        rw [State.setDivisor_write, State.setDivisor_write, write]
      exact ((view.setDivisor p).emitThen write' _ fun after => after.mapSession _).answer
  | shift n tms tdi => exact view.executedShift served served' held n tms tdi

/-! ## The loop -/

/-- A read of a slot that a register of `k` names. -/
theorem memRead (view : SameView k s s') (own : s.Ownership) (bytes : SameBytes k s s') {se : Session} {r : Role} {a : Nat}
    (at_k : s.sessions[k]? = some se) (named : se.slotOf r = some a) (off n : Nat) :
    s'.memRead a off n = s.memRead a off n := by
  obtain ⟨sl, at_a, owner⟩ := (own a k r).2 ⟨se, at_k, named⟩
  refine State.memRead_congr view.cfg (view.owners a) fun x x' at_x at_x' _ => ?_
  obtain rfl : sl = x := Option.some.inj (at_a.symm.trans at_x)
  rw [bytes a sl x' r at_a at_x' owner]

/-- The command that `k` holds is the same (R123). -/
theorem heldCommand (view : SameView k s s') (own : s.Ownership) (bytes : SameBytes k s s') :
    s'.heldCommand k = s.heldCommand k := by
  unfold State.heldCommand
  rw [view.session]
  split
  · rfl
  · next se at_k =>
    split
    · rfl
    · rfl
    · rfl
    · split
      · next t d tms tdi =>
        rw [view.memRead own bytes (r := .tms) at_k tms, view.memRead own bytes (r := .tdi) at_k tdi]
      · rfl

theorem endOfStream (view : SameView k s s') (se : Session) : SameView k (s.endOfStream k se) (s'.endOfStream k se) := by
  unfold State.endOfStream
  split
  · exact view.close .eofMidCmd
  · exact view.close .peerClosed

theorem awaitingStep (view : SameView k s s') (served : s.serving = k) (served' : s'.serving = k)
    (write : s'.write = s.write) (held : s'.heldCommand k = s.heldCommand k) (se : Session) :
    SameAnswer k (s.awaitingStep k se) (s'.awaitingStep k se) := by
  unfold State.awaitingStep
  split
  · unfold State.dispatch
    rw [held]
    exact .andThen _ (view.executed served served' write held)
  · split
    · exact view.decodeByte
    · split
      · exact (view.endOfStream se).answer
      · exact view.answer

theorem sessionStep (view : SameView k s s') (served : s.serving = k) (served' : s'.serving = k)
    (write : s'.write = s.write) (held : s'.heldCommand k = s.heldCommand k) :
    SameAnswer k (s.sessionStep k) (s'.sessionStep k) := by
  have free : s'.loopFree = s.loopFree := by rw [State.loopFree, view.g, State.loopFree]
  unfold State.sessionStep
  rw [view.session, free]
  split
  · exact view.answer
  · split
    · split
      · exact view.answer
      · exact (view.mapSession _).answer
      · exact view.awaitingStep served served' write held _
      · exact view.answer
    · exact view.answer

end SameView

/-- Settles O58: the served session's step is a function of what looks alike in both states. -/
theorem sessionStepsDoNotLeak : Obligations.SessionStepsDoNotLeak := by
  unfold Obligations.SessionStepsDoNotLeak
  intro s s' t t' k w own cfg g session owners bytes taken taken'
  have view : SameView k { s with serving := k, write := w } { s' with serving := k, write := w } :=
    ⟨cfg, g, session, owners⟩
  have held := view.heldCommand own bytes
  have after := view.sessionStep rfl rfl rfl held t t' taken taken'
  exact ⟨after.session, after.g⟩

end Sys2Proof.Machine
end

section
/-! The reply of a transfer and its trailing bits (20_memory.md R63, R64; 30_encoding.md R97; 41_shift_engine.md R144,
R146). -/

namespace Sys2Proof.Machine

/-- A packed vector read bit by bit: the bits below `n`, then zeros, also past its last byte. -/
theorem vecBit_packByte (bit : Nat → Bool) (n i : Nat) :
    vecBit ((List.range (ceilDiv n 8)).map (packByte bit n)) i = (decide (i < n) && bit i) := by
  by_cases inside : i / 8 < ceilDiv n 8
  · have same : 8 * (i / 8) + i % 8 = i := by omega
    simp [vecBit, packByte, inside, same, show i % 8 < 8 by omega]
  · have past : ¬i < n := by
      simp only [ceilDiv] at inside
      omega
    simp [vecBit, inside, past]

theorem packByte_congr {bit bit' : Nat → Bool} {n : Nat} (same : ∀ i, i < n → bit i = bit' i) :
    packByte bit n = packByte bit' n := by
  funext j
  unfold packByte
  congr 1
  funext k
  by_cases inside : 8 * j + k.val < n
  · rw [same _ inside]
  · simp [inside]

section
variable {n : Nat} {tms tdi tms' tdi' : List Byte}
  (agree : ∀ i, i < n → vecBit tms i = vecBit tms' i ∧ vecBit tdi i = vecBit tdi' i)
include agree

/-- Vectors that agree below `n` lead the target through the same states up to edge `n`. -/
theorem targetAt_congr (c : Config) (t0 : TargetState) (i : Nat) (within : i ≤ n) :
    targetAt c t0 tms tdi i = targetAt c t0 tms' tdi' i := by
  induction i with
  | zero => rfl
  | succ i ih =>
    obtain ⟨sameTms, sameTdi⟩ := agree i within
    simp only [targetAt, ih (by omega), sameTms, sameTdi]

theorem transferReply_congr (c : Config) (t0 : TargetState) :
    transferReply c t0 n tms tdi = transferReply c t0 n tms' tdi' := by
  have bits : packByte (tdoBit c t0 tms tdi) n = packByte (tdoBit c t0 tms' tdi') n :=
    packByte_congr fun i inside => by rw [tdoBit, tdoBit, targetAt_congr agree c t0 i inside.le]
  rw [transferReply, transferReply, bits]

theorem edgePairs_congr : edgePairs n tms tdi = edgePairs n tms' tdi' := by
  refine List.map_congr_left fun i inside => ?_
  obtain ⟨sameTms, sameTdi⟩ := agree i (List.mem_range.1 inside)
  rw [sameTms, sameTdi]

end

/-- Settles O29: the reply is packed bit by bit, and only bits below `n` reach it, the target and the pins. -/
theorem trailingBitsAreZeroOutAndIgnoredIn : Obligations.TrailingBitsAreZeroOutAndIgnoredIn := by
  unfold Obligations.TrailingBitsAreZeroOutAndIgnoredIn
  constructor
  · intro c t0 n tms tdi
    exact ⟨by simp [transferReply], vecBit_packByte _ n⟩
  · intro c t0 n tms tdi tms' tdi' agree
    exact ⟨transferReply_congr agree c t0, targetAt_congr agree c t0 n le_rfl, edgePairs_congr agree⟩

end Sys2Proof.Machine
end

section
/-! A SHIFT that cannot start closes its session (20_memory.md R69; 40_commands.md R124; 60_exceptions.md R215). -/

namespace Sys2Proof.Machine

/-- With a valid backend and a full arena SHIFT is a close with `E_NO_SLOT`, whatever its operands (R69, R124). -/
theorem exec_shift_of_full {s : State} {se : Session} (at_k : s.sessions[s.serving]? = some se)
    (valid : s.g.backendValid = true) (full : ∀ sl ∈ s.arena, sl.owner ≠ none) (n : Word) (tms tdi : List Byte) :
    exec (.shift n tms tdi) s =
      .next ((s.mapSession s.serving fun se => { se with phase := .dispatching }).close s.serving .noSlot) := by
  have noneFree : (s.mapSession s.serving fun se => { se with phase := .dispatching }).acquireSlot s.serving .tdo = none :=
    (State.acquireSlot_eq_none _ _ _).2 fun sl at_a => Option.isSome_iff_ne_none.2 (full sl at_a)
  simp [exec, execShift, at_k, valid, noneFree]

/-- Slot `a` after session `k` closes: free if the session held it, its bytes untouched (R215). -/
theorem State.close_slot {s : State} {k a : Nat} {se : Session} {sl : Slot} (at_k : s.sessions[k]? = some se)
    (at_a : s.arena[a]? = some sl) (code : CloseReason) :
    (s.close k code).arena[a]? =
      some { sl with
        owner := if se.tmsSlot = some a ∨ se.tdiSlot = some a ∨ se.tdoSlot = some a then none else sl.owner } := by
  have holds : se.holds a = true ↔ se.tmsSlot = some a ∨ se.tdiSlot = some a ∨ se.tdoSlot = some a := by
    simp [Session.holds, or_assoc]
  rw [State.close_arena, at_a, at_k]
  simp only [Option.map_some, Option.some.injEq, holds]
  split <;> rfl

/-- Settles O22: the SHIFT is a close, and a close frees exactly the slots the session's registers name. -/
theorem shiftWithoutFreeSlotCloses : Obligations.ShiftWithoutFreeSlotCloses := by
  unfold Obligations.ShiftWithoutFreeSlotCloses
  intro s se n tms tdi at_k valid full
  have dispatching : (s.mapSession s.serving fun se => { se with phase := .dispatching }).sessions[s.serving]? =
      some { se with phase := .dispatching } := by simp [at_k]
  have frame := (OnlyStorage.mapSession s s.serving fun se => { se with phase := .dispatching }).trans
    (OnlyStorage.close _ s.serving .noSlot)
  refine ⟨_, exec_shift_of_full at_k valid full n tms tdi, frame.g, frame.e, frame.p, frame.target, ?_,
    fun a sl at_a => ?_⟩
  · rw [State.close_sessions, List.getElem?_modify_eq, dispatching]
    rfl
  · exact State.close_slot dispatching at_a .noSlot

end Sys2Proof.Machine
end

section
/-! The whole-command decoder, said once: after the class, the tail and the length of the header only the operands are left
(30_encoding.md R85-R93, R98). -/

namespace Sys2Proof

/-! ## Literals and classes -/

theorem length_literal (k : Kind) : (literal k).length = k.prefixLen := by cases k <;> rfl

theorem Kind.two_le_prefixLen (k : Kind) : 2 ≤ k.prefixLen := by cases k <;> decide

theorem Kind.prefixLen_le_hdrLen (k : Kind) : k.prefixLen ≤ k.hdrLen := by cases k <;> decide

/-- A byte pair is of class `k` exactly if the literal of `k` begins with it (R86, R112). -/
theorem classify_eq_some_iff {b0 b1 : Byte} {k : Kind} :
    classify b0 b1 = some k ↔ (literal k)[0]? = some b0 ∧ (literal k)[1]? = some b1 := by
  unfold classify
  cases k <;> split_ifs <;> simp_all [literal, eq_comm]

/-- The literal's own bytes pass the tail check (R113). -/
theorem tailByteOk_of_literal {c : Config} {k : Kind} {j : Nat} {b : Byte} (same : (literal k)[j]? = some b) :
    tailByteOk c k j b = true := by
  simp [tailByteOk, same]

theorem tailOk_iff {c : Config} {k : Kind} {bs : List Byte} :
    tailOk c k bs = true ↔ ∀ j, j < bs.length → j < k.prefixLen → tailByteOk c k j (bs.getD j 0) = true := by
  simp [tailOk]

theorem tailOk_literal_append (c : Config) (k : Kind) (tl : List Byte) : tailOk c k (literal k ++ tl) = true := by
  refine tailOk_iff.2 fun j _ inPrefix => tailByteOk_of_literal ?_
  have within : j < (literal k).length := by rwa [length_literal]
  simp [List.getElem?_append_left within, List.getElem?_eq_getElem within]

/-- With the full literal compared, a command that passes the tail check begins with its literal (R93). -/
theorem take_prefixLen_eq_literal {c : Config} {k : Kind} {bs : List Byte} (full : c.checkFullPrefix = true)
    (known : classify (bs.getD 0 0) (bs.getD 1 0) = some k) (tail : tailOk c k bs = true)
    (long : k.prefixLen ≤ bs.length) : bs.take k.prefixLen = literal k := by
  refine List.ext_getElem? fun j => ?_
  by_cases inPrefix : j < k.prefixLen
  · have within : j < bs.length := by omega
    rw [List.getElem?_take_of_lt inPrefix]
    obtain ⟨zeroth, first⟩ := classify_eq_some_iff.1 known
    have compared := tailOk_iff.1 tail j within inPrefix
    match j with
    | 0 => rw [zeroth]; simp [within]
    | 1 => rw [first]; simp [within]
    | j + 2 => simpa [tailByteOk, full, Nat.not_le.2 inPrefix, within, eq_comm] using compared
  · rw [List.getElem?_eq_none (by simp; omega), List.getElem?_eq_none (by rw [length_literal]; omega)]

theorem encodingStatement (i : Instr) : Laws.Encoding.Statement i := by
  cases i with
  | getinfo => exact Laws.Encoding.getinfo
  | settck p => exact Laws.Encoding.settck p
  | shift n tms tdi => exact Laws.Encoding.shift n tms tdi

theorem length_encode (i : Instr) : (encode i).length = Laws.encodingLength i := by
  obtain ⟨-, length, -⟩ := encodingStatement i
  exact length

/-! ## Operands -/

/-- Four bytes of a sequence are those of the operand they make up (R70, R90). -/
theorem drop_eq_le32Bytes_append {bs : List Byte} {j : Nat} (long : j + 4 ≤ bs.length) :
    bs.drop j = le32Bytes (operandAt bs j) ++ bs.drop (j + 4) := by
  rw [operandAt, le32Bytes_le32, List.drop_eq_getElem_cons (by omega), List.drop_eq_getElem_cons (by omega),
    List.drop_eq_getElem_cons (by omega), List.drop_eq_getElem_cons (by omega)]
  simp [show j < bs.length by omega, show j + 1 < bs.length by omega,
    show j + 2 < bs.length by omega, show j + 3 < bs.length by omega]

theorem operandAt_append_le32Bytes (bs : List Byte) (w : Word) (rest : List Byte) :
    operandAt (bs ++ (le32Bytes w ++ rest)) bs.length = w := by
  have same : operandAt (bs ++ (le32Bytes w ++ rest)) bs.length = operandAt (le32Bytes w) 0 := by
    simp [operandAt, le32Bytes]
  rw [same, operandAt_le32Bytes]

/-! ## The decoder after its header checks -/

/-- What is left to decode once the header of a command of class `k` is complete and has passed its checks. -/
def decodeOperands (c : Config) (k : Kind) (bs : List Byte) : DecodeResult :=
  match k with
  | .getinfo => .done .getinfo (bs.drop 8)
  | .settck => .done (.settck (operandAt bs 7)) (bs.drop 11)
  | .shift => decodeShift c bs

theorem decode_of_header {c : Config} {k : Kind} {bs : List Byte} (known : classify (bs.getD 0 0) (bs.getD 1 0) = some k)
    (tail : tailOk c k bs = true) (long : k.hdrLen ≤ bs.length) : decode c bs = decodeOperands c k bs := by
  have two : 2 ≤ bs.length := k.two_le_prefixLen.trans (k.prefixLen_le_hdrLen.trans long)
  match bs, two with
  | b0 :: b1 :: tl, _ =>
    have classified : classify b0 b1 = some k := known
    simp only [decode, classified, tail, Bool.true_eq_false, if_false, if_neg (Nat.not_lt.2 long)]
    cases k <;> rfl

/-- A command is handed out only after its header has passed every check. -/
theorem header_of_decode_eq_done {c : Config} {bs rest : List Byte} {i : Instr} (done : decode c bs = .done i rest) :
    ∃ k, classify (bs.getD 0 0) (bs.getD 1 0) = some k ∧ tailOk c k bs = true ∧ k.hdrLen ≤ bs.length ∧
      decodeOperands c k bs = .done i rest := by
  have done' := done
  unfold decode at done'
  split at done'
  · next b0 b1 tl =>
    split at done'
    · cases done'
    · next k known =>
      split at done'
      · cases done'
      · next tail =>
        split at done'
        · cases done'
        · next long =>
          have tail := Bool.eq_true_of_not_eq_false tail
          have long := Nat.le_of_not_lt long
          have classified : classify ((b0 :: b1 :: tl).getD 0 0) ((b0 :: b1 :: tl).getD 1 0) = some k := known
          exact ⟨k, classified, tail, long, (decode_of_header classified tail long).symm.trans done⟩
  · cases done'

/-- A literal with a complete header after it leaves only the operands to decode. -/
theorem decode_literal_append {c : Config} {k : Kind} {tl : List Byte} (long : k.hdrLen ≤ (literal k ++ tl).length) :
    decode c (literal k ++ tl) = decodeOperands c k (literal k ++ tl) :=
  decode_of_header (by cases k <;> rfl) (tailOk_literal_append c k tl) long

theorem Instr.wf_shift_iff {c : Config} {n : Word} {tms tdi : List Byte} :
    (Instr.shift n tms tdi).wf c = true ↔
      countError c n = none ∧ tms.length = vectorBytes n ∧ tdi.length = vectorBytes n := by
  simp [Instr.wf, Machine.countError_eq_none, vectorBytes, and_assoc]

theorem decodeShift_of_countError {c : Config} {bs : List Byte} {e : DecodeError}
    (illegal : countError c (operandAt bs 6) = some e) : decodeShift c bs = .reject e := by
  simp only [decodeShift, illegal]

theorem decodeShift_of_legal {c : Config} {bs : List Byte} (legal : countError c (operandAt bs 6) = none) :
    decodeShift c bs =
      if bs.length < 10 + 2 * vectorBytes (operandAt bs 6) then .more
      else
        .done
          (.shift (operandAt bs 6) ((bs.drop 10).take (vectorBytes (operandAt bs 6)))
            (((bs.drop 10).drop (vectorBytes (operandAt bs 6))).take (vectorBytes (operandAt bs 6))))
          ((bs.drop 10).drop (2 * vectorBytes (operandAt bs 6))) := by
  simp only [decodeShift, legal]

/-- A SHIFT is handed out exactly if it is well-formed and its vectors and the bytes left make up the payload (R89, R91). -/
theorem decodeShift_eq_done_iff {c : Config} {bs rest : List Byte} {i : Instr} (header : 10 ≤ bs.length) :
    decodeShift c bs = .done i rest ↔
      ∃ tms tdi, i = .shift (operandAt bs 6) tms tdi ∧ i.wf c = true ∧ bs.drop 10 = tms ++ (tdi ++ rest) := by
  constructor
  · intro done
    cases legal : countError c (operandAt bs 6) with
    | some e =>
      rw [decodeShift_of_countError legal] at done
      cases done
    | none =>
      rw [decodeShift_of_legal legal] at done
      split_ifs at done with short
      obtain ⟨rfl, rfl⟩ := DecodeResult.done.inj done
      refine ⟨_, _, rfl, Instr.wf_shift_iff.2 ⟨legal, by simp; omega, by simp; omega⟩, ?_⟩
      rw [two_mul, ← List.drop_drop, List.take_append_drop, List.take_append_drop]
  · rintro ⟨tms, tdi, rfl, wf, payload⟩
    obtain ⟨legal, lengthTms, lengthTdi⟩ := Instr.wf_shift_iff.1 wf
    have whole := congrArg List.length payload
    simp only [List.length_drop, List.length_append] at whole
    rw [decodeShift_of_legal legal, if_neg (by omega), payload, two_mul, ← List.drop_drop,
      List.take_left' lengthTms, List.drop_left' lengthTms, List.take_left' lengthTdi, List.drop_left' lengthTdi]

end Sys2Proof
end

section
/-! The decoder and the encoder against each other, and the encodings the decoder refuses (30_encoding.md R85-R102). -/

namespace Sys2Proof

/-- Settles O1: the literal passes the header checks, and the operand's bytes give the operand back. -/
theorem decodeInvertsEncode : Obligations.DecodeInvertsEncode := by
  unfold Obligations.DecodeInvertsEncode
  intro c i rest wf
  cases i with
  | getinfo => exact decode_literal_append (k := .getinfo) (by simp [literal, Kind.hdrLen])
  | settck p =>
    have operand := operandAt_append_le32Bytes (literal .settck) p rest
    rw [encode, List.append_assoc,
      decode_literal_append (k := .settck) (by simp [literal, le32Bytes, Kind.hdrLen])]
    exact congrArg (fun w => DecodeResult.done (.settck w) rest) operand
  | shift n tms tdi =>
    have long : 10 ≤ (literal .shift ++ (le32Bytes n ++ (tms ++ (tdi ++ rest)))).length := by
      simp [literal, le32Bytes]
    have operand : operandAt (literal .shift ++ (le32Bytes n ++ (tms ++ (tdi ++ rest)))) 6 = n :=
      operandAt_append_le32Bytes (literal .shift) n (tms ++ (tdi ++ rest))
    simp only [encode, List.append_assoc]
    rw [decode_literal_append (k := .shift) long]
    exact (decodeShift_eq_done_iff long).2 ⟨tms, tdi, by rw [operand], wf, rfl⟩

/-- Settles O3: the words with their full literal are encodings, and the tail of "gexxxxxx" is not compared. -/
theorem sampleWordsDecode : Obligations.SampleWordsDecode := by
  unfold Obligations.SampleWordsDecode
  exact ⟨decodeInvertsEncode _ .getinfo [] rfl, by decide, decodeInvertsEncode _ (.settck 100) [] rfl,
    decodeInvertsEncode _ (.shift 9 [0x03, 0x00] [0xFF, 0x01]) [] (by decide)⟩

/-- Settles O2: the header checks and the length leave exactly the command's own bytes, which `le32Bytes` rebuilds. -/
theorem decodedCommandIsWellFormed : Obligations.DecodedCommandIsWellFormed := by
  unfold Obligations.DecodedCommandIsWellFormed
  intro c bs rest i done
  obtain ⟨k, known, tail, long, operands⟩ := header_of_decode_eq_done done
  have begins (full : c.checkFullPrefix = true) : bs = literal k ++ bs.drop k.prefixLen := by
    rw [← take_prefixLen_eq_literal full known tail (k.prefixLen_le_hdrLen.trans long), List.take_append_drop]
  cases k with
  | getinfo =>
    obtain ⟨rfl, rfl⟩ : Instr.getinfo = i ∧ bs.drop 8 = rest := by simpa [decodeOperands] using operands
    exact ⟨rfl, long, rfl, begins⟩
  | settck =>
    obtain ⟨rfl, rfl⟩ : Instr.settck (operandAt bs 7) = i ∧ bs.drop 11 = rest := by simpa [decodeOperands] using operands
    refine ⟨rfl, long, rfl, fun full => ?_⟩
    rw [encode, List.append_assoc, ← drop_eq_le32Bytes_append long]
    exact begins full
  | shift =>
    obtain ⟨tms, tdi, rfl, wf, payload⟩ := (decodeShift_eq_done_iff long).1 operands
    have length : (encode (.shift (operandAt bs 6) tms tdi)).length = 10 + (tms.length + tdi.length) := by
      rw [length_encode, Laws.encodingLength, Nat.add_assoc]
    have whole := congrArg List.length payload
    simp only [List.length_drop, List.length_append] at whole
    have atLeastTen : 10 ≤ bs.length := long
    refine ⟨wf, by omega, ?_, fun full => ?_⟩
    · rw [length, ← List.drop_drop, payload, ← List.append_assoc, List.drop_left' List.length_append]
    · simp only [encode, List.append_assoc]
      rw [← payload, ← drop_eq_le32Bytes_append long]
      exact begins full

/-- Settles O4: no class, no command; a SETTCK with any operand is an encoding; a complete SHIFT header is judged by its
count alone. -/
theorem onlyTheNamedEncodingsAreIllegal : Obligations.OnlyTheNamedEncodingsAreIllegal := by
  unfold Obligations.OnlyTheNamedEncodingsAreIllegal
  refine ⟨fun c b0 b1 rest notGe notSe notSh => ?_, fun c p0 p1 p2 p3 rest => ?_, fun c n0 n1 n2 n3 rest => ?_⟩
  · have unknown : classify b0 b1 = none := by rw [classify, if_neg notGe, if_neg notSe, if_neg notSh]
    simp only [decode, unknown]
  · have decoded := decodeInvertsEncode c (.settck (le32 p0 p1 p2 p3)) rest rfl
    rwa [encode, le32Bytes_le32, List.append_assoc] at decoded
  · have shifted : decode c (literal .shift ++ n0 :: n1 :: n2 :: n3 :: rest) =
        decodeShift c (literal .shift ++ n0 :: n1 :: n2 :: n3 :: rest) :=
      decode_literal_append (k := .shift) (by simp [literal, Kind.hdrLen])
    have count : operandAt (literal .shift ++ n0 :: n1 :: n2 :: n3 :: rest) 6 = le32 n0 n1 n2 n3 := rfl
    rw [shifted]
    refine ⟨fun zero => ?_, fun tooLong => ?_, fun least most e => ?_⟩
    · exact decodeShift_of_countError (by rw [count, countError, if_pos zero])
    · exact decodeShift_of_countError (by rw [count, countError, if_neg (by omega), if_pos tooLong])
    · rw [decodeShift_of_legal (by rw [count]; exact Machine.countError_eq_none.2 ⟨least, most⟩)]
      split <;> exact DecodeResult.noConfusion

end Sys2Proof
end

section
/-! `decimal` is Mathlib's list of decimal digits, most significant first, in ASCII (30_encoding.md R95). -/

namespace Sys2Proof.Machine

/-- The ASCII code of a decimal digit (R95; log 5). -/
def digitByte (d : Nat) : Byte := BitVec.ofNat 8 (0x30 + d)

theorem toNat_digitByte {d : Nat} (digit : d < 10) : (digitByte d).toNat = 0x30 + d := by
  rw [digitByte, BitVec.toNat_ofNat, Nat.mod_eq_of_lt (by omega)]

theorem decimalDigits_eq {fuel n : Nat} (positive : 0 < n) (enough : n < fuel) (acc : List Byte) :
    decimalDigits fuel n acc = (Nat.digits 10 n).reverse.map digitByte ++ acc := by
  induction fuel generalizing n acc with
  | zero => omega
  | succ fuel ih =>
    rw [Nat.digits_def' (by decide) positive, List.reverse_cons, List.map_append, List.append_assoc]
    simp only [decimalDigits]
    split
    · next last => rw [last, Nat.digits_zero]; rfl
    · next more => exact ih (by omega) (by omega) _

theorem decimal_eq {n : Nat} (positive : 0 < n) : decimal n = (Nat.digits 10 n).reverse.map digitByte := by
  rw [decimal, decimalDigits_eq positive (Nat.lt_succ_self n), List.append_nil]

/-- The digits, most significant first, read from the left (Horner). -/
theorem foldl_digitBytes {ds : List Nat} (digits : ∀ d ∈ ds, d < 10) :
    (ds.reverse.map digitByte).foldl (fun v (d : Byte) => 10 * v + (d.toNat - 0x30)) 0 = Nat.ofDigits 10 ds := by
  rw [List.foldl_map, List.foldl_reverse]
  induction ds with
  | nil => rfl
  | cons d ds ih =>
    rw [List.forall_mem_cons] at digits
    rw [List.foldr_cons, ih digits.2, toNat_digitByte digits.1, Nat.ofDigits_cons]
    rw [Nat.add_sub_cancel_left, Nat.add_comm]

/-- Settles O13: for positive numbers from `Nat.digits`, and 0 is the one digit 0. -/
theorem decimalIsTheNumber : Obligations.DecimalIsTheNumber := by
  unfold Obligations.DecimalIsTheNumber
  intro n
  rcases Nat.eq_zero_or_pos n with rfl | positive
  · exact ⟨rfl, by decide, by decide, by decide, fun _ => rfl⟩
  · have digits : ∀ d ∈ Nat.digits 10 n, d < 10 := fun d => Nat.digits_lt_base (by decide)
    have nonempty : Nat.digits 10 n ≠ [] := Nat.digits_ne_nil_iff_ne_zero.2 positive.ne'
    rw [decimal_eq positive]
    refine ⟨?_, ?_, ?_, fun _ => ?_, fun zero => absurd zero positive.ne'⟩
    · rw [foldl_digitBytes digits, Nat.ofDigits_digits]
    · simp only [List.forall_mem_map, List.mem_reverse]
      intro d isDigit
      have small := digits d isDigit
      rw [toNat_digitByte small]
      omega
    · simpa only [ne_eq, List.map_eq_nil_iff, List.reverse_eq_nil_iff] using nonempty
    · rw [List.head?_map, List.head?_reverse, List.getLast?_eq_getLast_of_ne_nil nonempty]
      have value := toNat_digitByte (digits _ (List.getLast_mem nonempty))
      have leading : (Nat.digits 10 n).getLast nonempty ≠ 0 := Nat.getLast_digit_ne_zero 10 positive.ne'
      intro zero
      rw [Option.map_some, Option.some.injEq] at zero
      rw [zero, show (0x30 : Byte).toNat = 0x30 from rfl] at value
      omega

end Sys2Proof.Machine
end

section
/-! The two vector slots of a SHIFT while its payload arrives (20_memory.md R66, R67; 40_commands.md R115, R117). -/

namespace Sys2Proof.Machine

/-! ## Bytes written from the start of a slot -/

theorem Memory.writeAll_append (m : Memory) (off : Nat) (v v' : List Byte) :
    Memory.writeAll m off (v ++ v') = Memory.writeAll (Memory.writeAll m off v) (off + v.length) v' := by
  induction v generalizing m off with
  | nil => rfl
  | cons b v ih =>
    rw [List.cons_append, Memory.writeAll, Memory.writeAll, ih, List.length_cons, Nat.add_right_comm, Nat.add_assoc]

theorem Memory.readRange_writeAll (v : List Byte) : (Memory.writeAll [] 0 v).readRange 0 v.length = v := by
  refine List.ext_getElem (Memory.readRange_length _ _ _) fun j _ within => ?_
  simp [Memory.readRange, Memory.read_writeAll [] 0 v j rfl, within]

/-! ## The slots of session `k` -/

/-- A slot that session `k` holds for role `r`, with the bytes `v` written into it since it was acquired. -/
def vectorSlot (k : Nat) (r : Role) (v : List Byte) : Slot := { owner := some (k, r), bytes := Memory.writeAll [] 0 v }

theorem vectorSlot_append (k : Nat) (r : Role) (v : List Byte) (b : Byte) :
    vectorSlot k r (v ++ [b]) = { vectorSlot k r v with bytes := (vectorSlot k r v).bytes.write v.length b } := by
  simp [vectorSlot, Memory.writeAll_append, Memory.writeAll]

/-- Session `k` holds slot `a` for TMS and slot `d` for TDI, and has written `tms` and `tdi` into them. -/
def State.withVectors (k a d : Nat) (tms tdi : List Byte) (s : State) : State :=
  (s.mapSlot a fun _ => vectorSlot k .tms tms).mapSlot d fun _ => vectorSlot k .tdi tdi

/-- Slots `a` and `d` are there and not the same. -/
structure State.TwoSlots (a d : Nat) (s : State) : Prop where
  ne : a ≠ d
  tms : a < s.arena.length
  tdi : d < s.arena.length

theorem OnlyStorage.withVectors (k a d : Nat) (tms tdi : List Byte) (s : State) :
    OnlyStorage s (s.withVectors k a d tms tdi) :=
  (OnlyStorage.mapSlot s a _).trans (OnlyStorage.mapSlot _ d _)

section
variable {s : State} {k a d : Nat} {tms tdi : List Byte}

theorem State.mapSlot_comm (ne : a ≠ d) (f g : Slot → Slot) :
    (s.mapSlot a f).mapSlot d g = (s.mapSlot d g).mapSlot a f := by
  simp only [State.mapSlot, List.modify_modify_ne f g s.arena ne]

variable (two : s.TwoSlots a d)
include two

theorem State.TwoSlots.slot_tms : (s.withVectors k a d tms tdi).arena[a]? = some (vectorSlot k .tms tms) := by
  simp [State.withVectors, two.ne.symm, two.tms]

theorem State.TwoSlots.slot_tdi : (s.withVectors k a d tms tdi).arena[d]? = some (vectorSlot k .tdi tdi) := by
  simp [State.withVectors, two.tdi]

theorem State.TwoSlots.memRead_tms (fits : tms.length ≤ s.cfg.slotBytes) :
    (s.withVectors k a d tms tdi).memRead a 0 tms.length = .next tms :=
  (State.memRead_eq_next _ a 0 _ tms).2
    ⟨_, two.slot_tms, by rwa [Nat.zero_add], rfl, (Memory.readRange_writeAll tms).symm⟩

theorem State.TwoSlots.memRead_tdi (fits : tdi.length ≤ s.cfg.slotBytes) :
    (s.withVectors k a d tms tdi).memRead d 0 tdi.length = .next tdi :=
  (State.memRead_eq_next _ d 0 _ tdi).2
    ⟨_, two.slot_tdi, by rwa [Nat.zero_add], rfl, (Memory.readRange_writeAll tdi).symm⟩

theorem State.TwoSlots.memWrite_tms (room : tms.length < s.cfg.slotBytes) (b : Byte) :
    (s.withVectors k a d tms tdi).memWrite a tms.length b = .next (s.withVectors k a d (tms ++ [b]) tdi) := by
  refine (State.memWrite_eq_next _ _ a _ b).2 ⟨⟨_, two.slot_tms, room, rfl⟩, ?_⟩
  simp only [State.withVectors]
  rw [State.mapSlot_comm two.ne.symm, State.mapSlot_mapSlot, vectorSlot_append]
  rfl

theorem State.TwoSlots.memWrite_tdi (room : tdi.length < s.cfg.slotBytes) (b : Byte) :
    (s.withVectors k a d tms tdi).memWrite d tdi.length b = .next (s.withVectors k a d tms (tdi ++ [b])) := by
  refine (State.memWrite_eq_next _ _ d _ b).2 ⟨⟨_, two.slot_tdi, room, rfl⟩, ?_⟩
  simp only [State.withVectors]
  rw [State.mapSlot_mapSlot, vectorSlot_append]
  rfl

end

/-! ## Acquiring them -/

theorem State.acquireSlot_of_free {s : State} {a : Nat} {sl : Slot} (at_a : s.arena[a]? = some sl) (free : sl.owner = none)
    (k : Nat) (r : Role) : ∃ a' t, s.acquireSlot k r = some (a', t) := by
  cases taken : s.acquireSlot k r with
  | none =>
    have owned := (State.acquireSlot_eq_none s k r).1 taken sl (List.mem_of_getElem? at_a)
    simp [free] at owned
  | some answer => exact ⟨answer.1, answer.2, rfl⟩

/-- Two slots of the arena are free. -/
def State.TwoFree (s : State) : Prop :=
  ∃ (a b : Nat) (sa sb : Slot),
    a < b ∧ s.arena[a]? = some sa ∧ sa.owner = none ∧ s.arena[b]? = some sb ∧ sb.owner = none

/-- A legal count with two free slots takes both, empty (R67, R115). -/
theorem State.validateCount_of_free {s : State} (k : Nat) (h : Vector Byte 11) (legal : countError s.cfg (countOf h) = none)
    (free : s.TwoFree) :
    ∃ a d, s.TwoSlots a d ∧
      s.validateCount k h =
        (s.mapSession k fun se => { se with n := countOf h, tmsSlot := some a, tdiSlot := some d, plen := 0 }).withVectors
          k a d [] [] := by
  obtain ⟨x, y, sx, sy, lt, at_x, freeX, at_y, freeY⟩ := free
  obtain ⟨a, s2, tms⟩ := State.acquireSlot_of_free (s := s.mapSession k fun se => { se with n := countOf h })
    at_x freeX k .tms
  obtain ⟨⟨sa, at_a, -⟩, -, rfl⟩ := (State.acquireSlot_eq_some _ _ _ _ _).1 tms
  have tdiFree : ∃ z sz, z ≠ a ∧ s.arena[z]? = some sz ∧ sz.owner = none := by
    by_cases same : x = a
    · exact ⟨y, sy, by omega, at_y, freeY⟩
    · exact ⟨x, sx, same, at_x, freeX⟩
  obtain ⟨z, sz, other, at_z, freeZ⟩ := tdiFree
  obtain ⟨d, s4, tdi⟩ := State.acquireSlot_of_free (a := z) (sl := sz)
    (s := ((s.mapSession k fun se => { se with n := countOf h }).mapSlot a
      fun _ => { owner := some (k, .tms), bytes := [] }).mapSession k fun se => { se with tmsSlot := some a })
    (by simpa [other.symm] using at_z) freeZ k .tdi
  obtain ⟨⟨sd, at_d, freeD⟩, -, rfl⟩ := (State.acquireSlot_eq_some _ _ _ _ _).1 tdi
  have ne : a ≠ d := by
    rintro rfl
    obtain rfl : { owner := some (k, .tms), bytes := [] } = sd := by
      simpa [show s.arena[a]? = some sa from at_a] using at_d
    cases freeD
  refine ⟨a, d, ⟨ne, (List.getElem?_eq_some_iff.1 at_a).1, ?_⟩, ?_⟩
  · simpa using (List.getElem?_eq_some_iff.1 at_d).1
  · simp only [State.validateCount, legal, tms, tdi]
    simp only [State.withVectors, State.mapSession, State.mapSlot, List.modify_modify_eq]
    rfl

end Sys2Proof.Machine
end

section
/-! A byte step that goes on: what it makes of a header byte that passes its checks (40_commands.md R110-R115). -/

namespace Sys2Proof.Machine

/-- The loop is free, in the step it has latched: session `k` served, the reply outcome `w`. -/
structure State.Serves (k : Nat) (w : WriteOutcome) (s : State) : Prop where
  serving : s.serving = k
  write : s.write = w
  free : s.loopFree = true

theorem State.Serves.of_onlyStorage {s t : State} {k : Nat} {w : WriteOutcome} (serves : s.Serves k w)
    (same : OnlyStorage s t) : t.Serves k w :=
  ⟨same.serving.trans serves.serving, same.write.trans serves.write, by
    rw [State.loopFree, same.g]; exact serves.free⟩

theorem State.performAll_replicate_succ (i : Input) (m : Nat) (s : State) :
    State.performAll (List.replicate (m + 1) i) s = andThen (State.performAll (List.replicate m i) s) (State.perform i) := by
  induction m generalizing s with
  | zero =>
    simp only [List.replicate, State.performAll, andThen_next]
    cases s.perform i <;> rfl
  | succ m ih =>
    rw [List.replicate_succ, State.performAll, List.replicate_succ, State.performAll, ← List.replicate_succ]
    cases s.perform i with
    | next t => exact ih t
    | fault x => rfl
    | refused x => rfl

section
variable {s : State} {k : Nat} {w : WriteOutcome} {se : Session} {b : Byte} {rest : List Byte}

/-- An incomplete command with a byte queued: the loop serves the byte step (R198). -/
theorem State.perform_serve_byte (serves : s.Serves k w) (at_k : s.sessions[k]? = some se)
    (phase : se.phase = .awaitingCommand) (incomplete : se.complete = false) (rx : se.rx = b :: rest) :
    s.perform (.serve k w) = s.decodeByte k := by
  obtain ⟨rfl, rfl, free⟩ := serves
  simp [State.perform, State.sessionStep, at_k, free, phase, State.awaitingStep, incomplete, rx]

theorem State.decodeByte_header (at_k : s.sessions[k]? = some se) (rx : se.rx = b :: rest)
    (header : se.hlen < hdrLen se.kind) :
    s.decodeByte k = .next ((s.mapSession k fun x => { x with rx := rest }).headerByte k b se) := by
  simp only [State.decodeByte, at_k, rx, header, if_true]

/-- A header byte at any position but the second, and not a SHIFT's last, is compared and stored (R111, R113). -/
theorem State.headerByte_stored (notSecond : se.hlen ≠ 1) (early : ¬(se.kind = some .shift ∧ se.hlen = 9))
    (passes : ∀ kind, se.kind = some kind → tailByteOk s.cfg kind se.hlen b = true) :
    (s.mapSession k fun x => { x with rx := rest }).headerByte k b se = s.storeHeader k b rest se := by
  unfold State.headerByte
  dsimp only
  rw [State.mapSession_mapSession, if_neg (by omega)]
  split
  · rfl
  · next kind hkind =>
    have notLast : ¬(kind = .shift ∧ se.hlen + 1 = 10) := by
      rintro ⟨rfl, last⟩
      exact early ⟨hkind, by omega⟩
    simp only [State.mapSession_cfg, passes kind hkind, Bool.not_true, Bool.and_false, Bool.false_eq_true, if_false,
      if_neg notLast]
    rfl

/-- The second byte is stored and classified (R112). -/
theorem State.headerByte_classified (second : se.hlen = 1) {kind : Kind}
    (known : classify (se.hdr.setIfInBounds se.hlen b)[0] (se.hdr.setIfInBounds se.hlen b)[1] = some kind) :
    (s.mapSession k fun x => { x with rx := rest }).headerByte k b se =
      (s.storeHeader k b rest se).mapSession k fun x => { x with kind := some kind } := by
  unfold State.headerByte
  dsimp only
  rw [State.mapSession_mapSession, if_pos (by omega)]
  simp only [State.classifyStep, known]
  rfl

/-- The last header byte of a SHIFT is stored, and the count is checked (R115). -/
theorem State.headerByte_counted (shift : se.kind = some .shift) (ninth : se.hlen = 9) :
    (s.mapSession k fun x => { x with rx := rest }).headerByte k b se =
      (s.storeHeader k b rest se).validateCount k (se.hdr.setIfInBounds se.hlen b) := by
  unfold State.headerByte
  dsimp only
  rw [State.mapSession_mapSession, if_neg (by omega), shift]
  simp [ninth, Kind.prefixLen, State.storeHeader, Function.comp_def]

end

end Sys2Proof.Machine
end

section
/-! The header of a command arriving byte by byte (30_encoding.md R102; 40_commands.md R110-R113). -/

namespace Sys2Proof.Machine

/-- The header register `h` with its first `m` bytes those of `bs`. -/
def headerOf (h : Vector Byte 11) (bs : List Byte) (m : Nat) : Vector Byte 11 :=
  Vector.ofFn fun j => if j.val < m then bs.getD j.val 0 else h[j.val]

theorem getElem_headerOf (h : Vector Byte 11) (bs : List Byte) {m j : Nat} (stored : j < m) (inside : j < 11) :
    (headerOf h bs m)[j] = bs.getD j 0 := by
  simp only [headerOf, Vector.getElem_ofFn, stored, if_true]

theorem headerOf_zero (h : Vector Byte 11) (bs : List Byte) : headerOf h bs 0 = h :=
  Vector.ext fun j inside => by simp [headerOf]

theorem headerOf_succ (h : Vector Byte 11) {bs : List Byte} {m : Nat} {b : Byte} (at_m : bs[m]? = some b) :
    (headerOf h bs m).setIfInBounds m b = headerOf h bs (m + 1) := by
  refine Vector.ext fun j inside => ?_
  rw [Vector.getElem_setIfInBounds]
  simp only [headerOf, Vector.getElem_ofFn]
  rcases Nat.lt_trichotomy j m with before | rfl | after
  · rw [if_neg before.ne', if_pos before, if_pos (before.trans (Nat.lt_succ_self m))]
  · simp [at_m]
  · rw [if_neg after.ne, if_neg (by omega), if_neg (by omega)]

theorem periodOf_headerOf (h : Vector Byte 11) (bs : List Byte) : periodOf (headerOf h bs 11) = operandAt bs 7 := by
  simp only [periodOf, getElem_headerOf, operandAt, Nat.reduceLT, Nat.reduceAdd]

theorem countOf_headerOf (h : Vector Byte 11) (bs : List Byte) : countOf (headerOf h bs 10) = operandAt bs 6 := by
  simp only [countOf, getElem_headerOf, operandAt, Nat.reduceLT, Nat.reduceAdd]

/-- Session `se` when the first `m` header bytes of `Enc(i)` have arrived, `rest` being queued behind the others. -/
def Session.atHeader (i : Instr) (rest : List Byte) (m : Nat) (se : Session) : Session :=
  { se with
    rx := (encode i).drop m ++ rest, hdr := headerOf se.hdr (encode i) m, hlen := m
    kind := if m < 2 then none else some i.kind }

/-- Session `k` is `se`, at the start of a command and with `Enc(i)` at the head of its input. -/
structure State.AtCommand (k : Nat) (se : Session) (i : Instr) (rest : List Byte) (s : State) : Prop where
  at_k : s.sessions[k]? = some se
  phase : se.phase = .awaitingCommand
  kind : se.kind = none
  hlen : se.hlen = 0
  plen : se.plen = 0
  rx : se.rx = encode i ++ rest

theorem Session.atHeader_need {se : Session} {i : Instr} {rest : List Byte} {m : Nat} (classified : ¬m < 2)
    (header : m < i.kind.hdrLen) : (se.atHeader i rest m).need = i.kind.hdrLen := by
  cases hkind : i.kind with
  | getinfo | settck => simp [Session.need, Session.atHeader, classified, hkind, Kind.hdrLen]
  | shift =>
    have short : m < 10 := by simpa only [hkind, Kind.hdrLen] using header
    simp [Session.need, Session.atHeader, classified, hkind, short, Kind.hdrLen]

theorem Session.atHeader_complete {se : Session} {i : Instr} {rest : List Byte} {m : Nat} (plen : se.plen = 0)
    (header : m < i.kind.hdrLen) : (se.atHeader i rest m).complete = false := by
  rw [← Bool.not_eq_true, Session.complete_iff]
  rintro ⟨classified, whole⟩
  have two : ¬m < 2 := fun early => by simp [Session.atHeader, early] at classified
  rw [Session.atHeader_need two header] at whole
  simp only [Session.atHeader, plen] at whole
  omega

theorem Session.atHeader_hlen_lt {se : Session} {i : Instr} {rest : List Byte} {m : Nat} (header : m < i.kind.hdrLen) :
    (se.atHeader i rest m).hlen < hdrLen (se.atHeader i rest m).kind := by
  by_cases early : m < 2
  · simp [Session.atHeader, early, hdrLen]
  · simpa [Session.atHeader, early, hdrLen] using header

theorem Session.atHeader_succ {se : Session} {i : Instr} {rest : List Byte} {m : Nat} {b : Byte}
    (at_m : (encode i)[m]? = some b) (notSecond : m ≠ 1) :
    (se.atHeader i rest m).storeHeader b ((encode i).drop (m + 1) ++ rest) = se.atHeader i rest (m + 1) := by
  have same : m < 2 ↔ m + 1 < 2 := by omega
  simp only [Session.storeHeader, Session.atHeader, headerOf_succ se.hdr at_m, same]

theorem Session.atHeader_two {se : Session} {i : Instr} {rest : List Byte} {b : Byte} (at_m : (encode i)[1]? = some b) :
    { (se.atHeader i rest 1).storeHeader b ((encode i).drop 2 ++ rest) with kind := some i.kind } =
      se.atHeader i rest 2 := by
  simp [Session.storeHeader, Session.atHeader, headerOf_succ se.hdr at_m]

theorem classify_encode (i : Instr) : classify ((encode i).getD 0 0) ((encode i).getD 1 0) = some i.kind := by
  obtain ⟨-, -, -, b0, b1, tl, starts, known⟩ := encodingStatement i
  rw [starts]
  exact known

/-- The bytes of `Enc(i)` pass the tail check (R113). -/
theorem tailByteOk_encode {c : Config} {i : Instr} {m : Nat} {b : Byte} (at_m : (encode i)[m]? = some b) :
    tailByteOk c i.kind m b = true := by
  obtain ⟨starts, -⟩ := encodingStatement i
  by_cases inPrefix : m < i.kind.prefixLen
  · exact tailByteOk_of_literal (by rw [← starts, List.getElem?_take_of_lt inPrefix, at_m])
  · simp [tailByteOk, Nat.le_of_not_lt inPrefix]

section
variable {s : State} {k : Nat} {w : WriteOutcome} {se : Session} {i : Instr} {rest : List Byte}

theorem State.AtCommand.atHeader_zero (cmd : s.AtCommand k se i rest) :
    (s.mapSession k fun _ => se.atHeader i rest 0) = s := by
  obtain ⟨at_k, -, kind, hlen, -, rx⟩ := cmd
  have same : se.atHeader i rest 0 = se := by
    simp only [Session.atHeader, headerOf_zero, List.drop_zero, Nat.zero_lt_two, if_true]
    rw [← kind, ← hlen, ← rx]
  obtain ⟨within, here⟩ := List.getElem?_eq_some_iff.1 at_k
  rw [same, State.mapSession, modify_eq_set _ at_k, ← here, List.set_getElem_self]

theorem State.AtCommand.session_at (cmd : s.AtCommand k se i rest) (x : Session) :
    (s.mapSession k fun _ => x).sessions[k]? = some x := by
  simp [cmd.at_k]

/-- The loop takes the next header byte. -/
theorem State.AtCommand.serve_header (cmd : s.AtCommand k se i rest) (serves : s.Serves k w) {m : Nat} {b : Byte}
    (at_m : (encode i)[m]? = some b) (header : m < i.kind.hdrLen) :
    (s.mapSession k fun _ => se.atHeader i rest m).perform (.serve k w) =
      .next (((s.mapSession k fun _ => se.atHeader i rest m).mapSession k fun x =>
        { x with rx := (encode i).drop (m + 1) ++ rest }).headerByte k b (se.atHeader i rest m)) := by
  have rx : (se.atHeader i rest m).rx = b :: ((encode i).drop (m + 1) ++ rest) := by
    obtain ⟨within, rfl⟩ := List.getElem?_eq_some_iff.1 at_m
    rw [Session.atHeader, List.drop_eq_getElem_cons within, List.cons_append]
  rw [State.perform_serve_byte (se := se.atHeader i rest m) (serves.of_onlyStorage (OnlyStorage.mapSession s k _))
    (cmd.session_at _) cmd.phase (Session.atHeader_complete cmd.plen header) rx]
  exact State.decodeByte_header (cmd.session_at _) rx (Session.atHeader_hlen_lt header)

theorem State.storeHeader_mapSession (s : State) (k : Nat) (b : Byte) (rest : List Byte) (x : Session) :
    (s.mapSession k fun _ => x).storeHeader k b rest x = s.mapSession k fun _ => x.storeHeader b rest :=
  State.mapSession_mapSession _ _ _ _

/-- One header byte further on, a SHIFT's last apart. -/
theorem State.AtCommand.header_succ (cmd : s.AtCommand k se i rest) (serves : s.Serves k w) {m : Nat}
    (header : m < i.kind.hdrLen) (early : ¬(i.kind = .shift ∧ m = 9)) :
    (s.mapSession k fun _ => se.atHeader i rest m).perform (.serve k w) =
      .next (s.mapSession k fun _ => se.atHeader i rest (m + 1)) := by
  obtain ⟨-, -, long, -⟩ := encodingStatement i
  have at_m : (encode i)[m]? = some (encode i)[m] := List.getElem?_eq_getElem (header.trans_le long)
  rw [cmd.serve_header serves at_m header]
  by_cases second : m = 1
  · subst second
    have stored := headerOf_succ se.hdr at_m
    rw [State.headerByte_classified (kind := i.kind) rfl, State.storeHeader_mapSession, State.mapSession_mapSession]
    · exact congrArg (fun x => Host.Outcome.next (s.mapSession k fun _ => x)) (Session.atHeader_two at_m)
    · simp only [Session.atHeader, stored, getElem_headerOf, Nat.reduceAdd, Nat.reduceLT, classify_encode]
  · rw [State.headerByte_stored second, State.storeHeader_mapSession, Session.atHeader_succ at_m second]
    · rintro ⟨shift, ninth⟩
      refine early ⟨?_, ninth⟩
      have past : ¬m < 2 := by rw [show m = 9 from ninth]; decide
      simpa [Session.atHeader, past] using shift
    · intro kind hkind
      have past : ¬m < 2 := fun first => by simp [Session.atHeader, first] at hkind
      obtain rfl : i.kind = kind := by simpa [Session.atHeader, past] using hkind
      exact tailByteOk_encode at_m

/-- The first `m` byte steps store the first `m` header bytes, a SHIFT's last apart. -/
theorem State.AtCommand.receiveHeader (cmd : s.AtCommand k se i rest) (serves : s.Serves k w) {m : Nat}
    (header : m ≤ i.kind.hdrLen) (early : i.kind = .shift → m ≤ 9) :
    State.performAll (List.replicate m (.serve k w)) s = .next (s.mapSession k fun _ => se.atHeader i rest m) := by
  induction m with
  | zero => exact congrArg Host.Outcome.next cmd.atHeader_zero.symm
  | succ m ih =>
    rw [State.performAll_replicate_succ, ih (by omega) (fun shift => by have := early shift; omega), andThen_next]
    exact cmd.header_succ serves header fun last => by have := early last.1; omega

end

end Sys2Proof.Machine
end

section
/-! The payload of a SHIFT arriving byte by byte, and the command a session holds then (30_encoding.md R102; 40_commands.md
R111, R115-R118). -/

namespace Sys2Proof.Machine

/-- Session `se` when the header of a SHIFT and the first `m` bytes of its payload have arrived, with slots `a` and `d` for
its vectors. -/
def Session.atPayload (n : Word) (tms tdi rest : List Byte) (a d m : Nat) (se : Session) : Session :=
  { se.atHeader (.shift n tms tdi) rest 10 with
    rx := (tms ++ tdi).drop m ++ rest, n := n, plen := m, tmsSlot := some a, tdiSlot := some d }

/-- Session `k` is at that point, and its two slots hold the payload bytes that have arrived. -/
def State.atPayload (k : Nat) (se : Session) (n : Word) (tms tdi rest : List Byte) (a d m : Nat) (s : State) : State :=
  (s.mapSession k fun _ => se.atPayload n tms tdi rest a d m).withVectors k a d (tms.take m) (tdi.take (m - tms.length))

theorem State.TwoSlots.mapSession {s : State} {a d : Nat} (two : s.TwoSlots a d) (k : Nat) (f : Session → Session) :
    (s.mapSession k f).TwoSlots a d := ⟨two.ne, two.tms, two.tdi⟩

theorem State.withVectors_mapSession (s : State) (k a d : Nat) (tms tdi : List Byte) (f : Session → Session) :
    (s.withVectors k a d tms tdi).mapSession k f = (s.mapSession k f).withVectors k a d tms tdi := rfl

theorem operandAt_encode_shift (n : Word) (tms tdi : List Byte) : operandAt (encode (.shift n tms tdi)) 6 = n := by
  simp only [encode, List.append_assoc]
  exact operandAt_append_le32Bytes (literal .shift) n (tms ++ tdi)

theorem operandAt_encode_settck (p : Word) : operandAt (encode (.settck p)) 7 = p := by
  rw [encode, ← List.append_nil (le32Bytes p)]
  exact operandAt_append_le32Bytes (literal .settck) p []

section
variable {s : State} {k a d : Nat} {w : WriteOutcome} {se : Session} {n : Word} {tms tdi rest : List Byte}

/-! ## The count -/

/-- The last header byte takes the two slots (R115). -/
theorem State.AtCommand.receiveCount (cmd : s.AtCommand k se (.shift n tms tdi) rest) (serves : s.Serves k w)
    (legal : countError s.cfg n = none) (free : s.TwoFree) :
    ∃ a d, s.TwoSlots a d ∧
      State.performAll (List.replicate 10 (.serve k w)) s = .next (s.atPayload k se n tms tdi rest a d 0) := by
  have at_9 : (encode (.shift n tms tdi))[9]? = some (n.extractLsb' 24 8) := rfl
  have last := cmd.serve_header serves (m := 9) at_9 (Nat.lt_succ_self 9)
  have stored : (se.atHeader (.shift n tms tdi) rest 9).hdr.setIfInBounds 9 (n.extractLsb' 24 8) =
      headerOf se.hdr (encode (.shift n tms tdi)) 10 := headerOf_succ se.hdr at_9
  have count : countOf (headerOf se.hdr (encode (.shift n tms tdi)) 10) = n := by
    rw [countOf_headerOf, operandAt_encode_shift]
  rw [State.headerByte_counted rfl rfl, State.storeHeader_mapSession, Session.atHeader_succ at_9 (by decide),
    show (se.atHeader (.shift n tms tdi) rest 9).hlen = 9 from rfl, stored] at last
  obtain ⟨a, d, two, validated⟩ := State.validateCount_of_free
    (s := s.mapSession k fun _ => se.atHeader (.shift n tms tdi) rest 10) k
    (headerOf se.hdr (encode (.shift n tms tdi)) 10) (by rw [count]; exact legal) free
  refine ⟨a, d, ⟨two.ne, two.tms, two.tdi⟩, ?_⟩
  rw [State.performAll_replicate_succ, cmd.receiveHeader serves (Nat.le_succ 9) fun _ => le_rfl, andThen_next, last,
    validated, count, State.mapSession_mapSession, State.atPayload, Nat.zero_sub, List.take_zero, List.take_zero]
  rfl

/-! ## The payload -/

theorem Session.atPayload_complete_iff {m : Nat} :
    (se.atPayload n tms tdi rest a d m).complete = true ↔ m = 2 * vectorBytes n := by
  rw [Session.complete_iff]
  simp [Session.atPayload, Session.atHeader, Session.need, Instr.kind]

theorem State.decodeByte_payload {b : Byte} (at_k : s.sessions[k]? = some se) (rx : se.rx = b :: rest)
    (past : ¬se.hlen < hdrLen se.kind) :
    s.decodeByte k = (s.mapSession k fun x => { x with rx := rest }).payloadByte k b se := by
  simp only [State.decodeByte, at_k, rx, past, if_false]

theorem State.payloadByte_of_slots {b : Byte} (ht : se.tmsSlot = some a) (hd : se.tdiSlot = some d) :
    s.payloadByte k b se =
      andThen (if se.plen < vectorBytes se.n then s.memWrite a se.plen b else s.memWrite d (se.plen - vectorBytes se.n) b)
        fun s => .next (s.mapSession k fun se => { se with plen := se.plen + 1 }) := by
  simp only [State.payloadByte, ht, hd]

/-- Payload byte `m` goes to its place in the vector it belongs to (R117). -/
theorem State.TwoSlots.write_payload (two : s.TwoSlots a d) (fits : tms.length ≤ s.cfg.slotBytes)
    (same : tdi.length = tms.length) {m : Nat} {b : Byte} (at_m : (tms ++ tdi)[m]? = some b) :
    (if m < tms.length then (s.withVectors k a d (tms.take m) (tdi.take (m - tms.length))).memWrite a m b
      else (s.withVectors k a d (tms.take m) (tdi.take (m - tms.length))).memWrite d (m - tms.length) b) =
    .next (s.withVectors k a d (tms.take (m + 1)) (tdi.take (m + 1 - tms.length))) := by
  split
  · next first =>
    have length : (tms.take m).length = m := List.length_take_of_le first.le
    have written := two.memWrite_tms (k := k) (tms := tms.take m) (tdi := tdi.take (m - tms.length)) (by omega) b
    rw [List.getElem?_append_left first, List.getElem?_eq_getElem first, Option.some.injEq] at at_m
    rw [length, ← at_m, List.take_append_getElem first] at written
    rw [← at_m, written, show m - tms.length = m + 1 - tms.length by omega]
  · next second =>
    obtain ⟨j, rfl⟩ : ∃ j, m = tms.length + j := Nat.exists_eq_add_of_le (Nat.le_of_not_lt second)
    rw [List.getElem?_append_right (by omega), Nat.add_sub_cancel_left] at at_m
    obtain ⟨inside, at_j⟩ := List.getElem?_eq_some_iff.1 at_m
    have length : (tdi.take j).length = j := List.length_take_of_le inside.le
    have written := two.memWrite_tdi (k := k) (tms := tms) (tdi := tdi.take j) (by omega) b
    rw [length, ← at_j, List.take_append_getElem inside] at written
    rw [Nat.add_sub_cancel_left, Nat.add_assoc, Nat.add_sub_cancel_left, List.take_of_length_le (Nat.le_add_right _ _),
      List.take_of_length_le (Nat.le_add_right _ _), ← at_j, written]

/-- One payload byte further on. -/
theorem State.AtCommand.payload_succ (cmd : s.AtCommand k se (.shift n tms tdi) rest) (serves : s.Serves k w)
    (wf : (Instr.shift n tms tdi).wf s.cfg = true) (two : s.TwoSlots a d) {m : Nat} (room : m < 2 * vectorBytes n) :
    (s.atPayload k se n tms tdi rest a d m).perform (.serve k w) = .next (s.atPayload k se n tms tdi rest a d (m + 1)) := by
  obtain ⟨legal, lengthTms, lengthTdi⟩ := Instr.wf_shift_iff.1 wf
  have fits := vectorBytes_le_slotBytes (countError_eq_none.1 legal).2
  have within : m < (tms ++ tdi).length := by rw [List.length_append]; omega
  have at_k : (s.atPayload k se n tms tdi rest a d m).sessions[k]? = some (se.atPayload n tms tdi rest a d m) :=
    cmd.session_at _
  have rx : (se.atPayload n tms tdi rest a d m).rx = (tms ++ tdi)[m] :: ((tms ++ tdi).drop (m + 1) ++ rest) := by
    rw [Session.atPayload, List.drop_eq_getElem_cons within, List.cons_append]
  have incomplete : (se.atPayload n tms tdi rest a d m).complete = false := by
    rw [← Bool.not_eq_true, Session.atPayload_complete_iff]; omega
  have written := (two.mapSession k fun _ =>
      { se.atPayload n tms tdi rest a d m with rx := (tms ++ tdi).drop (m + 1) ++ rest }).write_payload (k := k)
    (lengthTms.trans_le fits) (lengthTdi.trans lengthTms.symm) (List.getElem?_eq_getElem within)
  have same : OnlyStorage s (s.atPayload k se n tms tdi rest a d m) :=
    (OnlyStorage.mapSession s k _).trans (OnlyStorage.withVectors ..)
  rw [State.perform_serve_byte (serves.of_onlyStorage same) at_k cmd.phase incomplete rx,
    State.decodeByte_payload at_k rx (Nat.lt_irrefl 10), State.payloadByte_of_slots rfl rfl, State.atPayload,
    State.withVectors_mapSession, State.mapSession_mapSession]
  rw [lengthTms] at written ⊢
  refine (congrArg (fun r => andThen r _) written).trans ?_
  rw [andThen_next, State.withVectors_mapSession, State.mapSession_mapSession, State.atPayload, lengthTms]
  rfl

/-- Ten byte steps and one for each payload byte. -/
theorem State.AtCommand.receivePayload (cmd : s.AtCommand k se (.shift n tms tdi) rest) (serves : s.Serves k w)
    (wf : (Instr.shift n tms tdi).wf s.cfg = true) (free : s.TwoFree) :
    ∃ a d, s.TwoSlots a d ∧ ∀ m, m ≤ 2 * vectorBytes n →
      State.performAll (List.replicate (10 + m) (.serve k w)) s = .next (s.atPayload k se n tms tdi rest a d m) := by
  obtain ⟨legal, -⟩ := Instr.wf_shift_iff.1 wf
  obtain ⟨a, d, two, counted⟩ := cmd.receiveCount serves legal free
  refine ⟨a, d, two, fun m room => ?_⟩
  induction m with
  | zero => exact counted
  | succ m ih =>
    rw [← Nat.add_assoc, State.performAll_replicate_succ, ih (by omega), andThen_next]
    exact cmd.payload_succ serves wf two room

/-! ## The command held -/

/-- The vectors of a complete SHIFT are read back from its slots (R123). -/
theorem State.AtCommand.heldCommand_shift (cmd : s.AtCommand k se (.shift n tms tdi) rest)
    (wf : (Instr.shift n tms tdi).wf s.cfg = true) (two : s.TwoSlots a d) :
    (s.atPayload k se n tms tdi rest a d (2 * vectorBytes n)).heldCommand k = .next (.shift n tms tdi) := by
  obtain ⟨legal, lengthTms, lengthTdi⟩ := Instr.wf_shift_iff.1 wf
  have fits := vectorBytes_le_slotBytes (countError_eq_none.1 legal).2
  have full : s.atPayload k se n tms tdi rest a d (2 * vectorBytes n) =
      (s.mapSession k fun _ => se.atPayload n tms tdi rest a d (2 * vectorBytes n)).withVectors k a d tms tdi := by
    rw [State.atPayload, List.take_of_length_le (by omega), List.take_of_length_le (by omega)]
  have at_k : (s.atPayload k se n tms tdi rest a d (2 * vectorBytes n)).sessions[k]? =
      some (se.atPayload n tms tdi rest a d (2 * vectorBytes n)) := cmd.session_at _
  have readTms := (two.mapSession k fun _ => se.atPayload n tms tdi rest a d (2 * vectorBytes n)).memRead_tms
    (k := k) (tdi := tdi) (lengthTms.trans_le fits)
  have readTdi := (two.mapSession k fun _ => se.atPayload n tms tdi rest a d (2 * vectorBytes n)).memRead_tdi
    (k := k) (tms := tms) (lengthTdi.trans_le fits)
  rw [← full, lengthTms] at readTms
  rw [← full, lengthTdi] at readTdi
  simp only [State.heldCommand, at_k]
  simp only [Session.atPayload, Session.atHeader, Instr.kind]
  simp [readTms, readTdi]

/-- A whole GETINFO or SETTCK is its header. -/
theorem Session.atHeader_whole {i : Instr} (header : i.kind ≠ .shift) (plen : se.plen = 0) :
    (se.atHeader i rest (encode i).length).complete = true := by
  rw [Session.complete_iff]
  cases i with
  | getinfo | settck p => simp [Session.atHeader, Session.need, Instr.kind, plen, length_encode, Laws.encodingLength]
  | shift n tms tdi => exact absurd rfl header

/-- A whole GETINFO or SETTCK is held in the header register (R120). -/
theorem State.AtCommand.heldCommand_header {i : Instr} (cmd : s.AtCommand k se i rest) (header : i.kind ≠ .shift) :
    (s.mapSession k fun _ => se.atHeader i rest (encode i).length).heldCommand k = .next i := by
  have at_k := cmd.session_at (se.atHeader i rest (encode i).length)
  cases i with
  | getinfo =>
    simp only [State.heldCommand, at_k]
    rfl
  | settck p =>
    have period : periodOf (se.atHeader (.settck p) rest (encode (.settck p)).length).hdr = p :=
      (periodOf_headerOf se.hdr _).trans (operandAt_encode_settck p)
    simp only [State.heldCommand, at_k, period]
    rfl
  | shift n tms tdi => exact absurd rfl header

/-! ## The whole command -/

/-- Session `k` of `t` has received exactly `i` where it was `se`, and nothing else has happened since `s`. -/
structure State.HasReceived (k : Nat) (se : Session) (i : Instr) (rest : List Byte) (s t : State) (x : Session) : Prop where
  frame : OnlyStorage s t
  sessions : t.sessions = s.sessions.modify k fun _ => x
  phase : x.phase = se.phase
  complete : x.complete = true
  kind : x.kind = some i.kind
  rx : x.rx = rest
  tx : x.tx = se.tx
  held : t.heldCommand k = .next i

theorem State.AtCommand.receive {i : Instr} (cmd : s.AtCommand k se i rest) (serves : s.Serves k w)
    (wf : i.wf s.cfg = true) (free : i.kind = .shift → s.TwoFree) :
    ∃ t x, State.performAll (List.replicate (encode i).length (.serve k w)) s = .next t ∧
      s.HasReceived k se i rest t x := by
  by_cases header : i.kind = .shift
  · cases i with
    | getinfo | settck p => cases header
    | shift n tms tdi =>
      obtain ⟨a, d, two, received⟩ := cmd.receivePayload serves wf (free rfl)
      obtain ⟨-, lengthTms, lengthTdi⟩ := Instr.wf_shift_iff.1 wf
      have length : (encode (.shift n tms tdi)).length = 10 + 2 * vectorBytes n := by
        rw [length_encode, Laws.encodingLength]; omega
      refine ⟨_, se.atPayload n tms tdi rest a d (2 * vectorBytes n), length ▸ received _ le_rfl,
        (OnlyStorage.mapSession s k _).trans (OnlyStorage.withVectors ..), rfl, rfl, Session.atPayload_complete_iff.2 rfl,
        rfl, ?_, rfl, cmd.heldCommand_shift wf two⟩
      rw [Session.atPayload, List.drop_of_length_le (by rw [List.length_append]; omega), List.nil_append]
  · have early : (encode i).length = i.kind.hdrLen := by
      cases i with
      | getinfo | settck p => rfl
      | shift n tms tdi => exact absurd rfl header
    have classified : ¬(encode i).length < 2 := by
      have := i.kind.two_le_prefixLen.trans i.kind.prefixLen_le_hdrLen
      omega
    refine ⟨_, se.atHeader i rest (encode i).length, cmd.receiveHeader serves early.le (absurd · header),
      OnlyStorage.mapSession s k _, rfl, rfl, Session.atHeader_whole header cmd.plen, ?_, ?_, rfl,
      cmd.heldCommand_header header⟩
    · simp [Session.atHeader, classified]
    · rw [Session.atHeader, List.drop_length, List.nil_append]

end

/-- What the loop latched before a served step does not matter to it (log 3). -/
theorem State.performAll_serve_latched (s : State) (k : Nat) (w : WriteOutcome) (m : Nat) :
    State.performAll (List.replicate (m + 1) (.serve k w)) { s with serving := k, write := w } =
      State.performAll (List.replicate (m + 1) (.serve k w)) s := rfl

/-- Settles O5: the header arrives byte by byte, then a SHIFT's payload, and the command is read back from the registers and
the two slots. -/
theorem byteStepsReceiveTheCommand : Obligations.ByteStepsReceiveTheCommand := by
  unfold Obligations.ByteStepsReceiveTheCommand
  intro s k w se i rest free at_k phase kind hlen plen rx wf slots
  have cmd : State.AtCommand k se i rest { s with serving := k, write := w } := ⟨at_k, phase, kind, hlen, plen, rx⟩
  obtain ⟨t, x, performed, received⟩ := cmd.receive ⟨rfl, rfl, free⟩ wf slots
  obtain ⟨m, length⟩ : ∃ m, (encode i).length = m + 1 := by
    obtain ⟨-, -, -, b0, b1, tl, starts, -⟩ := encodingStatement i
    exact ⟨_, congrArg List.length starts⟩
  rw [length, State.performAll_serve_latched, ← length] at performed
  obtain ⟨frame, sessions, samePhase, complete, hkind, hrx, tx, held⟩ := received
  refine ⟨t, x, performed, ?_, samePhase.trans phase, complete, hkind, hrx, tx, held, frame.g, frame.e, frame.p,
    frame.target, fun j other => ?_⟩
  · simp [sessions, at_k]
  · simp [sessions, other.symm]

end Sys2Proof.Machine
end

section
/-! What a served step is made of: updates of the served session, slots it takes, writes into slots it holds, and its close
(40_commands.md R133). A predicate that these keep is kept by every step of that session. -/

namespace Sys2Proof.Machine

/-- `se'` names the slots of `se`, and its TX goes on from that of `se`. -/
structure Session.Continues (se se' : Session) : Prop where
  slots : se'.slots = se.slots
  tx : se.tx <+: se'.tx

/-- An update that leaves slot registers and TX alone. -/
theorem Session.Continues.of_eq {se se' : Session} (slots : se'.slots = se.slots) (tx : se'.tx = se.tx) :
    se.Continues se' := ⟨slots, tx ▸ List.prefix_rfl⟩

/-- `P` speaks of sessions and arena only, and what a step of session `k` is made of keeps it. -/
structure ServedInvariant (k : Nat) (P : State → Prop) : Prop where
  registers : ∀ {s t : State}, P s → t.sessions = s.sessions → t.arena = s.arena → P t
  update : ∀ {s : State} {f : Session → Session}, P s → (∀ x : Session, x.Continues (f x)) → P (s.mapSession k f)
  take : ∀ {s t : State} {r : Role} {a : Nat} {f : Session → Session}, P s → s.acquireSlot k r = some (a, t) →
    (∀ x, (f x).tx = x.tx) → (∀ x r', (f x).slotOf r' = if r' = r then some a else x.slotOf r') → P (t.mapSession k f)
  write : ∀ {s t : State} {r : Role} {a off : Nat} {b : Byte}, P s → s.heldBy k r = some a →
    s.memWrite a off b = .next t → P t
  close : ∀ {s : State} (code : CloseReason), P s → P (s.close k code)

namespace ServedInvariant

variable {P : State → Prop} {s t : State} {k : Nat}

theorem byte (hP : ServedInvariant k P) (hs : P s) {b : Byte} {rest : List Byte} {se : Session}
    (at_k : s.sessions[k]? = some se) (effect : ByteEffect k b rest se s t) : P t := by
  have stored : P (s.storeHeader k b rest se) := hP.update hs fun _ => .of_eq rfl rfl
  have numbered (n : Word) : P ((s.storeHeader k b rest se).mapSession k fun x => { x with n := n }) :=
    hP.update stored fun _ => .of_eq rfl rfl
  cases effect with
  | stored => exact stored
  | classified => exact hP.update stored fun _ => .of_eq rfl rfl
  | failed code => exact hP.close code stored
  | noSlot n => exact hP.close .noSlot (numbered n)
  | oneSlot n a s1 header tms =>
    exact hP.close .noSlot (hP.take (numbered n) tms (fun _ => rfl) fun _ r => by cases r <;> rfl)
  | counted a d s1 s2 shift ninth legal tms tdi =>
    have first := hP.take (f := fun x => { x with tmsSlot := some a }) (numbered _) tms (fun _ => rfl)
      fun _ r => by cases r <;> rfl
    exact hP.take first tdi (fun _ => rfl) fun _ r => by cases r <;> rfl
  | payload a off s1 past held written =>
    have consumed : P (s.mapSession k fun x => { x with rx := rest }) := hP.update hs fun _ => .of_eq rfl rfl
    have at_k' : (s.mapSession k fun x => { x with rx := rest }).sessions[k]? = some { se with rx := rest } := by
      simp [at_k]
    obtain ⟨r, named⟩ : ∃ r, se.slotOf r = some a := held.elim (⟨.tms, ·⟩) (⟨.tdi, ·⟩)
    exact hP.update (hP.write consumed ((State.heldBy_of_some at_k' r).trans named) written) fun _ => .of_eq rfl rfl

theorem executed (hP : ServedInvariant s.serving P) (hs : P s) {i : Instr} {se : Session}
    (at_k : s.sessions[s.serving]? = some se) (taken : exec i s = .next t) : P t := by
  cases i with
  | shift n tms tdi =>
    have dispatching : P (s.mapSession s.serving fun se => { se with phase := .dispatching }) :=
      hP.update hs fun _ => .of_eq rfl rfl
    obtain ⟨-, -, ⟨-, rfl⟩ | ⟨-, -, rfl⟩ | ⟨-, -, o, sl, at_o, free, lowest, rfl⟩⟩ := execShift_eq_next taken
    · exact hP.close .backendInvalid dispatching
    · exact hP.close .noSlot dispatching
    · have acquired := (State.acquireSlot_eq_some s _ s.serving .tdo o).2 ⟨⟨sl, at_o, free⟩, lowest, rfl⟩
      have owned := hP.take (f := fun se => { se with phase := .dispatching, tdoSlot := some o }) hs acquired
        (fun _ => rfl) fun _ r => by cases r <;> rfl
      exact hP.registers owned (State.transferStart_sessions _ _) (State.transferStart_arena _ _)
  | getinfo | settck =>
    obtain ⟨div, bytes, rfl⟩ := exec_reply taken nofun
    have written : P { s with g := { s.g with div := div } } := hP.registers hs rfl rfl
    obtain ⟨tx, seen, emitted⟩ :=
      State.emitThen_cases (s := { s with g := { s.g with div := div } }) at_k bytes (State.restart s.serving)
    have transcribed := hP.update (f := Session.transcribe tx seen) written fun x => ⟨rfl, List.prefix_append ..⟩
    rcases emitted with emitted | emitted
    · rw [emitted, State.restart_eq]
      exact hP.update transcribed fun _ => .of_eq rfl rfl
    · rw [emitted]
      exact hP.close .write transcribed

/-- Every effect of serving session `k` keeps the invariant. -/
theorem effect (hP : ServedInvariant k P) {w : WriteOutcome} (h : Effect (.serve k w) s t) (hs : P s) : P t := by
  cases h with
  | nothing => exact hs
  | started => exact hP.update hs fun _ => .of_eq rfl rfl
  | executed _ _ _ _ se i free at_k phase complete served held taken =>
    subst served
    exact hP.executed hs at_k taken
  | decoded _ _ _ _ se free at_k phase complete rx taken =>
    obtain ⟨b, rest, -, effect⟩ := State.decodeByte_effect at_k rx taken
    exact hP.byte hs at_k effect
  | streamEnded =>
    unfold State.endOfStream
    split
    · exact hP.close .eofMidCmd hs
    · exact hP.close .peerClosed hs

end ServedInvariant

/-! ## Isolation -/

/-- `u` has the registers and the owned slots of session `j` as `s` has them, and no register of session `k` names one of
those slots. -/
structure State.Spares (s : State) (j k : Nat) (u : State) : Prop where
  session : u.sessions[j]? = s.sessions[j]?
  slots : ∀ a r, s.ownerAt a = some (j, r) → u.arena[a]? = s.arena[a]? ∧ ∀ r', u.heldBy k r' ≠ some a

/-- Under ownership the registers of another session name none of `j`'s slots. -/
theorem State.Ownership.spares {s : State} (own : s.Ownership) {j k : Nat} (other : j ≠ k) : s.Spares j k s where
  session := rfl
  slots a r owner := by
    rw [State.ownership_iff] at own
    refine ⟨rfl, fun r' held => other ?_⟩
    have both := owner.symm.trans ((own a k r').2 held)
    exact congrArg Prod.fst (Option.some.inj both)

/-- A step of session `k` spares the other sessions. -/
theorem State.spares_servedInvariant (s : State) {j k : Nat} (other : j ≠ k) : ServedInvariant k (s.Spares j k) where
  registers spares sessions arena :=
    ⟨by rw [sessions, spares.session], fun a r owner => by
      rw [arena]; simpa only [State.heldBy, sessions] using spares.slots a r owner⟩
  update {u f} spares continues :=
    { session := by rw [State.mapSession_sessions, List.getElem?_modify_ne _ _ other.symm, spares.session]
      slots := fun a r owner => by
        obtain ⟨same, unheld⟩ := spares.slots a r owner
        refine ⟨same, fun r' => ?_⟩
        rw [State.heldBy_of_modify_keep (State.mapSession_sessions u k f) fun x _ => (continues x).slots]
        exact unheld r' }
  take {u v r a f} spares taken _ named := by
    obtain ⟨⟨sl, at_a, free⟩, -, rfl⟩ := (State.acquireSlot_eq_some _ _ _ _ _).1 taken
    refine ⟨?_, fun b r' owner => ?_⟩
    · rw [State.mapSession_sessions, State.mapSlot_sessions, List.getElem?_modify_ne _ _ other.symm, spares.session]
    · obtain ⟨same, unheld⟩ := spares.slots b r' owner
      have ne : a ≠ b := by
        rintro rfl
        simp [State.ownerAt, ← same, at_a, free] at owner
      refine ⟨by simpa [ne] using same, fun r'' => ?_⟩
      rw [State.heldBy_of_modify (State.mapSession_sessions _ k f), if_pos rfl]
      simp only [named]
      split
      · cases at_k : u.sessions[k]? <;> simp [at_k, ne]
      · exact unheld r''
  write {u v r a off b} spares held written := by
    obtain ⟨-, rfl⟩ := (State.memWrite_eq_next _ _ _ _ _).1 written
    refine ⟨spares.session, fun c r' owner => ?_⟩
    obtain ⟨same, unheld⟩ := spares.slots c r' owner
    have ne : a ≠ c := fun eq => unheld r (eq ▸ held)
    exact ⟨by simpa [ne] using same, unheld⟩
  close {u} code spares := by
    refine ⟨?_, fun a r owner => ?_⟩
    · rw [State.close_sessions, List.getElem?_modify_ne _ _ other.symm, spares.session]
    · obtain ⟨same, unheld⟩ := spares.slots a r owner
      have notHeld : (u.sessions[k]?.map fun se => se.holds a) ≠ some true := by
        rw [ne_eq, Option.map_eq_some_iff]
        rintro ⟨se, at_k, holds⟩
        obtain ⟨r', named⟩ := (se.holds_iff a).1 holds
        exact unheld r' ((State.heldBy_of_some at_k r').trans named)
      refine ⟨?_, fun r' held => ?_⟩
      · rw [State.close_arena]
        simpa [notHeld] using same
      · rw [State.heldBy_of_modify (State.close_sessions u k code), if_pos rfl, Option.bind_eq_some_iff] at held
        obtain ⟨se, -, named⟩ := held
        simp [Session.slotOf_eq_none (se := se.closed code) rfl] at named

/-- Settles O57: ownership keeps `j`'s slots out of the registers of session `k`, and what a step of `k` is made of touches
only slots that are free or that those registers name. -/
theorem sessionStepsAreIsolated : Obligations.SessionStepsAreIsolated := by
  unfold Obligations.SessionStepsAreIsolated
  intro s t k j w own other performed
  have before : s.Spares j k (s.latch (.serve k w)) :=
    (s.spares_servedInvariant other).registers (own.spares other) rfl rfl
  obtain ⟨session, slots⟩ := (s.spares_servedInvariant other).effect (State.perform_effect performed) before
  refine ⟨session, fun a sl r at_a owner => ?_⟩
  obtain ⟨same, -⟩ := slots a r (by simp [State.ownerAt, at_a, owner])
  exact same.trans at_a

end Sys2Proof.Machine
end

section
/-! What has been written on a session stays written (40_commands.md R131, R132; 42_session.md R186). -/

namespace Sys2Proof.Machine

/-- The bytes `tx` have been written on session `k`, and they stand at the beginning of its TX. -/
def State.HasWritten (k : Nat) (tx : List Byte) (s : State) : Prop :=
  ∃ se, s.sessions[k]? = some se ∧ tx <+: se.tx

namespace State.HasWritten

variable {s t : State} {k : Nat} {tx : List Byte}

theorem congr (h : s.HasWritten k tx) (sessions : t.sessions = s.sessions) : t.HasWritten k tx := by
  rwa [State.HasWritten, sessions]

theorem modify (h : s.HasWritten k tx) {j : Nat} {f : Session → Session} (sessions : t.sessions = s.sessions.modify j f)
    (grows : ∀ x : Session, x.tx <+: (f x).tx) : t.HasWritten k tx := by
  obtain ⟨se, at_k, written⟩ := h
  rw [State.HasWritten, sessions]
  by_cases same : j = k
  · exact ⟨f se, by simp [same, at_k], written.trans (grows se)⟩
  · exact ⟨se, by simp [same, at_k], written⟩

theorem close (h : s.HasWritten k tx) (j : Nat) (code : CloseReason) : (s.close j code).HasWritten k tx :=
  h.modify (State.close_sessions s j code) fun _ => List.prefix_rfl

theorem servedInvariant (j k : Nat) (tx : List Byte) : ServedInvariant j (State.HasWritten k tx) where
  registers h sessions _ := h.congr sessions
  update h goesOn := h.modify (State.mapSession_sessions _ _ _) fun x => (goesOn x).tx
  take {s t r a f} h taken keeps _ := by
    refine h.modify (j := j) (f := f) ?_ fun x => by rw [keeps]
    rw [State.mapSession_sessions, State.acquireSlot_sessions taken]
  write h _ written := h.congr (State.memWrite_sessions written)
  close code h := h.close j code

/-- The reply at the end of a transfer is appended (40_commands.md R127). -/
theorem shiftEnd (h : s.HasWritten k tx) {j : Nat} {se : Session} {e : Engine} (at_j : s.sessions[j]? = some se)
    (ended : State.shiftEnd j se { s with e := e } = .next t) : t.HasWritten k tx := by
  obtain ⟨o, bytes, -, -, rfl⟩ := State.shiftEnd_eq_next ended
  obtain ⟨reply, seen, sessions | sessions⟩ :=
    State.shiftEmit_sessions (s := { s with e := e, g := { s.g with busy := false, owner := none } }) at_j bytes
  · exact h.modify sessions fun _ => List.prefix_append ..
  · exact h.modify sessions fun _ => List.prefix_append ..

theorem engineEffect (h : s.HasWritten k tx) {j : Nat} {se : Session} {e : EngineStep} (at_j : s.sessions[j]? = some se)
    (taken : s.engineEffect e j se = .next t) : t.HasWritten k tx := by
  cases e with
  | feed =>
    obtain ⟨x, d, a, b, -, -, -, -, rfl⟩ := State.feed_eq_next taken
    exact h
  | drain => rcases State.drain_eq_next taken with ⟨-, rfl⟩ | ⟨x, q, o, -, -, rfl⟩ <;> exact h
  | bitStep | rxPush =>
    simp only [State.engineEffect, Host.Outcome.next.injEq] at taken
    exact taken ▸ h
  | hwEnd => exact h.shiftEnd at_j taken
  | swBitStep =>
    obtain ⟨x, d, o, a, b, old, -, -, -, -, -, -, rfl⟩ := State.swBitStep_eq_next taken
    exact h
  | swEnd => exact h.shiftEnd (e := s.e) at_j taken

/-- Every effect keeps what has been written, a new connection in the slot and block reset apart (R186, R241). -/
theorem effect (h : s.HasWritten k tx) {i : Input} (effect : Effect i s t) :
    t.HasWritten k tx ∨
      (i = .accept ∧ ∃ se, s.sessions[k]? = some se ∧ se.phase = .closed ∧ t = s.acceptInto k) ∨
      ∃ x, i = .blockReset x := by
  have whole := effect
  cases effect with
  | accepted _ j se free at_j phase =>
    by_cases same : j = k
    · subst same
      exact .inr (.inl ⟨rfl, se, at_j, phase, rfl⟩)
    · obtain ⟨x, at_k, written⟩ := h
      exact .inl ⟨x, by simp [State.acceptInto_eq, same, at_k], written⟩
  | reset _ x => exact .inr (.inr ⟨x, rfl⟩)
  | nothing | moved | hung => exact .inl h
  | arrived | ended =>
    exact .inl (h.modify (State.mapSession_sessions _ _ _) fun x => by split <;> exact List.prefix_rfl)
  | lost => exact .inl (h.modify (State.mapSession_sessions _ _ _) fun _ => List.prefix_rfl)
  | peerClosed | expired => exact .inl (h.close _ _)
  | faulted _ _ _ _ _ _ possible taken =>
    exact .inl (State.hwFault_induction (fun hu _ sessions _ => congr hu sessions) (fun j code hu => close hu j code) h
      taken)
  | started | executed | decoded | streamEnded => exact .inl ((servedInvariant _ k tx).effect whole h)
  | engine _ _ e w j se answers owner at_j enabled taken => exact .inl (h.engineEffect at_j taken)

end State.HasWritten

/-- Settles O56: all of a session's TX has been written, and every other effect keeps it at the beginning. -/
theorem txOnlyGrows : Obligations.TxOnlyGrows := by
  unfold Obligations.TxOnlyGrows
  intro s t i k se se' performed at_k after
  obtain ⟨-, -, latched, -⟩ := State.latch_frame i s
  have written : (s.latch i).HasWritten k se.tx := ⟨se, by rw [latched, at_k], List.prefix_rfl⟩
  rcases written.effect (State.perform_effect performed) with ⟨x, at_k', more, grown⟩ | ⟨rfl, x, at_k', closed, rfl⟩ | reset
  · obtain rfl : x = se' := Option.some.inj (at_k'.symm.trans after)
    exact .inl ⟨more, grown.symm⟩
  · obtain rfl : se = x := Option.some.inj (at_k.symm.trans at_k')
    obtain rfl : se.accepted = se' := by
      simpa [State.acceptInto_eq, State.latch, at_k] using after
    exact .inr (.inl ⟨rfl, closed, rfl⟩)
  · exact .inr (.inr reset)

end Sys2Proof.Machine
end

section
/-! What a command leaves alone, said once for the three of them: the other sessions, the bytes of the arena, and the owners
of slots the served session does not hold (40_commands.md R133). -/

namespace Sys2Proof.Machine

theorem exec_served {s t : State} {i : Instr} (taken : exec i s = .next t) : ∃ se, s.sessions[s.serving]? = some se := by
  cases at_k : s.sessions[s.serving]? with
  | some se => exact ⟨se, rfl⟩
  | none => cases i <;> simp [exec, execGetInfo, execSetTck, execShift, at_k] at taken

/-- An update of session `k` leaves the other sessions alone. -/
theorem State.sessions_of_modify {s t : State} {k : Nat} {f : Session → Session}
    (sessions : t.sessions = s.sessions.modify k f) :
    t.sessions.length = s.sessions.length ∧ (∀ j, j ≠ k → t.sessions[j]? = s.sessions[j]?) ∧
      ∀ se se', s.sessions[k]? = some se → t.sessions[k]? = some se' → f se = se' := by
  rw [sessions]
  refine ⟨List.length_modify .., fun j other => List.getElem?_modify_ne _ _ other.symm, fun se se' before after => ?_⟩
  simpa [before] using after

/-- Slot `a` has the same bytes in `t` as in `s`, and the same owner unless a register of session `k` names it. -/
def State.KeepsSlot (s t : State) (k a : Nat) : Prop :=
  ∀ sl sl' : Slot, s.arena[a]? = some sl → t.arena[a]? = some sl' →
    (∀ off, Memory.read sl'.bytes off = Memory.read sl.bytes off) ∧
    (sl'.owner = sl.owner ∨
      ∃ se, s.sessions[k]? = some se ∧ (se.tmsSlot = some a ∨ se.tdiSlot = some a ∨ se.tdoSlot = some a))

theorem State.KeepsSlot.of_eq {s t : State} {k a : Nat} (same : t.arena[a]? = s.arena[a]?) : s.KeepsSlot t k a := by
  intro sl sl' before after
  obtain rfl : sl = sl' := Option.some.inj (before.symm.trans (same.symm.trans after))
  exact ⟨fun _ => rfl, .inl rfl⟩

/-- A close of session `k` frees the slots it held; here after an update that keeps its slot registers (R215). -/
theorem State.KeepsSlot.close {s u : State} {k : Nat} {f : Session → Session}
    (sessions : u.sessions = s.sessions.modify k f) (keep : ∀ x, (f x).slots = x.slots) (arena : u.arena = s.arena)
    (code : CloseReason) (a : Nat) : s.KeepsSlot (u.close k code) k a := by
  intro sl sl' before after
  rw [State.close_arena, arena, before, Option.map_some, Option.some.injEq] at after
  subst after
  split
  · next held =>
    obtain ⟨x, at_k, holds⟩ := Option.map_eq_some_iff.1 held
    obtain ⟨r, named⟩ := (x.holds_iff a).1 holds
    have namedBefore : s.heldBy k r = some a := by
      rw [← State.heldBy_of_modify_keep sessions (fun se _ => keep se), State.heldBy_of_some at_k, named]
    obtain ⟨se, at_k, named⟩ := Option.bind_eq_some_iff.1 namedBefore
    refine ⟨fun _ => rfl, .inr ⟨se, at_k, ?_⟩⟩
    cases r with
    | tms => exact .inl named
    | tdi => exact .inr (.inl named)
    | tdo => exact .inr (.inr named)
  · exact ⟨fun _ => rfl, .inl rfl⟩

end Sys2Proof.Machine
end

section
/-! GETINFO and SETTCK: the reply written, and the frame (40_commands.md R116, R119, R121). -/

namespace Sys2Proof.Machine

/-- A reply that is written: TX and the host have it, and the session is back at the start of a command (R119). -/
theorem State.emitThen_restart_of_ok {s : State} {k : Nat} {se : Session} (at_k : s.sessions[k]? = some se)
    (written : s.write.ok = true) (connected : se.gone = false) (bytes : List Byte) :
    s.emitThen k bytes (State.restart k) =
      { s with sessions := s.sessions.set k (se.transcribe bytes bytes).restarted } := by
  rw [State.emitThen_of_some s k bytes _ se at_k, if_pos ⟨written, connected⟩, State.restart_eq,
    State.mapSession_mapSession, State.mapSession, modify_eq_set _ at_k]
  rfl

theorem State.setDivisor_eq (s : State) (p : Word) :
    s.setDivisor p =
      { s with g := { s.g with div := if s.cfg.settckApplies = true then clampDiv s.cfg p else s.g.div } } := by
  unfold State.setDivisor
  split <;> rfl

/-- Settles O12: GETINFO is the reply write and the restart. -/
theorem getInfoReplies : Obligations.GetInfoReplies := by
  unfold Obligations.GetInfoReplies
  intro s se at_k written connected reply
  simp only [exec, execGetInfo, at_k]
  exact congrArg Host.Outcome.next (State.emitThen_restart_of_ok at_k written connected reply)

/-- Settles O14: SETTCK is the write of the divisor, then the operand's own bytes as the reply. -/
theorem setTckWritesDivisorAndEchoes : Obligations.SetTckWritesDivisorAndEchoes := by
  unfold Obligations.SetTckWritesDivisorAndEchoes
  intro s se p0 p1 p2 p3 at_k written connected
  have replied (div : Nat) :=
    State.emitThen_restart_of_ok (s := { s with g := { s.g with div := div } }) at_k written connected [p0, p1, p2, p3]
  simp only [exec, execSetTck, at_k, State.setDivisor_eq, le32Bytes_le32]
  exact congrArg Host.Outcome.next (replied _)

/-- Only SETTCK writes the divisor (R121). -/
theorem exec_getinfo_g {s t : State} (taken : exec .getinfo s = .next t) : t.g = s.g := by
  obtain ⟨-, -, -, -, -, ⟨-, same | ⟨p, settck, -⟩⟩ | ⟨n, tms, tdi, shift, -⟩⟩ := exec_registers taken
  · exact same
  · cases settck
  · cases shift

/-- A reply, written or not, touches of the sessions only the served one and of the arena only the owners of slots it held
(R116, R121). -/
theorem State.emitThen_restart_frame {s : State} {k : Nat} {se : Session} (at_k : s.sessions[k]? = some se)
    (bytes : List Byte) :
    ∃ f : Session → Session, (s.emitThen k bytes (State.restart k)).sessions = s.sessions.modify k f ∧
      (∀ x, (f x).hdr = x.hdr ∧ (f x).n = x.n ∧ (f x).eof = x.eof ∧ (f x).gone = x.gone) ∧
      (s.emitThen k bytes (State.restart k)).arena.length = s.arena.length ∧
      ∀ a, s.KeepsSlot (s.emitThen k bytes (State.restart k)) k a := by
  obtain ⟨tx, seen, emitted | emitted⟩ := State.emitThen_cases at_k bytes (State.restart k)
  · rw [emitted]
    exact ⟨Session.restarted ∘ Session.transcribe tx seen, List.modify_modify_eq .., fun _ => ⟨rfl, rfl, rfl, rfl⟩, rfl,
      fun a => .of_eq rfl⟩
  · rw [emitted]
    exact ⟨Session.closed .write ∘ Session.transcribe tx seen,
      (State.close_sessions _ _ _).trans (List.modify_modify_eq ..), fun _ => ⟨rfl, rfl, rfl, rfl⟩,
      State.close_arena_length .., .close (State.mapSession_sessions s k (Session.transcribe tx seen)) (fun _ => rfl) rfl .write⟩

/-- Settles O18: either command is a reply, after a possible write of `G.DIV`. -/
theorem replyCommandFrame : Obligations.ReplyCommandFrame := by
  unfold Obligations.ReplyCommandFrame
  intro s t i replies taken
  obtain ⟨se, at_k⟩ := exec_served taken
  have unwritten : i = .getinfo → t.g.div = s.g.div := by
    rintro rfl
    rw [exec_getinfo_g taken]
  have notShift : i.kind ≠ .shift := by
    rcases replies with rfl | ⟨p, rfl⟩ <;> nofun
  obtain ⟨div, bytes, rfl⟩ := exec_reply taken notShift
  have frame := OnlyStorage.emitThen { s with g := { s.g with div := div } } s.serving bytes (State.restart s.serving)
    fun u => OnlyStorage.mapSession u _ _
  obtain ⟨f, sessions, keep, length, slots⟩ :=
    State.emitThen_restart_frame (s := { s with g := { s.g with div := div } }) at_k bytes
  obtain ⟨count, others, served⟩ := State.sessions_of_modify (s := s) sessions
  refine ⟨frame.cfg, frame.e, frame.p, frame.target, frame.serving, frame.write, frame.inputs, frame.draws,
    by rw [frame.g], unwritten, count, others, fun x x' before after => ?_, length, slots⟩
  exact served x x' before after ▸ keep x

end Sys2Proof.Machine
end

section
/-! A SHIFT that starts a transfer, and the frame of SHIFT's dispatch (20_memory.md R67; 40_commands.md R124, R125, R133;
41_shift_engine.md R148-R151, R163). -/

namespace Sys2Proof.Machine

/-! ## The start -/

/-- HwSetup and HwStart (R148, R149, R151): the shift registers' contents and `hung` stay. -/
theorem State.transferStart_of_hw {s : State} (hw : s.g.engine = .hw) (n : Word) :
    s.transferStart n =
      { s with
        e :=
          { s.e with
            runA := true, runB := true, cntA := n, cntB := n, txfA := [], txfB := [], rxfB := [], osrcA := 0, osrcB := 0
            isrB := 0, isrcB := 0, divl := s.g.div, i := 0, inW := 0, outW := 0 } } := by
  rw [State.transferStart, hw]
  rfl

/-- SwStart (R163). -/
theorem State.transferStart_of_sw {s : State} (sw : s.g.engine = .sw) (n : Word) :
    s.transferStart n = { s with e := { s.e with i := 0 } } := by
  rw [State.transferStart, sw]
  rfl

/-- Slot `a` is free, and no slot below it is. -/
structure State.LowestFree (s : State) (a : Nat) : Prop where
  free : ∃ sl, s.arena[a]? = some sl ∧ sl.owner = none
  least : ∀ (b : Nat) (sb : Slot), b < a → s.arena[b]? = some sb → sb.owner ≠ none

theorem State.LowestFree.of_isSome {s : State} {a : Nat} {sl : Slot} (at_a : s.arena[a]? = some sl) (free : sl.owner = none)
    (least : ∀ b sb, b < a → s.arena[b]? = some sb → sb.owner.isSome = true) : s.LowestFree a :=
  ⟨⟨sl, at_a, free⟩, fun b sb below at_b => Option.isSome_iff_ne_none.1 (least b sb below at_b)⟩

theorem State.LowestFree.acquireSlot {s : State} {a : Nat} (lowest : s.LowestFree a) (k : Nat) (r : Role) :
    s.acquireSlot k r = some (a, s.mapSlot a fun _ => { owner := some (k, r), bytes := [] }) :=
  (State.acquireSlot_eq_some s _ k r a).2
    ⟨lowest.free, fun b sb below at_b => Option.isSome_iff_ne_none.2 (lowest.least b sb below at_b), rfl⟩

theorem State.LowestFree.findIdx? {s : State} {a : Nat} (lowest : s.LowestFree a) :
    s.arena.findIdx? (fun x => x.owner.isNone) = some a := by
  have taken := lowest.acquireSlot 0 .tms
  unfold State.acquireSlot at taken
  split at taken
  · cases taken
  · next found =>
    obtain ⟨rfl, -⟩ := Prod.mk.inj (Option.some.inj taken)
    exact found

theorem State.LowestFree.unique {s : State} {a b : Nat} (lowest : s.LowestFree a) (lowest' : s.LowestFree b) : a = b :=
  Option.some.inj (lowest.findIdx?.symm.trans lowest'.findIdx?)

/-- The vectors that session `k`, holding a SHIFT of `n` bits, has in its two slots (R123). -/
theorem State.heldCommand_of_shift {s : State} {k t d : Nat} {se : Session} {tms tdi : List Byte}
    (at_k : s.sessions[k]? = some se) (shift : se.kind = some .shift) (ht : se.tmsSlot = some t)
    (hd : se.tdiSlot = some d) (readTms : s.memRead t 0 (vectorBytes se.n) = .next tms)
    (readTdi : s.memRead d 0 (vectorBytes se.n) = .next tdi) : s.heldCommand k = .next (.shift se.n tms tdi) := by
  simp only [State.heldCommand, at_k, shift, ht, hd, readTms, readTdi, andThen_next]

/-- With a valid backend and a free slot, the SHIFT that the served session holds takes the lowest free slot and starts
(R124). -/
theorem exec_shift_of_free {s : State} {se : Session} {a : Nat} {n : Word} {tms tdi : List Byte}
    (at_k : s.sessions[s.serving]? = some se) (held : s.heldCommand s.serving = .next (.shift n tms tdi))
    (valid : s.g.backendValid = true) (lowest : s.LowestFree a) :
    exec (.shift n tms tdi) s =
      .next (State.transferStart n
        { s with
          g := { s.g with busy := true, owner := some s.serving }
          sessions := s.sessions.set s.serving { se with phase := .dispatching, tdoSlot := some a }
          arena := s.arena.set a { owner := some (s.serving, .tdo), bytes := [] } }) := by
  obtain ⟨t, taken⟩ := exec_answers at_k held
  obtain ⟨sl, at_a, free⟩ := lowest.free
  obtain ⟨-, -, ⟨invalid, -⟩ | ⟨-, full, -⟩ | ⟨-, -, o, so, at_o, freeO, least, rfl⟩⟩ := execShift_eq_next taken
  · simp [valid] at invalid
  · simpa [free] using full sl (List.mem_of_getElem? at_a)
  · obtain rfl : o = a := (State.LowestFree.of_isSome at_o freeO least).unique lowest
    rw [taken, modify_eq_set _ at_k, modify_eq_set _ at_a]

/-- Settles O19: the session holds that SHIFT, so it starts, on the hardware engine. -/
theorem shiftStartsHardwareTransfer : Obligations.ShiftStartsHardwareTransfer := by
  unfold Obligations.ShiftStartsHardwareTransfer
  intro s se sl n tms tdi t d a at_k shift count ht hd readTms readTdi valid hw at_a free least
  subst count
  have held := State.heldCommand_of_shift at_k shift ht hd readTms readTdi
  rw [exec_shift_of_free at_k held valid ⟨⟨sl, at_a, free⟩, least⟩, State.transferStart_of_hw (by exact hw)]

/-- Settles O20: the same start, on the software engine. -/
theorem shiftStartsSoftwareTransfer : Obligations.ShiftStartsSoftwareTransfer := by
  unfold Obligations.ShiftStartsSoftwareTransfer
  intro s se sl n tms tdi t d a at_k shift count ht hd readTms readTdi valid sw at_a free least
  subst count
  have held := State.heldCommand_of_shift at_k shift ht hd readTms readTdi
  rw [exec_shift_of_free at_k held valid ⟨⟨sl, at_a, free⟩, least⟩, State.transferStart_of_sw (by exact sw)]

/-! ## The frame -/

/-- What SHIFT's dispatch leaves alone outside sessions and arena (R124). -/
structure ShiftRegisters (s t : State) : Prop where
  cfg : t.cfg = s.cfg
  p : t.p = s.p
  target : t.target = s.target
  serving : t.serving = s.serving
  write : t.write = s.write
  inputs : t.inputs = s.inputs
  draws : t.draws = s.draws
  g : t.g = { s.g with busy := t.g.busy, owner := t.g.owner }
  osrA : t.e.osrA = s.e.osrA
  osrB : t.e.osrB = s.e.osrB
  hung : t.e.hung = s.e.hung
  software : s.g.engine = .sw → t.e = { s.e with i := t.e.i }

theorem OnlyStorage.shiftRegisters {s t : State} (same : OnlyStorage s t) : ShiftRegisters s t where
  cfg := same.cfg
  p := same.p
  target := same.target
  serving := same.serving
  write := same.write
  inputs := same.inputs
  draws := same.draws
  g := by rw [same.g]
  osrA := by rw [same.e]
  osrB := by rw [same.e]
  hung := by rw [same.e]
  software _ := by rw [same.e]

theorem ShiftRegisters.transferStart (s : State) (sessions : List Session) (arena : List Slot) (n : Word) :
    ShiftRegisters s
      (State.transferStart n
        { s with
          sessions := sessions, arena := arena
          g := { s.g with busy := true, owner := some s.serving } }) := by
  cases engine : s.g.engine with
  | hw =>
    rw [State.transferStart_of_hw (by exact engine)]
    exact ⟨rfl, rfl, rfl, rfl, rfl, rfl, rfl, rfl, rfl, rfl, rfl, fun sw => by simp [engine] at sw⟩
  | sw =>
    rw [State.transferStart_of_sw (by exact engine)]
    exact ⟨rfl, rfl, rfl, rfl, rfl, rfl, rfl, rfl, rfl, rfl, rfl, fun _ => rfl⟩

/-- Session `se'` has the header, the count, the replies and the connection of `se`. -/
structure Session.SameReplies (se se' : Session) : Prop where
  hdr : se'.hdr = se.hdr
  n : se'.n = se.n
  tx : se'.tx = se.tx
  seen : se'.seen = se.seen
  eof : se'.eof = se.eof
  gone : se'.gone = se.gone

/-- What SHIFT's dispatch does to sessions and arena: one update of the served session; and every slot but the lowest free
one keeps its bytes (R124). -/
structure ShiftStorage (s t : State) : Prop where
  sessions : ∃ f : Session → Session, t.sessions = s.sessions.modify s.serving f ∧ ∀ x : Session, x.SameReplies (f x)
  length : t.arena.length = s.arena.length
  slots : ∀ a, s.arena.findIdx? (fun x => x.owner.isNone) ≠ some a → s.KeepsSlot t s.serving a

theorem ShiftStorage.close (s : State) (code : CloseReason) :
    ShiftStorage s ((s.mapSession s.serving fun se => { se with phase := .dispatching }).close s.serving code) where
  sessions :=
    ⟨_, (State.close_sessions _ _ _).trans (List.modify_modify_eq ..), fun _ => ⟨rfl, rfl, rfl, rfl, rfl, rfl⟩⟩
  length := State.close_arena_length ..
  slots a _ :=
    .close (State.mapSession_sessions s s.serving fun se => { se with phase := .dispatching }) (fun _ => rfl) rfl code a

theorem execShift_frame {s t : State} {n : Word} {tms tdi : List Byte} (taken : execShift n tms tdi s = .next t) :
    ShiftRegisters s t ∧ ShiftStorage s t := by
  have closed (code : CloseReason) :
      OnlyStorage s ((s.mapSession s.serving fun se => { se with phase := .dispatching }).close s.serving code) :=
    (OnlyStorage.mapSession s _ _).trans (OnlyStorage.close _ _ code)
  obtain ⟨-, -, ⟨-, rfl⟩ | ⟨-, -, rfl⟩ | ⟨-, -, o, sl, at_o, free, least, rfl⟩⟩ := execShift_eq_next taken
  · exact ⟨(closed .backendInvalid).shiftRegisters, .close s .backendInvalid⟩
  · exact ⟨(closed .noSlot).shiftRegisters, .close s .noSlot⟩
  · refine ⟨.transferStart s _ _ n, ?_⟩
    have lowest := State.LowestFree.of_isSome at_o free least
    exact
      { sessions := ⟨_, State.transferStart_sessions _ n, fun _ => ⟨rfl, rfl, rfl, rfl, rfl, rfl⟩⟩
        length := by rw [State.transferStart_arena, List.length_modify]
        slots := fun a notLowest => .of_eq <| by
          have other : o ≠ a := fun same => notLowest (same ▸ lowest.findIdx?)
          rw [State.transferStart_arena, List.getElem?_modify_ne _ _ other] }

/-- Settles O23: a close and a start leave the same registers alone, and a start takes the lowest free slot only. -/
theorem shiftFrame : Obligations.ShiftFrame := by
  unfold Obligations.ShiftFrame
  intro s t n tms tdi taken
  obtain ⟨same, ⟨f, sessions, keep⟩, length, slots⟩ := execShift_frame taken
  obtain ⟨count, others, served⟩ := State.sessions_of_modify sessions
  refine ⟨same.cfg, same.p, same.target, same.serving, same.write, same.inputs, same.draws, same.g, same.osrA, same.osrB,
    same.hung, same.software, count, others, fun x x' before after => ?_, length,
    fun a sl sl' before after notLowest => slots a notLowest sl sl' before after⟩
  obtain ⟨hdr, hn, tx, seen, eof, gone⟩ := keep x
  exact served x x' before after ▸ ⟨hdr, hn, tx, seen, eof, gone⟩

end Sys2Proof.Machine
end

section
/-! The loop dispatches the command a session holds, and that is the command its received bytes spell (40_commands.md R110,
R112, R115, R118). -/

namespace Sys2Proof.Machine

/-- A complete command: the loop executes what the session holds (R118, R198). -/
theorem State.perform_serve_complete {s : State} {k : Nat} {se : Session} {i : Instr} (free : s.loopFree = true)
    (at_k : s.sessions[k]? = some se) (phase : se.phase = .awaitingCommand) (complete : se.complete = true)
    (held : s.heldCommand k = .next i) (w : WriteOutcome) :
    s.perform (.serve k w) = exec i { s with serving := k, write := w } := by
  have latchedFree : State.loopFree { s with serving := k, write := w } = true := free
  have latchedHeld : State.heldCommand k { s with serving := k, write := w } = .next i := held
  simp only [State.perform, State.sessionStep, at_k, latchedFree, phase, State.awaitingStep, complete, State.dispatch,
    latchedHeld, andThen_next, if_true]

theorem State.takeInput_heldCommand (s : State) (k : Nat) : s.takeInput.heldCommand k = s.heldCommand k := by
  unfold State.takeInput
  split <;> rfl

/-- Settles O6: taking the input touches nothing that the dispatch reads. -/
theorem stepRunsHeldCommand : Obligations.StepRunsHeldCommand := by
  unfold Obligations.StepRunsHeldCommand
  intro s k w se i valid input free at_k phase complete held
  obtain ⟨-, g, sessions, -⟩ := s.takeInput_frame
  have takenFree : s.takeInput.loopFree = true := by rw [State.loopFree, g]; exact free
  rw [step, if_pos valid, input]
  exact State.perform_serve_complete takenFree (by rw [sessions, at_k]) phase complete
    (by rw [s.takeInput_heldCommand, held]) w

/-! ## The bytes received -/

/-- The header register holds the first bytes received (10_state.md R30). -/
theorem headerOf_take_append (h : Vector Byte 11) (m : Nat) (tl : List Byte) :
    headerOf h (h.toList.take m ++ tl) m = h := by
  refine Vector.ext fun j inside => ?_
  rw [headerOf, Vector.getElem_ofFn]
  split
  · next stored => simp [List.getElem?_append, stored, inside]
  · rfl

/-- The bytes of a session holding a GETINFO or a SETTCK are its header register. -/
theorem State.commandBytes_of_header {s : State} {k : Nat} {se : Session} (at_k : s.sessions[k]? = some se)
    (header : se.kind ≠ some .shift) : s.commandBytes k = .next (se.hdr.toList.take se.hlen) := by
  simp only [State.commandBytes, at_k]

/-- The bytes of a session holding a SHIFT are its header register and the contents of its two slots. -/
theorem State.commandBytes_of_shift {s : State} {k : Nat} {se : Session} {bytes : List Byte}
    (at_k : s.sessions[k]? = some se) (shift : se.kind = some .shift) (received : s.commandBytes k = .next bytes) :
    ∃ tms tdi, tms.length = vectorBytes se.n ∧ tdi.length = vectorBytes se.n ∧
      s.heldCommand k = .next (.shift se.n tms tdi) ∧ bytes = se.hdr.toList.take se.hlen ++ (tms ++ tdi) := by
  simp only [State.commandBytes, at_k, shift] at received
  split at received
  · next t d ht hd =>
    simp only [andThen_eq_next, Host.Outcome.next.injEq] at received
    obtain ⟨tms, readTms, tdi, readTdi, rfl⟩ := received
    refine ⟨tms, tdi, ?_, ?_, State.heldCommand_of_shift at_k shift ht hd readTms readTdi, List.append_assoc ..⟩
    · obtain ⟨-, -, -, -, rfl⟩ := (State.memRead_eq_next _ _ _ _ _).1 readTms
      exact Memory.readRange_length ..
    · obtain ⟨-, -, -, -, rfl⟩ := (State.memRead_eq_next _ _ _ _ _).1 readTdi
      exact Memory.readRange_length ..
  · cases received

/-- What the decoder makes of the bytes of a session of class `kind` (R86, R112). -/
theorem Session.positionOk.decodeOperands {c : Config} {se : Session} {kind : Kind} {tl rest : List Byte} {i : Instr}
    (pos : Session.positionOk c se) (hkind : se.kind = some kind)
    (done : decode c (se.hdr.toList.take se.hlen ++ tl) = .done i rest) :
    decodeOperands c kind (se.hdr.toList.take se.hlen ++ tl) = .done i rest := by
  obtain ⟨two, -, known⟩ := pos.classify hkind
  obtain ⟨kind', known', -, -, operands⟩ := header_of_decode_eq_done done
  have stored {j : Nat} (early : j < se.hlen) (inside : j < 11) :
      (se.hdr.toList.take se.hlen ++ tl).getD j 0 = se.hdr[j] := by
    rw [← getElem_headerOf se.hdr _ early inside]
    simp only [headerOf_take_append]
  rw [stored (by omega) (by decide), stored (by omega) (by decide), known, Option.some.injEq] at known'
  exact known' ▸ operands

/-- A complete GETINFO or SETTCK is as long as its header. -/
theorem Session.positionOk.hlen_of_complete_header {c : Config} {se : Session} {kind : Kind} (pos : Session.positionOk c se)
    (hkind : se.kind = some kind) (header : kind ≠ .shift) (complete : se.complete = true) : se.hlen = kind.hdrLen := by
  obtain ⟨-, whole⟩ := se.complete_iff.1 complete
  obtain ⟨-, -, -, plen, -, -⟩ := (Session.positionOk_of_kind_some hkind fun counted => header counted.1).1 pos
  cases kind with
  | getinfo | settck => simpa only [plen, Nat.add_zero, Session.need, hkind, Kind.hdrLen] using whole
  | shift => exact absurd rfl header

/-- The command that the received bytes spell is the one the session holds. -/
theorem State.heldCommand_of_decode {s : State} {k : Nat} {se : Session} {i : Instr} {bytes : List Byte}
    (at_k : s.sessions[k]? = some se) (complete : se.complete = true) (pos : Session.positionOk s.cfg se)
    (received : s.commandBytes k = .next bytes) (done : decode s.cfg bytes = .done i []) : s.heldCommand k = .next i := by
  obtain ⟨kind, hkind⟩ := Option.isSome_iff_exists.1 (se.complete_iff.1 complete).1
  by_cases shift : kind = .shift
  · subst shift
    obtain ⟨tms, tdi, lengthTms, lengthTdi, held, rfl⟩ := State.commandBytes_of_shift at_k hkind received
    have hlen := pos.hlen_of_complete hkind complete
    obtain ⟨-, count, -⟩ := (Session.positionOk_of_counted hkind hlen).1 pos
    have operands := pos.decodeOperands hkind done
    rw [hlen] at operands
    have operand : operandAt (se.hdr.toList.take 10 ++ (tms ++ tdi)) 6 = se.n := by
      rw [count, ← countOf_headerOf se.hdr, headerOf_take_append]
    obtain ⟨tms', tdi', rfl, wf, payload⟩ := (decodeShift_eq_done_iff (by simp)).1 operands
    obtain ⟨-, lengthTms', -⟩ := Instr.wf_shift_iff.1 wf
    rw [List.drop_left' (by simp), List.append_nil] at payload
    obtain ⟨rfl, rfl⟩ := List.append_inj payload (by rw [lengthTms, lengthTms', operand])
    rw [operand]
    exact held
  · have header : se.kind ≠ some .shift := by simpa [hkind] using shift
    have hlen := pos.hlen_of_complete_header hkind shift complete
    obtain rfl : se.hdr.toList.take se.hlen = bytes := by
      simpa [State.commandBytes_of_header at_k header] using received
    rw [← List.append_nil (List.take _ _)] at done
    have operands := pos.decodeOperands hkind done
    cases kind with
    | getinfo =>
      obtain rfl : Instr.getinfo = i := (DecodeResult.done.inj operands).1
      simp only [State.heldCommand, at_k, hkind]
    | settck =>
      obtain rfl := (DecodeResult.done.inj operands).1
      have period : operandAt (se.hdr.toList.take se.hlen ++ []) 7 = periodOf se.hdr := by
        rw [← periodOf_headerOf se.hdr, hlen, Kind.hdrLen, headerOf_take_append]
      simp only [State.heldCommand, at_k, hkind, period]
    | shift => exact absurd rfl shift

/-- Settles O7: the command the bytes spell is the one held. -/
theorem stepRunsDecodedBytes : Obligations.StepRunsDecodedBytes := by
  unfold Obligations.StepRunsDecodedBytes
  intro s k w se i bytes valid input free at_k phase complete pos received done
  exact stepRunsHeldCommand s k w se i valid input free at_k phase complete
    (State.heldCommand_of_decode at_k complete pos received done)

end Sys2Proof.Machine
end

section
/-! The loop's latch and the decoder: the header branch of a byte step reads and writes nothing of the latch (40_commands.md
R111-R115; log 3), so what a served header byte does can be said of the unlatched state. -/

namespace Sys2Proof.Machine

section
variable (s : State) (k j : Nat) (w : WriteOutcome)

theorem State.close_latch (code : CloseReason) :
    (s.latch (.serve j w)).close k code = (s.close k code).latch (.serve j w) := by
  cases at_k : s.sessions[k]? with
  | none =>
    rw [State.close_of_none s k code at_k]
    exact State.close_of_none (s.latch (.serve j w)) k code at_k
  | some se =>
    rw [State.close_of_some s k code se at_k]
    exact State.close_of_some (s.latch (.serve j w)) k code se at_k

theorem State.acquireSlot_latch (r : Role) :
    (s.latch (.serve j w)).acquireSlot k r = (s.acquireSlot k r).map fun taken => (taken.1, taken.2.latch (.serve j w)) := by
  have arena : (s.latch (.serve j w)).arena = s.arena := rfl
  unfold State.acquireSlot
  rw [arena]
  cases s.arena.findIdx? fun sl => sl.owner.isNone <;> rfl

theorem State.mapSession_latch (f : Session → Session) :
    (s.latch (.serve j w)).mapSession k f = (s.mapSession k f).latch (.serve j w) := rfl

theorem State.validateCount_latch (h : Vector Byte 11) :
    (s.latch (.serve j w)).validateCount k h = (s.validateCount k h).latch (.serve j w) := by
  have config : (s.latch (.serve j w)).cfg = s.cfg := rfl
  unfold State.validateCount
  rw [config]
  split
  · exact s.close_latch k j w .lenZero
  · exact s.close_latch k j w .lenOver
  · exact s.close_latch k j w .badPrefix
  · exact s.close_latch k j w .prefixTail
  · simp only [State.mapSession_latch, State.acquireSlot_latch]
    cases (s.mapSession k fun se => { se with n := countOf h }).acquireSlot k .tms with
    | none => exact State.close_latch _ k j w .noSlot
    | some first =>
      simp only [Option.map_some, State.mapSession_latch, State.acquireSlot_latch]
      cases (first.2.mapSession k fun se => { se with tmsSlot := some first.1 }).acquireSlot k .tdi with
      | none => exact State.close_latch _ k j w .noSlot
      | some second => rfl

theorem State.headerByte_latch (b : Byte) (se : Session) :
    (s.latch (.serve j w)).headerByte k b se = (s.headerByte k b se).latch (.serve j w) := by
  have config : (s.latch (.serve j w)).cfg = s.cfg := rfl
  unfold State.headerByte
  simp only [State.mapSession_latch, config]
  split
  · unfold State.classifyStep
    split
    · rfl
    · exact State.close_latch _ k j w .badPrefix
  · split
    · rfl
    · split
      · exact State.close_latch _ k j w .prefixTail
      · split
        · exact State.validateCount_latch _ k j w _
        · rfl

end

/-- A header is not a complete command. -/
theorem Session.incomplete_of_header {se : Session} (header : se.hlen < hdrLen se.kind)
    (plen : se.kind ≠ none → se.plen = 0) : se.complete = false := by
  rw [← Bool.not_eq_true, Session.complete_iff]
  rintro ⟨classified, whole⟩
  obtain ⟨kind, hkind⟩ := Option.isSome_iff_exists.1 classified
  rw [hkind, hdrLen] at header
  rw [plen (by simp [hkind]), Nat.add_zero] at whole
  cases kind with
  | getinfo | settck =>
    simp only [Session.need, hkind, Kind.hdrLen] at whole header
    omega
  | shift =>
    simp only [Kind.hdrLen] at header
    simp only [Session.need, hkind, header, if_true] at whole
    omega

/-- The served step of a session whose header is incomplete is the header branch of `DecodeByte` (R111). -/
theorem State.serveGives_headerByte {s : State} {k : Nat} {se : Session} {b : Byte} {rest : List Byte}
    (free : s.loopFree = true) (at_k : s.sessions[k]? = some se) (phase : se.phase = .awaitingCommand)
    (header : se.hlen < hdrLen se.kind) (plen : se.kind ≠ none → se.plen = 0) (rx : se.rx = b :: rest) (w : WriteOutcome) :
    s.ServeGives k w ((s.mapSession k fun x => { x with rx := rest }).headerByte k b se) := by
  have serves : (s.latch (.serve k w)).Serves k w := ⟨rfl, rfl, free⟩
  have performed : (s.latch (.serve k w)).perform (.serve k w) = .next _ :=
    (State.perform_serve_byte serves at_k phase (Session.incomplete_of_header header plen) rx).trans
      (State.decodeByte_header (s := s.latch (.serve k w)) at_k rx header)
  rw [State.mapSession_latch, State.headerByte_latch] at performed
  have same := (OnlyStorage.mapSession s k fun x => { x with rx := rest }).trans (OnlyStorage.headerByte _ k b se)
  refine ⟨_, performed, ?_⟩
  rw [← same.serving, ← same.write]
  rfl

end Sys2Proof.Machine
end

section
/-! The header bytes of a command, one served step each: classification, the literal's tail, and the count of a SHIFT
(40_commands.md R112, R113, R115). -/

namespace Sys2Proof.Machine

theorem setIfInBounds_eq_set (h : Vector Byte 11) {m : Nat} (b : Byte) (inside : m < 11) :
    h.setIfInBounds m b = h.set m b inside :=
  Vector.ext fun j _ => by rw [Vector.getElem_setIfInBounds, Vector.getElem_set]

/-- The state with a byte taken from RX and stored as the next header byte of session `k`. -/
theorem State.storeHeader_eq {s : State} {k : Nat} {se : Session} (at_k : s.sessions[k]? = some se) (b : Byte)
    (rest : List Byte) :
    s.storeHeader k b rest se = { s with sessions := s.sessions.set k (se.storeHeader b rest) } := by
  rw [← State.storeHeader_sessions at_k b rest]
  rfl

section
variable {s : State} {k : Nat} {se : Session} {b : Byte} {rest : List Byte}

/-- The first two bytes are those of no class (R112). -/
theorem State.headerByte_unclassified (second : se.hlen = 1)
    (unknown : classify (se.hdr.setIfInBounds se.hlen b)[0] (se.hdr.setIfInBounds se.hlen b)[1] = none) :
    (s.mapSession k fun x => { x with rx := rest }).headerByte k b se =
      (s.storeHeader k b rest se).close k .badPrefix := by
  unfold State.headerByte
  dsimp only
  rw [State.mapSession_mapSession, if_pos (by omega)]
  simp only [State.classifyStep, unknown]
  rfl

/-- A byte of the literal's tail that differs from it (R113). -/
theorem State.headerByte_failedTail {kind : Kind} (hkind : se.kind = some kind) (past : 2 ≤ se.hlen)
    (inPrefix : se.hlen < kind.prefixLen) (fails : tailByteOk s.cfg kind se.hlen b = false) :
    (s.mapSession k fun x => { x with rx := rest }).headerByte k b se =
      (s.storeHeader k b rest se).close k .prefixTail := by
  have compared : 3 ≤ se.hlen + 1 ∧ se.hlen + 1 ≤ kind.prefixLen := by omega
  unfold State.headerByte
  dsimp only
  rw [State.mapSession_mapSession, if_neg (by omega), hkind]
  simp only [State.mapSession_cfg, fails, compared, decide_true, Bool.not_false, Bool.and_self, if_true]
  rfl

end

/-- A byte from the third on fails the comparison exactly if it is compared and differs (R93, R113). -/
theorem tailByteOk_eq_false_iff {c : Config} {kind : Kind} {j : Nat} {b : Byte} (past : 2 ≤ j) :
    tailByteOk c kind j b = false ↔ c.checkFullPrefix = true ∧ j < kind.prefixLen ∧ (literal kind)[j]? ≠ some b := by
  have late : ¬j < 2 := by omega
  simp [tailByteOk, late, and_assoc]

/-- Settles O31: the first byte is stored; the second is stored and classified, or closes the session. -/
theorem firstTwoBytesClassify : Obligations.FirstTwoBytesClassify := by
  unfold Obligations.FirstTwoBytesClassify
  intro s k w se b rest free at_k phase unclassified rx
  have served (early : se.hlen < 2) : s.ServeGives k w ((s.mapSession k fun x => { x with rx := rest }).headerByte k b se) :=
    State.serveGives_headerByte free at_k phase (by rwa [unclassified]) (fun known => absurd unclassified known) rx w
  constructor
  · intro first
    have stored : se.storeHeader b rest = { se with hdr := se.hdr.set 0 b, hlen := 1, rx := rest } := by
      simp only [Session.storeHeader, first, setIfInBounds_eq_set _ _ (show 0 < 11 by decide)]
    have given := served (by omega)
    rwa [State.headerByte_stored (by omega) (by simp [unclassified]) (by simp [unclassified]), State.storeHeader_eq at_k,
      stored] at given
  · intro second stored
    have storedAt : se.storeHeader b rest = stored := by
      simp only [Session.storeHeader, second, setIfInBounds_eq_set _ _ (show 1 < 11 by decide), stored]
    have pair : classify (se.hdr.setIfInBounds se.hlen b)[0] (se.hdr.setIfInBounds se.hlen b)[1] =
        classify se.hdr[0] b := by
      simp [second]
    have given := served (by omega)
    have classified {kind : Kind} (known : classify se.hdr[0] b = some kind) :
        s.ServeGives k w { s with sessions := s.sessions.set k { stored with kind := some kind } } := by
      rwa [State.headerByte_classified second (pair.trans known), State.storeHeader_eq at_k, storedAt, State.mapSession,
        modify_eq_set _ (List.getElem?_set_self (List.getElem?_eq_some_iff.1 at_k).1), List.set_set] at given
    split_ifs with isGetinfo isSettck isShift
    · exact classified (by rw [classify, if_pos isGetinfo])
    · exact classified (by rw [classify, if_neg isGetinfo, if_pos isSettck])
    · exact classified (by rw [classify, if_neg isGetinfo, if_neg isSettck, if_pos isShift])
    · have unknown : classify se.hdr[0] b = none := by rw [classify, if_neg isGetinfo, if_neg isSettck, if_neg isShift]
      rwa [State.headerByte_unclassified second (pair.trans unknown), State.storeHeader_eq at_k, storedAt] at given

/-- Settles O32: the byte is stored, and the tail check closes the session exactly if the byte fails it. -/
theorem headerByteIsStoredOrFailsTheTail : Obligations.HeaderByteIsStoredOrFailsTheTail := by
  unfold Obligations.HeaderByteIsStoredOrFailsTheTail
  intro s k w se kind b rest inside free at_k phase hkind past header early plen rx t
  have stored : s.storeHeader k b rest se = t := by
    rw [State.storeHeader_eq at_k, Session.storeHeader, setIfInBounds_eq_set _ _ inside]
  have given := State.serveGives_headerByte free at_k phase (by rwa [hkind]) (fun _ => plen) rx w
  split
  · next differs =>
    have fails := (tailByteOk_eq_false_iff past).2 differs
    rwa [State.headerByte_failedTail hkind past differs.2.1 fails, stored] at given
  · next agrees =>
    have passes : tailByteOk s.cfg kind se.hlen b = true := by
      rw [← Bool.not_eq_false, tailByteOk_eq_false_iff past]
      exact agrees
    have known {kind' : Kind} (same : se.kind = some kind') : kind = kind' := Option.some.inj (hkind.symm.trans same)
    rwa [State.headerByte_stored (by omega) (fun last => early ⟨known last.1, last.2⟩) fun _ same => known same ▸ passes,
      stored] at given

end Sys2Proof.Machine
end

section
/-! The last header byte of a SHIFT: its count, and the two slots for its vectors (20_memory.md R67, R69; 40_commands.md
R115). -/

namespace Sys2Proof.Machine

section
variable {s : State} {k : Nat} {h : Vector Byte 11}

/-- Session `k` has the count `n` and has taken slot `a` for TMS. -/
def State.tookTms (k a : Nat) (n : Word) (s : State) : State :=
  (s.mapSlot a fun _ => vectorSlot k .tms []).mapSession k fun se => { se with n := n, tmsSlot := some a }

theorem State.tookTms_eq (s : State) (k a : Nat) (n : Word) :
    (((s.mapSession k fun se => { se with n := n }).mapSlot a fun _ => { owner := some (k, .tms), bytes := [] }).mapSession k
      fun se => { se with tmsSlot := some a }) = s.tookTms k a n := by
  simp only [State.tookTms, State.mapSession, State.mapSlot, List.modify_modify_eq]
  rfl

theorem State.LowestFree.mapSession {a : Nat} (lowest : s.LowestFree a) (f : Session → Session) :
    (s.mapSession k f).LowestFree a := ⟨lowest.free, lowest.least⟩

/-- The next free slot after `a` is the lowest once `a` is taken. -/
theorem State.LowestFree.tookTms {a d : Nat} {sa sd : Slot} (lt : a < d) (at_a : s.arena[a]? = some sa)
    (at_d : s.arena[d]? = some sd) (free : sd.owner = none)
    (owned : ∀ (x : Nat) (sx : Slot), x < d → x ≠ a → s.arena[x]? = some sx → sx.owner ≠ none) (n : Word) :
    (s.tookTms k a n).LowestFree d := by
  refine ⟨⟨sd, by simpa [State.tookTms, lt.ne] using at_d, free⟩, fun x sx below at_x => ?_⟩
  by_cases same : a = x
  · subst same
    obtain rfl : vectorSlot k .tms [] = sx := by simpa [State.tookTms, at_a] using at_x
    nofun
  · exact owned x sx below (Ne.symm same) (by simpa [State.tookTms, same] using at_x)

theorem State.withVectors_eq {a d : Nat} {sa sd : Slot} (ne : a ≠ d) (at_a : s.arena[a]? = some sa)
    (at_d : s.arena[d]? = some sd) (tms tdi : List Byte) :
    s.withVectors k a d tms tdi =
      { s with arena := (s.arena.set a (vectorSlot k .tms tms)).set d (vectorSlot k .tdi tdi) } := by
  have at_d' : (s.arena.set a (vectorSlot k .tms tms))[d]? = some sd := by rwa [List.getElem?_set_ne ne]
  rw [State.withVectors, State.mapSlot, State.mapSlot, modify_eq_set _ at_a, modify_eq_set _ at_d']

/-- A legal count that finds a slot for TMS only closes the session (R69, R115). -/
theorem State.validateCount_of_one (legal : countError s.cfg (countOf h) = none) {a : Nat} (tms : s.LowestFree a)
    (full : (s.tookTms k a (countOf h)).acquireSlot k .tdi = none) :
    s.validateCount k h = (s.tookTms k a (countOf h)).close k .noSlot := by
  simp only [State.validateCount, legal, (tms.mapSession _).acquireSlot, State.tookTms_eq, full]

/-- A legal count with two free slots takes the lowest and the one that is then the lowest (R67, R115). -/
theorem State.validateCount_of_two (legal : countError s.cfg (countOf h) = none) {a d : Nat} (tms : s.LowestFree a)
    (tdi : (s.tookTms k a (countOf h)).LowestFree d) :
    s.validateCount k h =
      (s.mapSession k fun se => { se with n := countOf h, tmsSlot := some a, tdiSlot := some d, plen := 0 }).withVectors
        k a d [] [] := by
  simp only [State.validateCount, legal, (tms.mapSession _).acquireSlot, State.tookTms_eq, tdi.acquireSlot]
  simp only [State.tookTms, State.withVectors, State.mapSession, State.mapSlot, List.modify_modify_eq]
  rfl

/-- No two slots of the arena are free. -/
def State.Scarce (s : State) : Prop :=
  ∀ (a d : Nat) (sa sd : Slot), a ≠ d → s.arena[a]? = some sa → s.arena[d]? = some sd → sa.owner ≠ none ∨ sd.owner ≠ none

/-- Where fewer than two slots are free, none is left after the one for TMS. -/
theorem State.Scarce.full_of_tookTms (scarce : s.Scarce) {a : Nat} (tms : s.LowestFree a) (n : Word) :
    (s.tookTms k a n).acquireSlot k .tdi = none := by
  refine (State.acquireSlot_eq_none _ _ _).2 fun sd mem => ?_
  obtain ⟨sa, at_a, free⟩ := tms.free
  obtain ⟨d, at_d⟩ := List.getElem?_of_mem mem
  rw [State.tookTms, State.mapSession_arena, State.mapSlot_arena, List.getElem?_modify, Option.map_eq_map] at at_d
  obtain ⟨sl, at_d', rfl⟩ := Option.map_eq_some_iff.1 at_d
  split
  · rfl
  · next other => exact Option.isSome_iff_ne_none.2 ((scarce a d sa sl other at_a at_d').resolve_left (absurd free))

theorem State.close_owner {se : Session} (at_k : s.sessions[k]? = some se) (code : CloseReason) (a : Nat) :
    ((s.close k code).arena[a]?).map Slot.owner =
      (s.arena[a]?).map fun sl => if se.holds a = true then none else sl.owner := by
  rw [State.close_arena, at_k, Option.map_map]
  congr 1
  funext sl
  simp only [Option.map_some, Option.some.injEq, Function.comp_apply]
  split <;> rfl

/-- With fewer than two free slots a legal count closes the session, and a slot it took first is free again (R69). -/
theorem State.validateCount_of_scarce {se : Session} (at_k : s.sessions[k]? = some se)
    (unheld : se.slots = (none, none, none)) (legal : countError s.cfg (countOf h) = none) (scarce : s.Scarce) :
    (s.validateCount k h).sessions = s.sessions.set k (Session.closed .noSlot { se with n := countOf h }) ∧
      ∀ a : Nat, ((s.validateCount k h).arena[a]?).map Slot.owner = (s.arena[a]?).map Slot.owner := by
  obtain ⟨tms, tdi, tdo⟩ : se.tmsSlot = none ∧ se.tdiSlot = none ∧ se.tdoSlot = none := by
    simpa [Session.slots] using unheld
  cases taken : (s.mapSession k fun se => { se with n := countOf h }).acquireSlot k .tms with
  | none =>
    have validated : s.validateCount k h = (s.mapSession k fun se => { se with n := countOf h }).close k .noSlot := by
      simp only [State.validateCount, legal, taken]
    rw [validated]
    refine ⟨?_, fun a => ?_⟩
    · rw [State.close_sessions, State.mapSession_sessions, List.modify_modify_eq, modify_eq_set _ at_k]
      rfl
    · rw [State.close_owner (se := { se with n := countOf h }) (by simp [at_k])]
      simp [Session.holds, tms, tdi, tdo]
  | some first =>
    obtain ⟨a, s2⟩ := first
    obtain ⟨⟨sl, at_a, free⟩, least, -⟩ := (State.acquireSlot_eq_some _ _ _ _ _).1 taken
    have lowest : s.LowestFree a := .of_isSome at_a free least
    rw [State.validateCount_of_one legal lowest (scarce.full_of_tookTms lowest _)]
    refine ⟨?_, fun x => ?_⟩
    · rw [State.close_sessions, State.tookTms, State.mapSession_sessions, List.modify_modify_eq, State.mapSlot_sessions,
        modify_eq_set _ at_k]
      rfl
    · rw [State.close_owner (se := { se with n := countOf h, tmsSlot := some a }) (by simp [State.tookTms, at_k])]
      by_cases same : a = x
      · subst same
        simp [Session.holds, State.tookTms, show s.arena[a]? = some sl from at_a, free]
      · simp [Session.holds, State.tookTms, same, tdi, tdo]

end

/-- Settles O33: the count is judged first, then the slots are taken in order, or the first is given back. -/
theorem ninthByteValidatesTheCount : Obligations.NinthByteValidatesTheCount := by
  unfold Obligations.NinthByteValidatesTheCount
  intro s k w se b rest free at_k phase shift ninth plen tms tdi tdo rx n stored s0
  have storedAt : se.storeHeader b rest = stored := by
    simp only [Session.storeHeader, ninth, setIfInBounds_eq_set _ _ (show 9 < 11 by decide), stored]
  have count : countOf (se.hdr.setIfInBounds 9 b) = n := by simp [countOf, n]
  have given := State.serveGives_headerByte free at_k phase (by simp [shift, ninth, hdrLen, Kind.hdrLen]) (fun _ => plen) rx w
  rw [State.headerByte_counted shift ninth, State.storeHeader_eq at_k, storedAt, ninth] at given
  change s.ServeGives k w (s0.validateCount k _) at given
  have at_k0 : s0.sessions[k]? = some stored := List.getElem?_set_self (List.getElem?_eq_some_iff.1 at_k).1
  have legal (least : 1 ≤ n.toNat) (most : n.toNat ≤ s.cfg.maxBits) :
      countError s0.cfg (countOf (se.hdr.setIfInBounds 9 b)) = none := by
    rw [count]
    exact countError_eq_none.2 ⟨least, most⟩
  refine ⟨fun zero => ?_, fun tooLong notZero => ?_, fun least most => ⟨?_, ?_⟩⟩
  · have illegal : countError s0.cfg n = some .lenZero := if_pos zero
    simpa only [State.validateCount, count, illegal] using given
  · have illegal : countError s0.cfg n = some .lenOver := by rw [countError, if_neg notZero]; exact if_pos tooLong
    simpa only [State.validateCount, count, illegal] using given
  · intro a d sa sd lt at_a freeA at_d freeD owned
    have lowest : s0.LowestFree a :=
      ⟨⟨sa, at_a, freeA⟩, fun x sx below at_x => owned x sx (below.trans lt) below.ne at_x⟩
    have next : (s0.tookTms k a n).LowestFree d := State.LowestFree.tookTms (s := s0) lt at_a at_d freeD owned n
    rw [State.validateCount_of_two (legal least most) lowest (by rwa [count]), count] at given
    refine (congrArg (s.ServeGives k w) ?_).mp given
    rw [State.withVectors_eq (s := s0.mapSession k _) lt.ne at_a at_d, State.mapSession, modify_eq_set _ at_k0, List.set_set]
    rfl
  · intro scarce
    obtain ⟨sessions, owners⟩ := State.validateCount_of_scarce (h := se.hdr.setIfInBounds 9 b) at_k0
      (by simp [Session.slots, stored, tms, tdi, tdo]) (legal least most) scarce
    obtain ⟨t, performed, latched⟩ := given
    have same := OnlyStorage.validateCount s0 k (se.hdr.setIfInBounds 9 b)
    have written : t.sessions = _ := (congrArg State.sessions latched).trans sessions
    refine ⟨t, performed, (congrArg State.g latched).trans same.g, ?_,
      fun a => (congrArg (fun u : State => (u.arena[a]?).map Slot.owner) latched).trans (owners a)⟩
    rw [written, List.getElem?_set_self (List.getElem?_eq_some_iff.1 at_k0).1, count]
    simp [Session.closed, stored, plen, tms, tdi, tdo]

end Sys2Proof.Machine
end

section
/-! A payload byte of a SHIFT: where it goes, and that nothing else changes (20_memory.md R66; 40_commands.md R117). -/

namespace Sys2Proof.Machine

/-- Where the next payload byte goes: into slot `t` (TMS) below `B`, into slot `d` (TDI) from `B` on (R117). -/
def Session.payloadPlace (t d : Nat) (se : Session) : Nat × Nat :=
  if se.plen < vectorBytes se.n then (t, se.plen) else (d, se.plen - vectorBytes se.n)

theorem Session.eq_payloadPlace_iff {t d a off : Nat} {se : Session} :
    (a, off) = se.payloadPlace t d ↔
      (se.plen < vectorBytes se.n ∧ a = t ∧ off = se.plen) ∨
        (vectorBytes se.n ≤ se.plen ∧ a = d ∧ off = se.plen - vectorBytes se.n) := by
  unfold Session.payloadPlace
  split
  · next first => simp [first, Nat.not_le.2 first]
  · next second => simp [second, Nat.le_of_not_lt second]

/-- `PLEN` below `2B`: the place is inside the slot. -/
theorem Session.payloadPlace_inside {c : Config} {se : Session} (t d : Nat) (room : se.plen < 2 * vectorBytes se.n)
    (fits : vectorBytes se.n ≤ c.slotBytes) : (se.payloadPlace t d).2 + 1 ≤ c.slotBytes := by
  unfold Session.payloadPlace
  split
  · next first => exact Nat.le_trans first fits
  · next second => dsimp only; omega

/-- A SHIFT whose payload is not all there is incomplete (R111). -/
theorem Session.incomplete_of_payload {se : Session} (shift : se.kind = some .shift) (hlen : se.hlen = 10)
    (room : se.plen < 2 * vectorBytes se.n) : se.complete = false := by
  rw [← Bool.not_eq_true, Session.complete_iff]
  rintro ⟨-, whole⟩
  simp only [Session.need, shift, hlen, Nat.lt_irrefl, if_false] at whole
  omega

section
variable {s : State} {k t d : Nat} {se : Session} {b : Byte}

theorem State.payloadByte_eq (ht : se.tmsSlot = some t) (hd : se.tdiSlot = some d) :
    s.payloadByte k b se =
      andThen (s.memWrite (se.payloadPlace t d).1 (se.payloadPlace t d).2 b)
        fun s => .next (s.mapSession k fun se => { se with plen := se.plen + 1 }) := by
  rw [State.payloadByte_of_slots ht hd, Session.payloadPlace]
  split <;> rfl

/-- The served payload byte, written where it belongs (R117). -/
theorem State.perform_serve_payload {w : WriteOutcome} {rest : List Byte} {sl : Slot} (free : s.loopFree = true)
    (at_k : s.sessions[k]? = some se) (phase : se.phase = .awaitingCommand) (shift : se.kind = some .shift)
    (hlen : se.hlen = 10) (room : se.plen < 2 * vectorBytes se.n) (fits : vectorBytes se.n ≤ s.cfg.slotBytes)
    (ht : se.tmsSlot = some t) (hd : se.tdiSlot = some d) (place : s.arena[(se.payloadPlace t d).1]? = some sl)
    (owned : sl.owner.isSome = true) (rx : se.rx = b :: rest) :
    s.perform (.serve k w) =
      .next (((s.latch (.serve k w)).mapSlot (se.payloadPlace t d).1 fun sl =>
        { sl with bytes := sl.bytes.write (se.payloadPlace t d).2 b }).mapSession k fun x =>
          { x with rx := rest, plen := x.plen + 1 }) := by
  have serves : (s.latch (.serve k w)).Serves k w := ⟨rfl, rfl, free⟩
  have past : ¬se.hlen < hdrLen se.kind := by simp [shift, hlen, hdrLen, Kind.hdrLen]
  have written := (State.memWrite_eq_next ((s.latch (.serve k w)).mapSession k fun x => { x with rx := rest }) _
    (se.payloadPlace t d).1 (se.payloadPlace t d).2 b).2
    ⟨⟨sl, place, Session.payloadPlace_inside t d room fits, owned⟩, rfl⟩
  refine (State.perform_serve_byte serves at_k phase (Session.incomplete_of_payload shift hlen room) rx).trans ?_
  rw [State.decodeByte_payload (s := s.latch (.serve k w)) at_k rx past, State.payloadByte_eq ht hd, written, andThen_next]
  simp only [State.mapSession, State.mapSlot, List.modify_modify_eq]
  rfl

/-- A byte written into a slot: the owners stay, and of the bytes only that one changes (R66). -/
theorem State.mapSlot_write_slot (canonical : s.MemoryCanonical) (place : Nat × Nat) (b : Byte) {a : Nat} {sa : Slot}
    (at_a : s.arena[a]? = some sa) :
    ∃ sa' : Slot, (s.mapSlot place.1 fun sl => { sl with bytes := sl.bytes.write place.2 b }).arena[a]? = some sa' ∧
      sa'.owner = sa.owner ∧
      ∀ o, Memory.read sa'.bytes o = if (a, o) = place then b else Memory.read sa.bytes o := by
  obtain ⟨wf, -⟩ := canonical sa (List.mem_of_getElem? at_a)
  obtain ⟨x, off⟩ := place
  by_cases same : x = a
  · subst same
    exact ⟨{ sa with bytes := sa.bytes.write off b }, by simp [at_a], rfl, fun o => by simp [Memory.read_write _ _ _ _ wf]⟩
  · exact ⟨sa, by simp [same, at_a], rfl, fun o => by simp [Ne.symm same]⟩

end

/-- Settles O34: the byte's place is the one the two clauses name, and the write changes no other byte. -/
theorem payloadByteIsStored : Obligations.PayloadByteIsStored := by
  unfold Obligations.PayloadByteIsStored
  intro s k t d w se st sd b rest free at_k phase shift hlen room fits ht hd at_t ownedT at_d ownedD rx
  obtain ⟨sl, place, owned⟩ : ∃ sl, s.arena[(se.payloadPlace t d).1]? = some sl ∧ sl.owner.isSome = true := by
    unfold Session.payloadPlace
    split
    · exact ⟨st, at_t, Option.isSome_iff_ne_none.2 ownedT⟩
    · exact ⟨sd, at_d, Option.isSome_iff_ne_none.2 ownedD⟩
  refine ⟨_, State.perform_serve_payload free at_k phase shift hlen room fits ht hd place owned rx,
    modify_eq_set _ at_k, rfl, rfl, rfl, rfl, rfl, fun canonical a sa at_a => ?_⟩
  obtain ⟨sa', at_a', owner, bytes⟩ :=
    State.mapSlot_write_slot canonical (se.payloadPlace t d) b at_a
  exact ⟨sa', at_a', owner, fun off => by simpa only [Session.eq_payloadPlace_iff] using bytes off⟩

end Sys2Proof.Machine
end

section
/-! `ClampDiv` is the upward-rounded quotient, clamped (41_shift_engine.md R160). -/

namespace Sys2Proof.Machine

theorem ceilDiv_le_iff {a b c : Nat} (positive : 0 < b) : ceilDiv a b ≤ c ↔ a ≤ c * b := by
  rw [ceilDiv, ← Nat.ceilDiv_eq_add_pred_div, ceilDiv_le_iff_le_mul positive, Nat.mul_comm]

/-- Settles O16: where the clamp does not bind, `ClampDiv` is the least divisor that is long enough. -/
theorem clampDivIsLegalAndRoundsUp : Obligations.ClampDivIsLegalAndRoundsUp := by
  unfold Obligations.ClampDivIsLegalAndRoundsUp
  intro c p valid
  obtain ⟨least, most⟩ := clampDiv_admitted valid p
  obtain ⟨-, -, -, -, -, cycles, -, one, -, -⟩ := (Config.valid_iff c).1 valid
  have positive : 0 < 1000000000 * c.cyclesPerTck := by omega
  have clamped : clampDiv c p =
      min c.divMax (max c.divMin (ceilDiv (p.toNat * c.sysClkHz) (1000000000 * c.cyclesPerTck))) := rfl
  refine ⟨least, most, ?_, ?_⟩
  · rw [← ceilDiv_le_iff positive]
    omega
  · rw [← not_le, ← ceilDiv_le_iff positive]
    omega

end Sys2Proof.Machine
end

section
/-! Safety of the engine's registers, read off the ways one input can change them: lock step, the idle hardware of the
software variant, and where edges come from (41_shift_engine.md R144, R151, R154, R159, R165). -/

namespace Sys2Proof.Machine

/-- Settles O48: every effect of an input keeps the machines in lock step. -/
theorem machinesStayInLockStep : Obligations.MachinesStayInLockStep := by
  unfold Obligations.MachinesStayInLockStep
  intro s t lock stepped
  obtain ⟨-, effect⟩ := step_effect stepped
  obtain ⟨-, -, -, -, same, -⟩ := s.latched_frame s.nextInput
  refine effect.registers.lockStep ?_
  rwa [State.LockStep, same]

/-- The software variant draws neither the fault nor the hang (R165). -/
theorem State.faultPossible_of_sw {s : State} (sw : s.g.engine = .sw) : s.faultPossible = false := by
  simp [State.faultPossible, sw]

/-- On the software variant only the bit index moves: every effect on another register asks for the hardware engine, or for
a received word (R165). -/
theorem RegisterEffect.softwareIdle {s t : State} {i : Input} (h : RegisterEffect s t i) (idle : s.SoftwareIdle) :
    t.SoftwareIdle := by
  intro sw
  have was (same : t.g.engine = s.g.engine) : s.g.engine = .sw := same.symm.trans sw
  have hcfg := h.cfg_eq
  rw [hcfg]
  cases h with
  | reset x state => rw [state]; rfl
  | same _ _ g e | divisor _ _ _ _ _ _ _ g e | swEnd _ _ _ _ _ g e => rw [e]; exact idle (was (by rw [g]))
  | swStart _ _ _ _ kind _ _ e => rw [e, idle kind]
  | swBitStep _ _ _ _ _ _ _ g e => rw [e, idle (was (by rw [g]))]
  | hwStart _ _ _ _ _ kind _ g => simp [was (by rw [g])] at kind
  | fault _ _ _ _ _ _ possible _ _ _ g =>
    simp [State.faultPossible_of_sw (was (by rw [g, Globals.faulted]))] at possible
  | hang possible _ g => simp [State.faultPossible_of_sw (was (by rw [g]))] at possible
  | drain _ _ _ _ queue _ g =>
    rw [idle (was (by rw [g]))] at queue
    simp [Engine.reset] at queue
  | feed _ _ _ _ _ enabled _ g => simp [State.feedEnabled, was (by rw [g])] at enabled
  | bitStep _ _ enabled _ g => simp [State.bitStepEnabled, was (by rw [g])] at enabled
  | rxPush _ _ enabled _ g => simp [State.rxPushEnabled, was (by rw [g])] at enabled
  | hwEnd _ _ _ enabled _ g => simp [State.hwEndEnabled, was (by rw [g])] at enabled

/-- Settles O44: neither the fault nor the hang is possible, and every effect keeps the hardware's registers. -/
theorem softwareVariantLeavesTheHardwareIdle : Obligations.SoftwareVariantLeavesTheHardwareIdle := by
  unfold Obligations.SoftwareVariantLeavesTheHardwareIdle
  constructor
  · intro s tck tms tdi x sw
    simp [State.perform, State.drawFault, State.hang, State.faultPossible_of_sw sw]
  · intro s t idle stepped
    obtain ⟨-, effect⟩ := step_effect stepped
    obtain ⟨cfg, g, -, -, e, -⟩ := s.latched_frame s.nextInput
    refine effect.registers.softwareIdle ?_
    rwa [State.SoftwareIdle, cfg, g, e]

/-- Where the pins and the target can come from: one edge drives the pins to its own bits and steps the target (R144, R159). -/
theorem RegisterEffect.pins_cases {s t : State} {i : Input} (h : RegisterEffect s t i) :
    (t.p = s.p ∧ (t.target = s.target ∨ ∃ x, i = .targetMoves x)) ∨
    (∃ tck tms tdi x, i = .hwFault tck tms tdi x ∧ t.p.driven = s.p.driven) ∨ (∃ x, i = .blockReset x) ∨
    (∃ w, (i = .engine .bitStep w ∨ i = .engine .swBitStep w) ∧ s.g.busy = true ∧
      t.p = { tck := false, tms := t.p.tms, tdi := t.p.tdi, driven := s.p.driven ++ [(t.p.tms, t.p.tdi)] } ∧
      t.target = targetNext s.cfg s.target t.p.tms t.p.tdi) := by
  cases h with
  | same _ _ _ _ p target => exact .inl ⟨p, target⟩
  | divisor _ _ _ _ _ _ _ _ _ p target | hwStart _ _ _ _ _ _ _ _ _ p target | swStart _ _ _ _ _ _ _ _ p target
  | hang _ _ _ _ p target | feed _ _ _ _ _ _ _ _ _ p target | drain _ _ _ _ _ _ _ _ p target
  | rxPush _ _ _ _ _ _ p target | hwEnd _ _ _ _ _ _ _ p target | swEnd _ _ _ _ _ _ _ p target =>
    exact .inl ⟨p, .inl target⟩
  | fault tck tms tdi x _ _ _ _ _ _ _ _ p => exact .inr (.inl ⟨tck, tms, tdi, x, rfl, by rw [p]⟩)
  | reset x => exact .inr (.inr (.inl ⟨x, rfl⟩))
  | bitStep w answers _ _ _ _ p target =>
    refine .inr (.inr (.inr ⟨w, .inl rfl, ((State.engineAnswers_iff s).1 answers).1, ?_⟩))
    rw [p, target]
    exact ⟨rfl, rfl⟩
  | swBitStep w _ tms tdi answers _ _ _ _ p target =>
    refine .inr (.inr (.inr ⟨w, .inr rfl, ((State.engineAnswers_iff s).1 answers).1, ?_⟩))
    rw [p, target]
    exact ⟨rfl, rfl⟩

/-- Settles O54: the latch moves no pin, so the cases are those of the input's effect. -/
theorem edgesOnlyFromBitSteps : Obligations.EdgesOnlyFromBitSteps := by
  unfold Obligations.EdgesOnlyFromBitSteps
  intro s t i performed
  obtain ⟨cfg, g, -, -, -, p, target, -⟩ := s.latch_frame i
  have cases := (State.perform_effect performed).registers.pins_cases
  rw [cfg, g, p, target] at cases
  exact cases.imp_left fun ⟨pins, moved⟩ => ⟨pins, moved.imp_right fun ⟨x, at_x⟩ => ⟨x, .inl at_x⟩⟩

end Sys2Proof.Machine
end

section
/-! After the hang (41_shift_engine.md R166; 42_session.md R204): no step of the block is enabled, and what the environment
still does reaches only RX, EOF and the lost connection. -/

namespace Sys2Proof.Machine

theorem State.stuck_iff (s : State) : s.stuck = true ↔ s.g.busy = true ∧ s.e.hung = true := by
  simp [State.stuck]

/-- `t` is `s` but for what the sessions' connections have brought. -/
structure State.OnlyReceives (s t : State) : Prop where
  g : t.g = s.g
  e : t.e = s.e
  p : t.p = s.p
  target : t.target = s.target
  arena : t.arena = s.arena
  tx : t.sessions.map Session.tx = s.sessions.map Session.tx
  phase : t.sessions.map Session.phase = s.sessions.map Session.phase

theorem map_modify_of_keep {α β : Type} {g : α → β} {f : α → α} (keep : ∀ x, g (f x) = g x) (l : List α) (k : Nat) :
    (l.modify k f).map g = l.map g := by
  apply List.ext_getElem?
  intro j
  by_cases same : k = j <;> simp [same, Function.comp_def, keep]

theorem State.OnlyReceives.mapSession (s : State) (k : Nat) {f : Session → Session}
    (keep : ∀ se, (f se).tx = se.tx ∧ (f se).phase = se.phase) : s.OnlyReceives (s.mapSession k f) :=
  ⟨rfl, rfl, rfl, rfl, rfl, map_modify_of_keep (fun se => (keep se).1) _ k, map_modify_of_keep (fun se => (keep se).2) _ k⟩

/-- Whatever can still happen to a stuck block but for block reset (R166, R204). -/
theorem Effect.onlyReceives {s t : State} {i : Input} (h : Effect i s t) (stuck : s.stuck = true)
    (notReset : ∀ x, i ≠ .blockReset x) : s.OnlyReceives t := by
  obtain ⟨busy, hung⟩ := s.stuck_iff.1 stuck
  have notFree : ¬s.loopFree = true := by simp [State.loopFree, busy]
  have noAnswer : ¬s.engineAnswers = true := by simp [State.engineAnswers, hung]
  have noFault : ¬s.faultPossible = true := by simp [State.faultPossible, noAnswer]
  cases h with
  | nothing => exact ⟨rfl, rfl, rfl, rfl, rfl, rfl, rfl⟩
  | arrived | ended => exact .mapSession s _ fun se => by constructor <;> split <;> rfl
  | lost => exact .mapSession s _ fun se => ⟨rfl, rfl⟩
  | reset _ x => exact absurd rfl (notReset x)
  | peerClosed _ _ _ _ _ idle | expired _ _ _ _ _ idle | moved _ _ idle => simp [busy] at idle
  | faulted _ _ _ _ _ _ possible | hung _ possible => exact absurd possible noFault
  | engine _ _ _ _ _ _ answers => exact absurd answers noAnswer
  | accepted _ _ _ free | started _ _ _ _ free | executed _ _ _ _ _ _ free | decoded _ _ _ _ _ free
  | streamEnded _ _ _ _ free =>
    exact absurd free notFree

/-- Settles O45. -/
theorem stuckUntilReset : Obligations.StuckUntilReset := by
  unfold Obligations.StuckUntilReset
  intro s t i stuck notReset performed
  obtain ⟨-, sameG, sameSessions, sameArena, sameE, sameP, sameTarget, -⟩ := s.latch_frame i
  have latched : (s.latch i).stuck = true := by rw [State.stuck, sameG, sameE]; exact stuck
  obtain ⟨g, e, p, target, arena, tx, phase⟩ := (State.perform_effect performed).onlyReceives latched notReset
  exact ⟨by rwa [State.stuck, g, e], g.trans sameG, e.trans sameE, p.trans sameP, target.trans sameTarget,
    arena.trans sameArena, by rw [tx, sameSessions], by rw [phase, sameSessions]⟩

end Sys2Proof.Machine
end

section
/-! Bits of bytes and engine words: a vector as a stream of words, and words back as reply bytes (20_memory.md R62, R71, R72;
41_shift_engine.md R146, R150). -/

namespace Sys2Proof.Machine

/-- Word `w` of a stream of bits, least significant bit first (R72, R150). -/
def streamWord (bit : Nat → Bool) (w : Nat) : Word := BitVec.ofFnLE fun j : Fin 32 => bit (32 * w + j.val)

/-- Words `a`, .., `b - 1` of a stream. -/
def streamWords (bit : Nat → Bool) (a b : Nat) : List Word := (List.range' a (b - a)).map (streamWord bit)

/-- The first `n` bits of a stream, then zeros. -/
def upTo (n : Nat) (bit : Nat → Bool) (i : Nat) : Bool := decide (i < n) && bit i

theorem getLsbD_streamWord (bit : Nat → Bool) (w j : Nat) :
    (streamWord bit w).getLsbD j = (decide (j < 32) && bit (32 * w + j)) := by
  by_cases inside : j < 32 <;> simp [streamWord, BitVec.getLsbD_ofFnLE, inside]

theorem streamWord_congr {bit bit' : Nat → Bool} {w : Nat} (same : ∀ j, j < 32 → bit (32 * w + j) = bit' (32 * w + j)) :
    streamWord bit w = streamWord bit' w := by
  refine BitVec.eq_of_getLsbD_eq fun j inside => ?_
  rw [getLsbD_streamWord, getLsbD_streamWord, same j inside]

/-! ## Queues of words -/

@[simp] theorem length_streamWords (bit : Nat → Bool) (a b : Nat) : (streamWords bit a b).length = b - a := by
  simp [streamWords]

theorem streamWords_self (bit : Nat → Bool) (a : Nat) : streamWords bit a a = [] := by simp [streamWords]

theorem streamWords_append (bit : Nat → Bool) {a b : Nat} (le : a ≤ b) :
    streamWords bit a b ++ [streamWord bit b] = streamWords bit a (b + 1) := by
  rw [streamWords, streamWords, show b + 1 - a = b - a + 1 by omega, List.range'_1_concat, List.map_append,
    show a + (b - a) = b by omega]
  rfl

theorem streamWords_eq_cons {bit : Nat → Bool} {a b : Nat} {w : Word} {q : List Word} (words : streamWords bit a b = w :: q) :
    w = streamWord bit a ∧ q = streamWords bit (a + 1) b := by
  have lt : a < b := by
    have count := congrArg List.length words
    rw [length_streamWords, List.length_cons] at count
    omega
  rw [streamWords, show b - a = b - (a + 1) + 1 by omega, List.range'_succ, List.map_cons] at words
  obtain ⟨head, tail⟩ := List.cons.inj words
  exact ⟨head.symm, tail.symm⟩

/-! ## Bytes to words -/

theorem getLsbD_operandAt_zero (bs : List Byte) {j : Nat} (inside : j < 32) : (operandAt bs 0).getLsbD j = vecBit bs j := by
  simp only [operandAt, le32, vecBit, BitVec.getLsbD_append]
  split_ifs
  · rw [show j / 8 = 0 by omega, show j % 8 = j by omega]
  · rw [show j / 8 = 0 + 1 by omega, show j % 8 = j - 8 by omega]
  · rw [show j / 8 = 0 + 2 by omega, show j % 8 = j - (8 + 8) by omega]
  · rw [show j / 8 = 0 + 3 by omega, show j % 8 = j - (8 + (8 + 8)) by omega]

theorem Memory.readRange_getD_of_le (m : Memory) {off n j : Nat} (past : n ≤ j) : (m.readRange off n).getD j 0 = 0 := by
  rw [List.getD_eq_default _ _ (by simpa using past)]

/-- An engine word read from a slot is that word of the vector in it, zeros past the vector's end (R72, R150). -/
theorem operandAt_readRange (m : Memory) (size w : Nat) :
    operandAt (m.readRange (4 * w) (min 4 (size - 4 * w))) 0 = streamWord (vecBit (m.readRange 0 size)) w := by
  refine BitVec.eq_of_getLsbD_eq fun j inside => ?_
  rw [getLsbD_operandAt_zero _ inside, getLsbD_streamWord, decide_eq_true inside, Bool.true_and, vecBit, vecBit,
    show (32 * w + j) / 8 = 4 * w + j / 8 by omega, show (32 * w + j) % 8 = j % 8 by omega]
  by_cases within : 4 * w + j / 8 < size
  · rw [Memory.readRange_getD _ _ _ _ (by omega), Memory.readRange_getD _ _ _ _ within, Nat.zero_add]
  · rw [Memory.readRange_getD_of_le _ (by omega), Memory.readRange_getD_of_le _ (by omega)]

/-- One bit of a vector read through its byte alone (R62). -/
theorem vecBit_readRange_one (m : Memory) {size i : Nat} (within : i / 8 < size) :
    vecBit (m.readRange (i / 8) 1) (i % 8) = vecBit (m.readRange 0 size) i := by
  rw [vecBit, vecBit, show i % 8 / 8 = 0 by omega, Memory.readRange_getD _ _ _ _ one_pos, Memory.readRange_getD _ _ _ _ within,
    Nat.zero_add, Nat.add_zero, Nat.mod_mod]

/-! ## Words and bits to reply bytes -/

theorem getLsbD_packByte (bit : Nat → Bool) (n j k : Nat) :
    (packByte bit n j).getLsbD k = (decide (k < 8) && upTo n bit (8 * j + k)) := by
  by_cases inside : k < 8 <;> simp [packByte, BitVec.getLsbD_ofFnLE, inside, upTo]

/-- The bytes of a received word are bytes of the reply (20_memory.md R72, 41_shift_engine.md R153). -/
theorem le32Bytes_streamWord (bit : Nat → Bool) (n w : Nat) {r : Nat} (inside : r < 4) :
    (le32Bytes (streamWord (upTo n bit) w)).getD r 0 = packByte bit n (4 * w + r) := by
  have byte : (le32Bytes (streamWord (upTo n bit) w)).getD r 0 = (streamWord (upTo n bit) w).extractLsb' (8 * r) 8 := by
    match r, inside with
    | 0, _ | 1, _ | 2, _ | 3, _ => rfl
  rw [byte]
  refine BitVec.eq_of_getLsbD_eq fun k low => ?_
  rw [BitVec.getLsbD_extractLsb', getLsbD_streamWord, getLsbD_packByte, decide_eq_true (show 8 * r + k < 32 by omega),
    Bool.true_and, show 32 * w + (8 * r + k) = 8 * (4 * w + r) + k by omega]

theorem getLsbD_setBit {w : Nat} (v : BitVec w) (i : Nat) (b : Bool) {j : Nat} (inside : j < w) :
    (setBit v i b).getLsbD j = if j = i then b else v.getLsbD j := by
  have mask : (1#w <<< i).getLsbD j = decide (j = i) := by
    simp only [BitVec.getLsbD_shiftLeft, BitVec.getLsbD_one, inside, decide_true, Bool.true_and]
    by_cases same : j = i
    · simp [same, show 0 < w by omega]
    · rcases Nat.lt_or_ge j i with below | above
      · simp [below, same]
      · simp [show ¬j - i = 0 by omega, same]
  have set : (if b then 1#w <<< i else 0#w).getLsbD j = (b && decide (j = i)) := by
    cases b <;> simp [mask]
  rw [setBit, BitVec.getLsbD_or, BitVec.getLsbD_and, BitVec.getLsbD_not, mask, set]
  by_cases same : j = i <;> simp [same, inside]

/-- Bit `i` joins the first `i` bits of a word. -/
theorem setBit_streamWord (bit : Nat → Bool) {i w : Nat} (low : 32 * w ≤ i) (high : i < 32 * w + 32) :
    setBit (streamWord (upTo i bit) w) (i - 32 * w) (bit i) = streamWord (upTo (i + 1) bit) w := by
  refine BitVec.eq_of_getLsbD_eq fun j inside => ?_
  rw [getLsbD_setBit _ _ _ inside, getLsbD_streamWord, getLsbD_streamWord]
  by_cases same : j = i - 32 * w
  · rw [if_pos same, show 32 * w + j = i by omega]
    simp [upTo, inside]
  · rw [if_neg same, upTo, upTo, decide_eq_decide.2 (show 32 * w + j < i ↔ 32 * w + j < i + 1 by omega)]

/-- Bit `i` joins the first `i` bits of its byte, and reaches no other byte (41_shift_engine.md R163). -/
theorem setBit_packByte (bit : Nat → Bool) (i j : Nat) :
    packByte bit (i + 1) j = if j = i / 8 then setBit (packByte bit i (i / 8)) (i % 8) (bit i) else packByte bit i j := by
  refine BitVec.eq_of_getLsbD_eq fun k inside => ?_
  rw [getLsbD_packByte]
  by_cases here : j = i / 8
  · rw [if_pos here, getLsbD_setBit _ _ _ inside, getLsbD_packByte, here]
    by_cases same : k = i % 8
    · rw [if_pos same, show 8 * (i / 8) + k = i by omega]
      simp [upTo, inside]
    · rw [if_neg same, upTo, upTo,
        decide_eq_decide.2 (show 8 * (i / 8) + k < i + 1 ↔ 8 * (i / 8) + k < i by omega)]
  · rw [if_neg here, getLsbD_packByte, upTo, upTo,
      decide_eq_decide.2 (show 8 * j + k < i + 1 ↔ 8 * j + k < i by omega)]

theorem packByte_zero (bit : Nat → Bool) (j : Nat) : packByte bit 0 j = 0 := by
  refine BitVec.eq_of_getLsbD_eq fun k _ => ?_
  simp [getLsbD_packByte, upTo]

end Sys2Proof.Machine
end

section
/-! The hardware engine's registers during a transfer (41_shift_engine.md R148-R157): where in the two vectors the output
registers and queues stand, what the input register and queue hold, and that every step of the engine keeps that. -/

namespace Sys2Proof.Machine

/-! ## One output side -/

/-- A machine's output: its shift register, the bits left in it, and the queue behind it (R42, R43). -/
structure OutLane where
  osr : Word
  left : Nat
  queue : List Word

/-- Pull a word into an empty shift register (R154). -/
def OutLane.pull (l : OutLane) : OutLane :=
  if l.left = 0 then
    match l.queue with
    | [] => l
    | w :: q => ⟨w, 32, q⟩
  else l

/-- One bit out, LSB first (R154). -/
def OutLane.shift (l : OutLane) : OutLane := ⟨l.osr >>> 1, l.left - 1, l.queue⟩

/-- A word joins the queue (R152). -/
def OutLane.push (w : Word) (l : OutLane) : OutLane := ⟨l.osr, l.left, l.queue ++ [w]⟩

def Engine.laneA (e : Engine) : OutLane := ⟨e.osrA, e.osrcA, e.txfA⟩

def Engine.laneB (e : Engine) : OutLane := ⟨e.osrB, e.osrcB, e.txfB⟩

/-- The pulls of a bit step, by lane. -/
theorem Engine.pull_eq (e : Engine) :
    e.pullA.pullB =
      { e with
        osrA := e.laneA.pull.osr, osrcA := e.laneA.pull.left, txfA := e.laneA.pull.queue
        osrB := e.laneB.pull.osr, osrcB := e.laneB.pull.left, txfB := e.laneB.pull.queue } := by
  have pullA : e.pullA =
      { e with osrA := e.laneA.pull.osr, osrcA := e.laneA.pull.left, txfA := e.laneA.pull.queue } := by
    cases e
    simp only [Engine.pullA, OutLane.pull, Engine.laneA]
    split
    · split <;> simp_all
    · simp_all
  have pullB (e : Engine) : e.pullB =
      { e with osrB := e.laneB.pull.osr, osrcB := e.laneB.pull.left, txfB := e.laneB.pull.queue } := by
    cases e
    simp only [Engine.pullB, OutLane.pull, Engine.laneB]
    split
    · split <;> simp_all
    · simp_all
  rw [pullA, pullB]
  rfl

/-- The lane stands at bit `i` of a stream of which `fed` words have been pushed: the shift register has what is left of the
word of bit `i`, and the queue the words after it. -/
structure OutLane.Streams (bit : Nat → Bool) (i fed : Nat) (l : OutLane) : Prop where
  left : l.left = 32 * ceilDiv i 32 - i
  osr : ∀ j, j < l.left → l.osr.getLsbD j = bit (i + j)
  queue : l.queue = streamWords bit (ceilDiv i 32) fed
  pulled : ceilDiv i 32 ≤ fed

theorem OutLane.Streams.empty (bit : Nat → Bool) (osr : Word) : (OutLane.mk osr 0 []).Streams bit 0 0 :=
  ⟨rfl, nofun, rfl, le_rfl⟩

theorem OutLane.Streams.push {bit : Nat → Bool} {i fed : Nat} {l : OutLane} (streams : l.Streams bit i fed) :
    (l.push (streamWord bit fed)).Streams bit i (fed + 1) where
  left := streams.left
  osr := streams.osr
  queue := by rw [OutLane.push, streams.queue, streamWords_append bit streams.pulled]
  pulled := streams.pulled.trans (Nat.le_succ fed)

/-- A lane with a bit to give gives bit `i`, and then stands at the next. -/
theorem OutLane.Streams.bit {bit : Nat → Bool} {i fed : Nat} {l : OutLane} (streams : l.Streams bit i fed)
    (ready : 0 < l.left ∨ l.queue ≠ []) :
    l.pull.osr.getLsbD 0 = bit i ∧ l.pull.shift.Streams bit (i + 1) fed := by
  obtain ⟨left, osr, queue, pulled⟩ := streams
  simp only [ceilDiv] at left queue pulled
  by_cases empty : l.left = 0
  · have queued := ready.resolve_left (by omega)
    obtain ⟨w, q, cons⟩ := List.exists_cons_of_ne_nil queued
    obtain ⟨word, rest⟩ := streamWords_eq_cons (queue.symm.trans cons)
    have start : 32 * ((i + 32 - 1) / 32) = i := by omega
    have count : (i + 32 - 1) / 32 < fed := by
      have := congrArg List.length (queue.symm.trans cons)
      simp only [length_streamWords, List.length_cons] at this
      omega
    have bits (j : Nat) (inside : j < 32) : w.getLsbD j = bit (i + j) := by
      rw [word, getLsbD_streamWord, start, decide_eq_true inside, Bool.true_and]
    rw [OutLane.pull, if_pos empty, cons]
    refine ⟨bits 0 (by omega), ?_, fun j inside => ?_, ?_, ?_⟩
    · simp only [OutLane.shift, ceilDiv]
      omega
    · simp only [OutLane.shift] at inside ⊢
      rw [BitVec.getLsbD_ushiftRight, bits _ (by omega), Nat.add_assoc]
    · simp only [OutLane.shift, ceilDiv]
      rw [rest, show (i + 1 + 32 - 1) / 32 = (i + 32 - 1) / 32 + 1 by omega]
    · simp only [ceilDiv]
      omega
  · have same : (i + 1 + 32 - 1) / 32 = (i + 32 - 1) / 32 := by omega
    rw [OutLane.pull, if_neg empty]
    refine ⟨osr 0 (by omega), ?_, fun j inside => ?_, ?_, ?_⟩
    · simp only [OutLane.shift, ceilDiv]
      omega
    · simp only [OutLane.shift] at inside ⊢
      rw [BitVec.getLsbD_ushiftRight, osr _ (by omega), Nat.add_assoc]
    · rw [OutLane.shift, queue, ceilDiv, same]
    · rwa [ceilDiv, same]

/-! ## The whole engine -/

/-- The words SM_B has pushed: those drained and those still in its queue. -/
def Engine.pushed (e : Engine) : Nat := e.outW + e.rxfB.length

/-- The engine's registers somewhere in the hardware transfer of `n` bits with these vectors and this TDO stream. -/
structure Engine.Shifts (n : Word) (tms tdi : List Byte) (tdo : Nat → Bool) (e : Engine) : Prop where
  runA : e.runA = true
  runB : e.runB = true
  cntA : e.cntA.toNat + e.i = n.toNat
  cntB : e.cntB.toNat + e.i = n.toNat
  laneA : e.laneA.Streams (vecBit tms) e.i e.inW
  laneB : e.laneB.Streams (vecBit tdi) e.i e.inW
  fed : e.inW ≤ vectorWords n
  isr : e.isrB = streamWord (upTo e.i tdo) e.pushed
  isrc : e.isrcB = e.i - 32 * e.pushed
  received : e.rxfB = streamWords (upTo n.toNat tdo) e.outW e.pushed
  behind : e.i ≤ 32 * e.pushed + 32
  ahead : 32 * e.pushed ≤ e.i ∨ e.i = n.toNat ∧ e.pushed = vectorWords n

namespace Engine.Shifts

variable {n : Word} {tms tdi : List Byte} {tdo : Nat → Bool} {e : Engine}

/-- A feed pushes the next word of each vector (R152). -/
theorem feed (shifts : e.Shifts n tms tdi tdo) (more : e.inW < vectorWords n) :
    Engine.Shifts n tms tdi tdo
      { e with
        txfA := e.txfA ++ [streamWord (vecBit tms) e.inW], txfB := e.txfB ++ [streamWord (vecBit tdi) e.inW]
        inW := e.inW + 1 } :=
  { shifts with laneA := shifts.laneA.push, laneB := shifts.laneB.push, fed := more }

/-- A drain takes the next word of the TDO stream (R153). -/
theorem drain (shifts : e.Shifts n tms tdi tdo) {w : Word} {q : List Word} (queue : e.rxfB = w :: q) :
    w = streamWord (upTo n.toNat tdo) e.outW ∧ e.outW < e.pushed ∧
      Engine.pushed { e with rxfB := q, outW := e.outW + 1 } = e.pushed ∧
      Engine.Shifts n tms tdi tdo { e with rxfB := q, outW := e.outW + 1 } := by
  obtain ⟨word, rest⟩ := streamWords_eq_cons (shifts.received.symm.trans queue)
  have same : Engine.pushed { e with rxfB := q, outW := e.outW + 1 } = e.pushed := by
    simp only [Engine.pushed, queue, List.length_cons]
    omega
  refine ⟨word, by simp [Engine.pushed, queue], same, ?_⟩
  exact
    { shifts with
      isr := by rw [same]; exact shifts.isr
      isrc := by rw [same]; exact shifts.isrc
      received := by rw [same]; exact rest
      behind := by rw [same]; exact shifts.behind
      ahead := by rw [same]; exact shifts.ahead }

/-- A push moves the input register, a whole word of the TDO stream, to the queue (R155). -/
theorem rxPush (shifts : e.Shifts n tms tdi tdo) (waiting : 0 < e.isrcB) (whole : e.isrcB = 32 ∨ e.cntB.toNat = 0) :
    Engine.pushed { e with rxfB := e.rxfB ++ [e.isrB], isrB := 0, isrcB := 0 } = e.pushed + 1 ∧
      Engine.Shifts n tms tdi tdo { e with rxfB := e.rxfB ++ [e.isrB], isrB := 0, isrcB := 0 } := by
  have next : Engine.pushed { e with rxfB := e.rxfB ++ [e.isrB], isrB := 0, isrcB := 0 } = e.pushed + 1 := by
    simp [Engine.pushed, Nat.add_assoc]
  have cnt := shifts.cntB
  have isrc := shifts.isrc
  have behind := shifts.behind
  have word : e.isrB = streamWord (upTo n.toNat tdo) e.pushed := by
    rw [shifts.isr]
    refine streamWord_congr fun j inside => ?_
    rw [upTo, upTo, decide_eq_decide.2 (show 32 * e.pushed + j < e.i ↔ 32 * e.pushed + j < n.toNat by omega)]
  refine ⟨next, ?_⟩
  exact
    { shifts with
      isr := by
        rw [next]
        refine BitVec.eq_of_getLsbD_eq fun j _ => ?_
        simp [getLsbD_streamWord, upTo, show ¬32 * (e.pushed + 1) + j < e.i by omega]
      isrc := by rw [next]; change 0 = e.i - _; omega
      received := by
        rw [next, ← streamWords_append _ (show _ ≤ e.pushed from Nat.le_add_right e.outW e.rxfB.length), ← word]
        exact congrArg (· ++ [e.isrB]) shifts.received
      behind := by rw [next]; change e.i ≤ _; omega
      ahead := by
        rw [next]
        change _ ≤ e.i ∨ e.i = _ ∧ _
        simp only [vectorWords, ceilDiv]
        omega }

/-- A bit step drives bit `i` of both vectors, and bit `i` of TDO joins the input register (R154). -/
theorem bitStep (shifts : e.Shifts n tms tdi tdo) (more : 0 < e.cntA.toNat) (readyA : 0 < e.osrcA ∨ e.txfA ≠ [])
    (readyB : 0 < e.osrcB ∨ e.txfB ≠ []) (room : e.isrcB < 32) :
    e.pullA.pullB.osrA.getLsbD 0 = vecBit tms e.i ∧ e.pullA.pullB.osrB.getLsbD 0 = vecBit tdi e.i ∧
      Engine.Shifts n tms tdi tdo (e.pullA.pullB.shiftBit (tdo e.i)) := by
  obtain ⟨bitA, laneA⟩ := shifts.laneA.bit readyA
  obtain ⟨bitB, laneB⟩ := shifts.laneB.bit readyB
  have cntA := shifts.cntA
  have cntB := shifts.cntB
  have isrc := shifts.isrc
  have ahead := shifts.ahead
  have counted {c : Word} (same : c.toNat + e.i = n.toNat) : (c - 1).toNat + (e.i + 1) = n.toNat := by
    rw [BitVec.toNat_sub_of_le (BitVec.le_def.2 (by simp; omega))]
    simp
    omega
  rw [e.pull_eq]
  refine ⟨bitA, bitB, ?_⟩
  exact
    { shifts with
      cntA := counted cntA
      cntB := counted cntB
      laneA := laneA
      laneB := laneB
      isr := by
        change setBit e.isrB e.isrcB _ = streamWord (upTo (e.i + 1) tdo) e.pushed
        rw [shifts.isr, isrc, setBit_streamWord tdo (by omega) (by omega)]
      isrc := by change e.isrcB + 1 = e.i + 1 - 32 * e.pushed; omega
      behind := by change e.i + 1 ≤ 32 * e.pushed + 32; omega
      ahead := .inl (by change 32 * e.pushed ≤ e.i + 1; omega) }

end Engine.Shifts

end Sys2Proof.Machine
end

section
/-! A transfer in flight, whichever engine shifts it: where SHIFT started it, what every step of it keeps, and its end
(40_commands.md R123-R130; 41_shift_engine.md R143-R146). -/

namespace Sys2Proof.Machine

/-- The engine is free again, nothing else has changed (40_commands.md R127). -/
def State.freed (s : State) : State := { s with g := { s.g with busy := false, owner := none } }

/-! ## The start -/

/-- State `s` serves a session that holds the SHIFT of these operands, in slots `t` and `d`, and `o` is the lowest free slot
(40_commands.md R123, R124). -/
structure Transfer (s : State) (n : Word) (tms tdi : List Byte) where
  se : Session
  t : Nat
  d : Nat
  o : Nat
  at_k : s.sessions[s.serving]? = some se
  tmsHeld : se.tmsSlot = some t
  tdiHeld : se.tdiSlot = some d
  count : se.n = n
  readTms : s.memRead t 0 (vectorBytes n) = .next tms
  readTdi : s.memRead d 0 (vectorBytes n) = .next tdi
  lowest : s.LowestFree o
  valid : s.g.backendValid = true

theorem State.heldCommand_eq_shift {s : State} {k : Nat} {n : Word} {tms tdi : List Byte} {se : Session}
    (at_k : s.sessions[k]? = some se) (held : s.heldCommand k = .next (.shift n tms tdi)) :
    ∃ t d, se.tmsSlot = some t ∧ se.tdiSlot = some d ∧ se.n = n ∧ s.memRead t 0 (vectorBytes n) = .next tms ∧
      s.memRead d 0 (vectorBytes n) = .next tdi := by
  simp only [State.heldCommand, at_k, State.heldCommand_kind held at_k, Instr.kind] at held
  split at held
  · next t d ht hd =>
    simp only [andThen_eq_next, Host.Outcome.next.injEq, Instr.shift.injEq] at held
    obtain ⟨_, readTms, _, readTdi, rfl, rfl, rfl⟩ := held
    exact ⟨t, d, ht, hd, rfl, readTms, readTdi⟩
  · simp at held

namespace Transfer

variable {s : State} {n : Word} {tms tdi : List Byte} (x : Transfer s n tms tdi)

/-- The owner's session during the transfer. -/
def owner : Session := { x.se with phase := .dispatching, tdoSlot := some x.o }

/-- The TDO slot with these bytes. -/
def tdoSlot (_ : Transfer s n tms tdi) (m : Memory) : Slot := { owner := some (s.serving, .tdo), bytes := m }

/-- The state in which the engine starts (R124). -/
def dispatched : State :=
  { s with
    g := { s.g with busy := true, owner := some s.serving }
    sessions := s.sessions.set s.serving x.owner
    arena := s.arena.set x.o (x.tdoSlot []) }

/-- Only a SHIFT that starts a transfer leaves the block busy. -/
theorem of_busy {s1 : State} (free : s.g.busy = false) (taken : exec (.shift n tms tdi) s = .next s1)
    (busy : s1.g.busy = true) : ∃ x : Transfer s n tms tdi, s1 = State.transferStart n x.dispatched := by
  obtain ⟨se, at_k, ⟨-, rfl⟩ | ⟨-, -, rfl⟩ | ⟨valid, held, o, sl, at_o, owner, least, rfl⟩⟩ := execShift_eq_next taken
  · simp [free] at busy
  · simp [free] at busy
  · obtain ⟨t, d, ht, hd, count, readTms, readTdi⟩ := State.heldCommand_eq_shift at_k held
    refine ⟨⟨se, t, d, o, at_k, ht, hd, count, readTms, readTdi, .of_isSome at_o owner least, valid⟩, ?_⟩
    rw [modify_eq_set _ at_k, modify_eq_set _ at_o]
    rfl

/-- A slot that can be read is not the free one. -/
theorem ne_of_memRead {a off m : Nat} {v : List Byte} (read : s.memRead a off m = .next v) : a ≠ x.o := by
  rintro rfl
  obtain ⟨sl, at_a, -, owned, -⟩ := (State.memRead_eq_next ..).1 read
  obtain ⟨sl', at_a', free⟩ := x.lowest.free
  cases at_a.symm.trans at_a'
  simp [free] at owned

include x in
theorem fits : vectorBytes n ≤ s.cfg.slotBytes := by
  obtain ⟨-, -, fits, -, -⟩ := (State.memRead_eq_next ..).1 x.readTms
  omega

/-! ## In flight -/

/-- The pins once `i` edges of the transfer have been driven (41_shift_engine.md R144, R145). -/
def pinsAfter (p : Pins) (tms tdi : List Byte) : Nat → Pins
  | 0 => p
  | i + 1 => { tck := false, tms := vecBit tms i, tdi := vecBit tdi i, driven := p.driven ++ edgePairs (i + 1) tms tdi }

theorem edgePairs_succ (i : Nat) (tms tdi : List Byte) :
    edgePairs (i + 1) tms tdi = edgePairs i tms tdi ++ [(vecBit tms i, vecBit tdi i)] := by
  simp [edgePairs, List.range_succ]

theorem pinsAfter_driven (p : Pins) (tms tdi : List Byte) (i : Nat) :
    (pinsAfter p tms tdi i).driven = p.driven ++ edgePairs i tms tdi := by
  cases i with
  | zero => simp [pinsAfter, edgePairs]
  | succ i => rfl

/-- The TDO bits of the transfer (41_shift_engine.md R146). -/
abbrev tdo (_ : Transfer s n tms tdi) : Nat → Bool := tdoBit s.cfg s.target tms tdi

/-- `u` is in the transfer, after `E.I` edges: BUSY for the session served, every other session and slot as it was, and the
TDO slot with bytes of which `collected` says how far they are. -/
structure Running (collected : Memory → Prop) (u : State) : Prop where
  cfg : u.cfg = s.cfg
  g : u.g = { s.g with busy := true, owner := some s.serving }
  sessions : u.sessions = s.sessions.set s.serving x.owner
  others : ∀ a, a ≠ x.o → u.arena[a]? = s.arena[a]?
  tdoBytes : ∃ m, u.arena[x.o]? = some (x.tdoSlot m) ∧ Memory.wf m = true ∧ collected m
  hung : u.e.hung = s.e.hung
  target : u.target = targetAt s.cfg s.target tms tdi u.e.i
  pins : u.p = pinsAfter s.p tms tdi u.e.i

namespace Running

variable {x} {collected collected' : Memory → Prop} {u v : State}

theorem started {e : Engine} (hung : e.hung = s.e.hung) (first : e.i = 0) (empty : collected []) :
    x.Running collected { x.dispatched with e := e } where
  cfg := rfl
  g := rfl
  sessions := rfl
  others a other := by simp [dispatched, other.symm]
  tdoBytes := by
    obtain ⟨sl, at_o, -⟩ := x.lowest.free
    exact ⟨[], by simp [dispatched, (List.getElem?_eq_some_iff.1 at_o).1], rfl, empty⟩
  hung := hung
  target := by rw [first]; rfl
  pins := by rw [first]; rfl

/-- Registers of the engine other than `E.I` and the hang do not matter, nor does the loop's latch. -/
theorem congr (run : x.Running collected u) (cfg : v.cfg = u.cfg) (g : v.g = u.g) (sessions : v.sessions = u.sessions)
    (arena : v.arena = u.arena) (hung : v.e.hung = u.e.hung) (index : v.e.i = u.e.i) (target : v.target = u.target)
    (pins : v.p = u.p) : x.Running collected v where
  cfg := cfg.trans run.cfg
  g := g.trans run.g
  sessions := sessions.trans run.sessions
  others := arena ▸ run.others
  tdoBytes := arena ▸ run.tdoBytes
  hung := hung.trans run.hung
  target := by rw [target, index, run.target]
  pins := by rw [pins, index, run.pins]

/-- Bytes written into the TDO slot. -/
theorem write (run : x.Running collected u) {f : Memory → Memory}
    (keep : ∀ m, Memory.wf m = true → collected m → Memory.wf (f m) = true ∧ collected' (f m)) :
    x.Running collected' (u.mapSlot x.o fun sl => { sl with bytes := f sl.bytes }) where
  __ := run
  others a other := by rw [State.mapSlot_arena, List.getElem?_modify_ne _ _ other.symm, run.others a other]
  tdoBytes := by
    obtain ⟨m, at_o, wf, so_far⟩ := run.tdoBytes
    obtain ⟨wf', so_far'⟩ := keep m wf so_far
    exact ⟨f m, by simp [at_o, tdoSlot], wf', so_far'⟩

/-- The sampled bit is the reference's (R143, R146). -/
theorem tdoPin (run : x.Running collected u) : u.tdoPin = x.tdo u.e.i := by
  rw [State.tdoPin, run.cfg, run.target]
  rfl

/-- One edge with bit `E.I` of both vectors (R142, R144). -/
theorem edge (run : x.Running collected u) {e : Engine} (hung : e.hung = u.e.hung) (next : e.i = u.e.i + 1) :
    x.Running collected
      { u with
        p :=
          { tck := false, tms := vecBit tms u.e.i, tdi := vecBit tdi u.e.i
            driven := u.p.driven ++ [(vecBit tms u.e.i, vecBit tdi u.e.i)] }
        target := targetNext u.cfg u.target (vecBit tms u.e.i) (vecBit tdi u.e.i)
        e := e } where
  __ := run
  hung := hung.trans run.hung
  target := by rw [next, run.cfg, run.target]; rfl
  pins := by rw [next, run.pins, pinsAfter_driven, List.append_assoc, ← edgePairs_succ]; rfl

/-! ## What the engine sees -/

theorem at_owner (run : x.Running collected u) : u.sessions[s.serving]? = some x.owner := by
  rw [run.sessions, List.getElem?_set_self (List.getElem?_eq_some_iff.1 x.at_k).1]

theorem busy (run : x.Running collected u) : u.g.busy = true := by rw [run.g]

theorem owner_eq (run : x.Running collected u) : u.g.owner = some s.serving := by rw [run.g]

theorem memRead (run : x.Running collected u) {a : Nat} (other : a ≠ x.o) (off m : Nat) :
    u.memRead a off m = s.memRead a off m := by
  unfold State.memRead
  rw [run.cfg, run.others a other]

theorem readTms (run : x.Running collected u) : u.memRead x.t 0 (vectorBytes n) = .next tms :=
  (run.memRead (x.ne_of_memRead x.readTms) _ _).trans x.readTms

theorem readTdi (run : x.Running collected u) : u.memRead x.d 0 (vectorBytes n) = .next tdi :=
  (run.memRead (x.ne_of_memRead x.readTdi) _ _).trans x.readTdi

/-! ## The end -/

/-- A TDO slot with all bytes of the reply reads as the reply. -/
theorem readReply (run : x.Running collected u)
    (whole : ∀ m, collected m → ∀ j, j < vectorBytes n → Memory.read m j = packByte x.tdo n.toNat j) :
    u.memRead x.o 0 (vectorBytes n) = .next (transferReply s.cfg s.target n.toNat tms tdi) := by
  obtain ⟨m, at_o, -, so_far⟩ := run.tdoBytes
  refine (State.memRead_eq_next ..).2 ⟨_, at_o, by rw [run.cfg, Nat.zero_add]; exact x.fits, rfl, ?_⟩
  rw [transferReply, Memory.readRange]
  refine List.map_congr_left fun j inside => ?_
  rw [tdoSlot, Nat.zero_add, whole m so_far j (List.mem_range.1 inside)]

/-- The end step frees the engine and answers with the reply (40_commands.md R127). -/
theorem shiftEnd (run : x.Running collected u)
    (whole : ∀ m, collected m → ∀ j, j < vectorBytes n → Memory.read m j = packByte x.tdo n.toNat j) :
    u.shiftEnd s.serving x.owner =
      .next (u.freed.emitThen s.serving (transferReply s.cfg s.target n.toNat tms tdi) (State.shiftRelease s.serving)) := by
  have reply : u.freed.memRead x.o 0 (vectorBytes n) = .next (transferReply s.cfg s.target n.toNat tms tdi) :=
    run.readReply whole
  rw [State.freed] at reply
  simp only [State.shiftEnd, State.freed, owner, x.count, reply, andThen_next]

end Running

/-! ## Landed -/

/-- The owner's session after a transfer whose reply was written (40_commands.md R119, R127, R130). -/
def served : Session :=
  { x.se with
    tx := x.se.tx ++ transferReply s.cfg s.target n.toNat tms tdi
    seen := x.se.seen ++ transferReply s.cfg s.target n.toNat tms tdi
    tmsSlot := none, tdiSlot := none, tdoSlot := none, hlen := 0, plen := 0, kind := none, phase := .awaitingCommand }

/-- `v` is what the transfer leaves: the result of R146, the engine free and the slots released. -/
structure Landed (v : State) : Prop where
  g : v.g = { s.g with busy := false, owner := none }
  sessions : v.sessions = s.sessions.set s.serving x.served
  released : ∀ a, a = x.t ∨ a = x.d ∨ a = x.o → ∃ sl, v.arena[a]? = some sl ∧ sl.owner = none
  target : v.target = targetAt s.cfg s.target tms tdi n.toNat
  pins : v.p = pinsAfter s.p tms tdi n.toNat

end Transfer

/-- A reply that is written, and the release and the restart after it, as one update (R127, R130). -/
theorem State.emitThen_shiftRelease_of_ok {s : State} {k : Nat} {se : Session} (at_k : s.sessions[k]? = some se)
    (ok : s.write.ok = true) (present : se.gone = false) (bytes : List Byte) :
    s.emitThen k bytes (State.shiftRelease k) =
      { s with
        sessions := s.sessions.set k (se.transcribe bytes bytes).released.restarted
        arena := s.arena.mapIdx fun a sl => if se.holds a then { sl with owner := none } else sl } := by
  have at_k' : (s.mapSession k (Session.transcribe bytes bytes)).sessions[k]? = some (se.transcribe bytes bytes) := by
    simp [at_k]
  have sessions : ((s.sessions.modify k (Session.transcribe bytes bytes)).modify k Session.released).modify k
      Session.restarted = s.sessions.set k (se.transcribe bytes bytes).released.restarted := by
    rw [List.modify_modify_eq, List.modify_modify_eq, modify_eq_set _ at_k]
    rfl
  have written : s.emitThen k bytes (State.shiftRelease k) =
      State.shiftRelease k (s.mapSession k (Session.transcribe bytes bytes)) := by
    rw [State.emitThen_of_some s k _ _ se at_k, if_pos ⟨ok, present⟩]
    rfl
  rw [written, State.shiftRelease, State.releaseSlots_of_some _ _ _ at_k', State.restart_eq, State.mapSession,
    ← sessions]
  rfl

namespace Transfer

variable {s : State} {n : Word} {tms tdi : List Byte} {x : Transfer s n tms tdi}

theorem Running.landed {collected : Memory → Prop} {u : State} (run : x.Running collected u) (all : u.e.i = n.toNat)
    (ok : u.write.ok = true) (present : x.se.gone = false) :
    x.Landed
      (u.freed.emitThen s.serving (transferReply s.cfg s.target n.toNat tms tdi) (State.shiftRelease s.serving)) := by
  have at_owner : u.freed.sessions[s.serving]? = some x.owner := run.at_owner
  rw [State.emitThen_shiftRelease_of_ok at_owner ok present]
  exact
    { g := by simp only [State.freed, run.g]
      sessions := by simp only [State.freed, run.sessions, List.set_set]; rfl
      released := fun a named => by
        have holds : x.owner.holds a = true := by
          rcases named with rfl | rfl | rfl <;> simp [Session.holds, owner, x.tmsHeld, x.tdiHeld]
        have present : ∃ sl, u.arena[a]? = some sl := by
          rcases named with rfl | rfl | rfl
          · exact ⟨_, ((State.memRead_eq_next ..).1 run.readTms).choose_spec.1⟩
          · exact ⟨_, ((State.memRead_eq_next ..).1 run.readTdi).choose_spec.1⟩
          · exact ⟨_, run.tdoBytes.choose_spec.1⟩
        obtain ⟨sl, at_a⟩ := present
        exact ⟨{ sl with owner := none }, by simp [State.freed, at_a, holds], rfl⟩
      target := by rw [← all]; exact run.target
      pins := by rw [← all]; exact run.pins }

end Transfer

end Sys2Proof.Machine
end

section
/-! A hardware transfer in flight (40_commands.md R127; 41_shift_engine.md R152-R158): what each enabled step makes of it, and
that until its end some step is enabled. -/

namespace Sys2Proof.Machine

/-! ## Words of a vector -/

theorem State.readWord_of_memRead {s : State} {a size w : Nat} {v : List Byte} (read : s.memRead a 0 size = .next v)
    (within : 4 * w ≤ size) : s.readWord a size w = .next (streamWord (vecBit v) w) := by
  obtain ⟨sl, at_a, inside, owned, rfl⟩ := (State.memRead_eq_next ..).1 read
  have word : s.memRead a (4 * w) (min 4 (size - 4 * w)) =
      .next (sl.bytes.readRange (4 * w) (min 4 (size - 4 * w))) :=
    (State.memRead_eq_next ..).2 ⟨sl, at_a, by omega, owned, rfl⟩
  rw [State.readWord, word, andThen_next, operandAt_readRange]

/-- A lane has a bit to give exactly if the word of that bit has been fed. -/
theorem OutLane.Streams.ready_iff {bit : Nat → Bool} {i fed : Nat} {l : OutLane} (streams : l.Streams bit i fed) :
    (0 < l.left ∨ l.queue ≠ []) ↔ i < 32 * fed := by
  obtain ⟨left, -, queue, pulled⟩ := streams
  have count := congrArg List.length queue
  rw [length_streamWords] at count
  rw [← List.length_pos_iff, left, count]
  simp only [ceilDiv] at pulled ⊢
  omega

/-- While words remain to be fed, the next one begins inside the vectors (R150, R152). -/
theorem word_within {n : Word} {w : Nat} (more : w < vectorWords n) : 4 * w < vectorBytes n := by
  simp only [vectorWords, vectorBytes, ceilDiv] at more ⊢
  omega

namespace Engine.Shifts

variable {n : Word} {tms tdi : List Byte} {tdo : Nat → Bool} {e : Engine}

theorem pushed_le (shifts : e.Shifts n tms tdi tdo) : e.pushed ≤ vectorWords n := by
  have cnt := shifts.cntA
  have ahead := shifts.ahead
  simp only [vectorWords, ceilDiv] at ahead ⊢
  omega

/-- Once the whole of the vectors has been shifted and nothing waits, all words have been pushed. -/
theorem pushed_of_done (shifts : e.Shifts n tms tdi tdo) (all : e.i = n.toNat) (empty : e.isrcB = 0) :
    e.pushed = vectorWords n := by
  have isrc := shifts.isrc
  have ahead := shifts.ahead
  simp only [vectorWords, ceilDiv] at ahead ⊢
  omega

end Engine.Shifts

/-! ## The steps -/

/-- How many steps of each kind a hardware transfer has taken (R158). -/
def Engine.progress (e : Engine) : EngineStep → Nat
  | .feed => e.inW
  | .drain => e.outW
  | .bitStep => e.i
  | .rxPush => e.pushed
  | .hwEnd | .swBitStep | .swEnd => 0

/-- How many it takes in all (R158). -/
def stepsOf (n : Word) : EngineStep → Nat
  | .feed | .drain | .rxPush => vectorWords n
  | .bitStep => n.toNat
  | .hwEnd => 1
  | .swBitStep | .swEnd => 0

namespace Transfer

variable {s : State} {n : Word} {tms tdi : List Byte}

/-- The bytes of the first `w` words of the reply are in the TDO slot (R153). -/
def Drained (x : Transfer s n tms tdi) (w : Nat) (m : Memory) : Prop :=
  ∀ j, j < 4 * w → j < vectorBytes n → Memory.read m j = packByte x.tdo n.toNat j

/-- `u` is in a transfer of the hardware engine. -/
structure HwRunning (x : Transfer s n tms tdi) (u : State) : Prop where
  kind : s.g.engine = .hw
  run : x.Running (x.Drained u.e.outW) u
  shifts : u.e.Shifts n tms tdi x.tdo

/-- What an enabled step `e` makes of a hardware transfer: it goes on, one step further, or this was its end. -/
inductive HwStep (x : Transfer s n tms tdi) (e : EngineStep) (u v : State) : Prop where
  | goesOn (run : x.HwRunning v) (progress : ∀ a, v.e.progress a = u.e.progress a + [e].count a)
  | ends (free : v.g.busy = false) (progress : ∀ a, stepsOf n a = u.e.progress a + [e].count a)
      (landed : u.write.ok = true → x.se.gone = false → x.Landed v)

namespace HwRunning

variable {x : Transfer s n tms tdi} {u v : State}

theorem latch (running : x.HwRunning u) (w : WriteOutcome) : x.HwRunning { u with write := w } :=
  ⟨running.kind, running.run.congr rfl rfl rfl rfl rfl rfl rfl rfl, running.shifts⟩

theorem engine_eq (running : x.HwRunning u) : u.g.engine = .hw := by
  rw [running.run.g]
  exact running.kind

theorem start (hw : s.g.engine = .hw) : x.HwRunning (State.transferStart n x.dispatched) := by
  rw [State.transferStart_of_hw (by exact hw)]
  refine ⟨hw, .started rfl rfl fun j below => absurd below (by simp), ?_⟩
  exact
    { runA := rfl, runB := rfl, cntA := rfl, cntB := rfl
      laneA := .empty _ _
      laneB := .empty _ _
      fed := Nat.zero_le _
      isr := BitVec.eq_of_getLsbD_eq fun j _ => by simp [getLsbD_streamWord, upTo]
      isrc := rfl
      received := rfl
      behind := Nat.zero_le _
      ahead := .inl le_rfl }

theorem feed (running : x.HwRunning u) (more : u.e.inW < vectorWords n) :
    ∃ v, u.feed s.serving x.owner = .next v ∧ x.HwStep .feed u v := by
  obtain ⟨kind, run, shifts⟩ := running
  have within := (word_within more).le
  have fed : u.feed s.serving x.owner = .next
      { u with
        e :=
          { u.e with
            txfA := u.e.txfA ++ [streamWord (vecBit tms) u.e.inW], txfB := u.e.txfB ++ [streamWord (vecBit tdi) u.e.inW]
            inW := u.e.inW + 1 } } := by
    simp only [State.feed, owner, x.tmsHeld, x.tdiHeld, x.count, State.readWord_of_memRead run.readTms within,
      State.readWord_of_memRead run.readTdi within, andThen_next]
  refine ⟨_, fed, .goesOn ⟨kind, run.congr rfl rfl rfl rfl rfl rfl rfl rfl, shifts.feed more⟩ fun a => ?_⟩
  cases a <;> rfl

/-- The bytes a drain writes are the reply's (R153). -/
theorem drained_write {w : Nat} {m : Memory} (wf : Memory.wf m = true) (so_far : x.Drained w m) :
    x.Drained (w + 1) (Memory.writeAll m (4 * w)
      ((le32Bytes (streamWord (upTo n.toNat x.tdo) w)).take (vectorBytes n - 4 * w))) := by
  intro j below inside
  rw [Memory.read_writeAll _ _ _ _ wf]
  have count : (le32Bytes (streamWord (upTo n.toNat x.tdo) w)).length = 4 := rfl
  by_cases old : j < 4 * w
  · rw [if_neg (by omega), so_far j old inside]
  · rw [if_pos (by rw [List.length_take, count]; omega), List.getD_eq_getElem?_getD, List.getElem?_take_of_lt (by omega),
      ← List.getD_eq_getElem?_getD, le32Bytes_streamWord _ _ _ (by omega), show 4 * w + (j - 4 * w) = j by omega]

theorem drain (running : x.HwRunning u) {w : Word} {q : List Word} (queue : u.e.rxfB = w :: q) :
    ∃ v, u.drain s.serving x.owner = .next v ∧ x.HwStep .drain u v := by
  obtain ⟨kind, run, shifts⟩ := running
  obtain ⟨rfl, received, pushed, after⟩ := shifts.drain queue
  have within := word_within (received.trans_le shifts.pushed_le)
  obtain ⟨m, at_o, -⟩ := run.tdoBytes
  have fits := x.fits
  refine ⟨_, ?_, .goesOn
    ⟨kind, (run.congr (v := { u with e := { u.e with rxfB := q, outW := u.e.outW + 1 } }) rfl rfl rfl rfl rfl rfl rfl
      rfl).write fun m wf so_far => ⟨Memory.wf_writeAll _ _ _ wf, drained_write wf so_far⟩, after⟩ fun a => ?_⟩
  · simp only [State.drain, queue, owner, x.count]
    refine State.memWriteAll_next _ _ _ _ _ at_o rfl ?_
    rw [List.length_take]
    change _ ≤ u.cfg.slotBytes
    rw [run.cfg]
    omega
  · cases a
    case rxPush => exact pushed
    all_goals rfl

theorem bitStep (running : x.HwRunning u) (more : 0 < u.e.cntA.toNat) (readyA : 0 < u.e.osrcA ∨ u.e.txfA ≠ [])
    (readyB : 0 < u.e.osrcB ∨ u.e.txfB ≠ []) (room : u.e.isrcB < 32) : x.HwStep .bitStep u u.bitStep := by
  obtain ⟨kind, run, shifts⟩ := running
  obtain ⟨bitA, bitB, after⟩ := shifts.bitStep more readyA readyB room
  rw [State.bitStep_eq, bitA, bitB, run.tdoPin]
  have frame := u.e.pull_eq
  refine .goesOn ⟨kind, ?_, after⟩ fun a => ?_
  · rw [frame]
    exact run.edge rfl rfl
  · rw [frame]
    cases a <;> rfl

theorem rxPush (running : x.HwRunning u) (waiting : 0 < u.e.isrcB) (whole : u.e.isrcB = 32 ∨ u.e.cntB.toNat = 0) :
    x.HwStep .rxPush u u.rxPush := by
  obtain ⟨kind, run, shifts⟩ := running
  obtain ⟨pushed, after⟩ := shifts.rxPush waiting whole
  refine .goesOn ⟨kind, run.congr rfl rfl rfl rfl rfl rfl rfl rfl, after⟩ fun a => ?_
  cases a
  case rxPush => exact pushed
  all_goals rfl

theorem hwEnd (running : x.HwRunning u) (enabled : u.hwEndEnabled n = true) :
    ∃ v, u.hwEnd s.serving x.owner = .next v ∧ x.HwStep .hwEnd u v := by
  obtain ⟨kind, run, shifts⟩ := running
  simp only [State.hwEndEnabled, Bool.and_eq_true, decide_eq_true_eq, List.isEmpty_iff] at enabled
  obtain ⟨⟨⟨⟨⟨-, counted⟩, -⟩, allFed⟩, allOut⟩, empty⟩ := enabled
  have all : u.e.i = n.toNat := by
    have cnt := shifts.cntA
    omega
  have whole (m : Memory) (so_far : x.Drained u.e.outW m) (j : Nat) (inside : j < vectorBytes n) :
      Memory.read m j = packByte x.tdo n.toNat j := by
    refine so_far j ?_ inside
    rw [allOut]
    simp only [vectorWords, vectorBytes, ceilDiv] at inside ⊢
    omega
  have stopped : x.Running (x.Drained u.e.outW)
      { u with e := { u.e with runA := false, runB := false, osrcA := 0, osrcB := 0 } } :=
    run.congr rfl rfl rfl rfl rfl rfl rfl rfl
  refine ⟨_, stopped.shiftEnd whole, .ends ?_ (fun a => ?_) fun ok present => stopped.landed all ok present⟩
  · rw [(OnlyStorage.emitThen _ _ _ _ fun u => OnlyStorage.shiftRelease u s.serving).g]
    rfl
  · cases a
    case feed => exact allFed.symm
    case drain => exact allOut.symm
    case bitStep => exact all.symm
    case rxPush => simp [stepsOf, Engine.progress, Engine.pushed, empty, allOut]
    all_goals rfl

/-- Every enabled step of a hardware transfer answers, and is a step of `HwStep`. -/
theorem step (running : x.HwRunning u) {e : EngineStep} (enabled : u.engineEnabled e n = true) :
    ∃ v, u.engineEffect e s.serving x.owner = .next v ∧ x.HwStep e u v := by
  have hw := running.engine_eq
  cases e with
  | feed =>
    simp only [State.engineEnabled, State.feedEnabled, Bool.and_eq_true, decide_eq_true_eq] at enabled
    exact running.feed enabled.1.1.2
  | drain =>
    simp only [State.engineEnabled, State.drainEnabled, Bool.and_eq_true, Bool.not_eq_true', List.isEmpty_eq_false_iff]
      at enabled
    obtain ⟨w, q, queue⟩ := List.exists_cons_of_ne_nil enabled.2
    exact running.drain queue
  | bitStep =>
    simp only [State.engineEnabled, State.bitStepEnabled, Bool.and_eq_true, Bool.or_eq_true, decide_eq_true_eq,
      Bool.not_eq_true', List.isEmpty_eq_false_iff] at enabled
    obtain ⟨⟨⟨⟨-, more⟩, readyA⟩, readyB⟩, room⟩ := enabled
    exact ⟨_, rfl, running.bitStep more readyA readyB room⟩
  | rxPush =>
    simp only [State.engineEnabled, State.rxPushEnabled, Bool.and_eq_true, Bool.or_eq_true, decide_eq_true_eq] at enabled
    obtain ⟨⟨⟨-, waiting⟩, whole⟩, -⟩ := enabled
    exact ⟨_, rfl, running.rxPush waiting whole⟩
  | hwEnd => exact running.hwEnd enabled
  | swBitStep => simp [State.engineEnabled, State.swBitStepEnabled, hw] at enabled
  | swEnd => simp [State.engineEnabled, State.swEndEnabled, hw] at enabled

/-! ## No deadlock (R158) -/

/-- A full or last input register can be pushed, or the queue in its way can be drained. -/
theorem enabled_of_whole (running : x.HwRunning u) (deep : 1 ≤ s.cfg.qdepth) (waiting : 0 < u.e.isrcB)
    (whole : u.e.isrcB = 32 ∨ u.e.cntB.toNat = 0) : ∃ e, u.engineEnabled e n = true := by
  by_cases room : u.e.rxfB.length < u.cfg.qdepth
  · exact ⟨.rxPush, by
      simpa [State.engineEnabled, State.rxPushEnabled, running.engine_eq, running.shifts.runB, waiting, room] using whole⟩
  · have queued : u.e.rxfB ≠ [] := by
      rintro empty
      rw [running.run.cfg, empty] at room
      exact room deep
    exact ⟨.drain, by simp [State.engineEnabled, State.drainEnabled, running.engine_eq, queued]⟩

/-- With all bits shifted, what has been received is on its way out, and then the transfer ends. -/
theorem enabled_of_all (running : x.HwRunning u) (deep : 1 ≤ s.cfg.qdepth) (all : u.e.i = n.toNat) :
    ∃ e, u.engineEnabled e n = true := by
  have hw := running.engine_eq
  have shifts := running.shifts
  have cntA := shifts.cntA
  have cntB := shifts.cntB
  rcases Nat.eq_zero_or_pos u.e.isrcB with empty | waiting
  · cases queue : u.e.rxfB with
    | nil =>
      have allOut : u.e.outW = vectorWords n := by
        rw [← shifts.pushed_of_done all empty, Engine.pushed, queue]
        rfl
      have allFed : u.e.inW = vectorWords n := by
        refine le_antisymm shifts.fed ?_
        rw [vectorWords, ← all]
        exact shifts.laneA.pulled
      exact ⟨.hwEnd, by
        simp [State.engineEnabled, State.hwEndEnabled, hw, shifts.runA, shifts.runB, empty, queue, allOut, allFed,
          show u.e.cntA.toNat = 0 by omega]⟩
    | cons w q => exact ⟨.drain, by simp [State.engineEnabled, State.drainEnabled, hw, queue]⟩
  · exact running.enabled_of_whole deep waiting (.inr (by omega))

/-- With bits still to shift, a bit can be shifted, or a word fed, or a full input register emptied. -/
theorem enabled_of_more (running : x.HwRunning u) (deep : 1 ≤ s.cfg.qdepth) (more : u.e.i ≠ n.toNat) :
    ∃ e, u.engineEnabled e n = true := by
  have hw := running.engine_eq
  have shifts := running.shifts
  have cntA := shifts.cntA
  have isrc := shifts.isrc
  have behind := shifts.behind
  by_cases full : u.e.isrcB = 32
  · exact running.enabled_of_whole deep (by omega) (.inl full)
  · by_cases ready : u.e.i < 32 * u.e.inW
    · have readyA := shifts.laneA.ready_iff.2 ready
      have readyB := shifts.laneB.ready_iff.2 ready
      exact ⟨.bitStep, by
        simpa [State.engineEnabled, State.bitStepEnabled, hw, shifts.runA, shifts.runB,
          show 0 < u.e.cntA.toNat by omega, show u.e.isrcB < 32 by omega] using ⟨readyA, readyB⟩⟩
    · have emptyA : u.e.txfA = [] := by_contra fun queued => ready (shifts.laneA.ready_iff.1 (.inr queued))
      have emptyB : u.e.txfB = [] := by_contra fun queued => ready (shifts.laneB.ready_iff.1 (.inr queued))
      have moreWords : u.e.inW < vectorWords n := by
        simp only [vectorWords, ceilDiv]
        omega
      exact ⟨.feed, by
        simp [State.engineEnabled, State.feedEnabled, hw, emptyA, emptyB, moreWords, running.run.cfg,
          Nat.lt_of_succ_le deep]⟩

/-- Until its end a hardware transfer has an enabled step (R158). -/
theorem some_enabled (running : x.HwRunning u) (deep : 1 ≤ s.cfg.qdepth) : ∃ e, u.engineEnabled e n = true :=
  if all : u.e.i = n.toNat then running.enabled_of_all deep all else running.enabled_of_more deep all

end HwRunning

end Transfer

end Sys2Proof.Machine
end

section
/-! A software transfer in flight (40_commands.md R127; 41_shift_engine.md R163). -/

namespace Sys2Proof.Machine

/-- One bit of a slot's vector, read through its byte (20_memory.md R62, 41_shift_engine.md R163). -/
theorem State.vecBit_of_memRead {s : State} {a size i : Nat} {v bs : List Byte} (read : s.memRead a 0 size = .next v)
    (within : i / 8 < size) (byte : s.memRead a (i / 8) 1 = .next bs) : vecBit bs (i % 8) = vecBit v i := by
  obtain ⟨sl, at_a, -, -, rfl⟩ := (State.memRead_eq_next ..).1 read
  obtain ⟨sl', at_a', -, -, rfl⟩ := (State.memRead_eq_next ..).1 byte
  cases at_a.symm.trans at_a'
  exact vecBit_readRange_one _ within

namespace Transfer

variable {s : State} {n : Word} {tms tdi : List Byte}

/-- The first `i` bits of the reply are in the TDO slot, and nothing else is. -/
def Sampled (x : Transfer s n tms tdi) (i : Nat) (m : Memory) : Prop := ∀ j, Memory.read m j = packByte x.tdo i j

/-- `u` is in a transfer of the software engine. -/
structure SwRunning (x : Transfer s n tms tdi) (u : State) : Prop where
  kind : s.g.engine = .sw
  run : x.Running (x.Sampled u.e.i) u

namespace SwRunning

variable {x : Transfer s n tms tdi} {u v : State}

theorem latch (running : x.SwRunning u) (w : WriteOutcome) : x.SwRunning { u with write := w } :=
  ⟨running.kind, running.run.congr rfl rfl rfl rfl rfl rfl rfl rfl⟩

theorem start (sw : s.g.engine = .sw) : x.SwRunning (State.transferStart n x.dispatched) := by
  rw [State.transferStart_of_sw (by exact sw)]
  exact ⟨sw, .started rfl rfl fun j => (packByte_zero _ j).symm⟩

/-- The sampled bit joins the reply (R163). -/
theorem sampled_write {i : Nat} {m : Memory} (wf : Memory.wf m = true) (so_far : x.Sampled i m) :
    x.Sampled (i + 1) (m.write (i / 8) (setBit (packByte x.tdo i (i / 8)) (i % 8) (x.tdo i))) := by
  intro j
  rw [Memory.read_write _ _ _ _ wf, so_far j, setBit_packByte]

theorem swBitStep (running : x.SwRunning u) (more : u.e.i < n.toNat)
    (taken : u.swBitStep s.serving x.owner = .next v) : x.SwRunning v := by
  obtain ⟨kind, run⟩ := running
  obtain ⟨t, d, o, a, b, old, ht, hd, ho, readTms, readTdi, readTdo, rfl⟩ := State.swBitStep_eq_next taken
  obtain rfl : x.t = t := Option.some.inj (x.tmsHeld.symm.trans ht)
  obtain rfl : x.d = d := Option.some.inj (x.tdiHeld.symm.trans hd)
  obtain rfl : x.o = o := Option.some.inj ho
  have inside : u.e.i / 8 < vectorBytes n := by
    simp only [vectorBytes, ceilDiv]
    omega
  have oldByte : old.getD 0 0 = packByte x.tdo u.e.i (u.e.i / 8) := by
    obtain ⟨m, at_o, -, so_far⟩ := run.tdoBytes
    obtain ⟨sl, at_o', -, -, rfl⟩ := (State.memRead_eq_next ..).1 readTdo
    cases at_o.symm.trans at_o'
    exact (Memory.readRange_getD _ _ _ _ one_pos).trans (so_far _)
  rw [State.vecBit_of_memRead run.readTms inside readTms, State.vecBit_of_memRead run.readTdi inside readTdi, oldByte,
    run.tdoPin]
  exact ⟨kind, (run.edge (e := { u.e with i := u.e.i + 1 }) rfl rfl).write fun m wf so_far =>
    ⟨Memory.wf_write _ _ _ wf, sampled_write wf so_far⟩⟩

theorem swEnd (running : x.SwRunning u) (all : u.e.i = n.toNat) (ok : u.write.ok = true) (present : x.se.gone = false)
    (taken : u.shiftEnd s.serving x.owner = .next v) : x.Landed v := by
  have run := running.run
  rw [run.shiftEnd fun m so_far j _ => all ▸ so_far j, Host.Outcome.next.injEq] at taken
  exact taken ▸ run.landed all ok present

end SwRunning

end Transfer

end Sys2Proof.Machine
end

section
/-! Any schedule of engine steps: as long as the engine is busy the transfer is in flight, and when it is free the transfer has
landed (41_shift_engine.md R146, R147, R167). -/

namespace Sys2Proof.Machine

namespace Transfer

variable {s : State} {n : Word} {tms tdi : List Byte}

/-- `P` holds of every state of the transfer: it is kept by every step that is not the end, and the end lands. -/
structure Invariant (x : Transfer s n tms tdi) (P : State → Prop) : Prop where
  running : ∀ {u : State}, P u → ∃ collected, x.Running collected u
  latch : ∀ {u : State} (w : WriteOutcome), P u → P { u with write := w }
  step : ∀ {u v : State} {e : EngineStep}, P u → u.write.ok = true → x.se.gone = false → u.engineEnabled e n = true →
    u.engineEffect e s.serving x.owner = .next v → P v ∨ x.Landed v

variable {x : Transfer s n tms tdi} {u v : State}

theorem hwRunning_invariant (x : Transfer s n tms tdi) : x.Invariant x.HwRunning where
  running h := ⟨_, h.run⟩
  latch w h := h.latch w
  step h ok present enabled taken := by
    obtain ⟨v, answer, step⟩ := h.step enabled
    cases answer.symm.trans taken
    cases step with
    | goesOn run => exact .inl run
    | ends _ _ landed => exact .inr (landed ok present)

theorem swRunning_invariant (x : Transfer s n tms tdi) : x.Invariant x.SwRunning where
  running h := ⟨_, h.run⟩
  latch w h := h.latch w
  step {u v e} h ok present enabled taken := by
    have sw : u.g.engine = .sw := by rw [h.run.g]; exact h.kind
    cases e with
    | swBitStep =>
      simp only [State.engineEnabled, State.swBitStepEnabled, Bool.and_eq_true, decide_eq_true_eq] at enabled
      exact .inl (h.swBitStep enabled.2 taken)
    | swEnd =>
      simp only [State.engineEnabled, State.swEndEnabled, Bool.and_eq_true, decide_eq_true_eq] at enabled
      exact .inr (h.swEnd enabled.2 ok present taken)
    | feed => simp [State.engineEnabled, State.feedEnabled, sw] at enabled
    | drain => simp [State.engineEnabled, State.drainEnabled, sw] at enabled
    | bitStep => simp [State.engineEnabled, State.bitStepEnabled, sw] at enabled
    | rxPush => simp [State.engineEnabled, State.rxPushEnabled, sw] at enabled
    | hwEnd => simp [State.engineEnabled, State.hwEndEnabled, sw] at enabled

theorem Landed.latch (landed : x.Landed u) (w : WriteOutcome) : x.Landed { u with write := w } :=
  ⟨landed.g, landed.sessions, landed.released, landed.target, landed.pins⟩

/-- One engine input keeps the transfer in flight or lands it, and after the landing does nothing. -/
theorem Invariant.perform {P : State → Prop} (hP : x.Invariant P) (present : x.se.gone = false) {e : EngineStep}
    {w : WriteOutcome} (ok : w.ok = true) (h : P u ∨ x.Landed u) (taken : u.perform (.engine e w) = .next v) :
    P v ∨ x.Landed v := by
  rcases State.engineStep_eq_next taken with rfl | ⟨answers, k, se, owner, at_k, enabled, effect⟩
  · exact h.imp (hP.latch w) fun landed => landed.latch w
  · rcases h with flying | landed
    · obtain ⟨collected, run⟩ := hP.running (hP.latch w flying)
      obtain rfl : s.serving = k := Option.some.inj (run.owner_eq.symm.trans owner)
      obtain rfl : x.owner = se := Option.some.inj (run.at_owner.symm.trans at_k)
      exact hP.step (hP.latch w flying) ok present (x.count ▸ enabled) effect
    · simp [State.engineAnswers, landed.g] at answers

/-- Any schedule that leaves the engine free has landed the transfer. -/
theorem Invariant.lands {P : State → Prop} (hP : x.Invariant P) (present : x.se.gone = false) {es : List EngineStep}
    (h : P u ∨ x.Landed u) (taken : u.performAll (engineInputs es) = .next v) (free : v.g.busy = false) : x.Landed v := by
  induction es generalizing u with
  | nil =>
    cases taken
    refine h.resolve_left fun flying => ?_
    obtain ⟨_, run⟩ := hP.running flying
    simp [run.busy] at free
  | cons e es ih =>
    obtain ⟨u', first, rest⟩ := (andThen_eq_next ..).1 taken
    exact ih (hP.perform present rfl h first) rest

/-- A SHIFT that starts a transfer, on either engine, lands it whatever the schedule. -/
theorem lands_of_busy {s1 s2 : State} {se : Session} {es : List EngineStep} (at_k : s.sessions[s.serving]? = some se)
    (present : se.gone = false) (idle : s.g.busy = false) (taken : exec (.shift n tms tdi) s = .next s1)
    (busy : s1.g.busy = true) (schedule : s1.performAll (engineInputs es) = .next s2) (free : s2.g.busy = false) :
    ∃ x : Transfer s n tms tdi, x.se = se ∧ x.Landed s2 := by
  obtain ⟨x, rfl⟩ := Transfer.of_busy idle taken busy
  obtain rfl : x.se = se := Option.some.inj (x.at_k.symm.trans at_k)
  refine ⟨x, rfl, ?_⟩
  cases kind : s.g.engine with
  | hw => exact x.hwRunning_invariant.lands present (.inl (.start kind)) schedule free
  | sw => exact x.swRunning_invariant.lands present (.inl (.start kind)) schedule free

theorem pinsAfter_of_pos (p : Pins) (tms tdi : List Byte) {i : Nat} (positive : 1 ≤ i) :
    pinsAfter p tms tdi i =
      { tck := false, tms := vecBit tms (i - 1), tdi := vecBit tdi (i - 1), driven := p.driven ++ edgePairs i tms tdi } := by
  obtain ⟨m, rfl⟩ := Nat.exists_eq_add_of_le' positive
  rfl

/-- What the statements about a whole transfer say of its end. -/
def Result (s s2 : State) (se : Session) (n : Word) (tms tdi : List Byte) : Prop :=
  s2.sessions[s.serving]? =
    some { se with
      tx := se.tx ++ transferReply s.cfg s.target n.toNat tms tdi
      seen := se.seen ++ transferReply s.cfg s.target n.toNat tms tdi
      tmsSlot := none, tdiSlot := none, tdoSlot := none, hlen := 0, plen := 0, kind := none
      phase := .awaitingCommand } ∧
  (∀ j, j ≠ s.serving → s2.sessions[j]? = s.sessions[j]?) ∧
  s2.target = targetAt s.cfg s.target tms tdi n.toNat ∧
  s2.p =
    { tck := false, tms := vecBit tms (n.toNat - 1), tdi := vecBit tdi (n.toNat - 1)
      driven := s.p.driven ++ edgePairs n.toNat tms tdi } ∧
  s2.g.owner = none ∧ s2.g.div = s.g.div ∧ s2.g.backendValid = true ∧
  ∀ a, (se.tmsSlot = some a ∨ se.tdiSlot = some a ∨ s.arena.findIdx? (fun x => x.owner.isNone) = some a) →
    ∃ sl, s2.arena[a]? = some sl ∧ sl.owner = none

theorem Landed.result (landed : x.Landed v) (positive : 1 ≤ n.toNat) : Result s v x.se n tms tdi := by
  obtain ⟨g, sessions, released, target, pins⟩ := landed
  refine ⟨?_, fun j other => ?_, target, by rw [pins, pinsAfter_of_pos _ _ _ positive], by rw [g], by rw [g],
    by rw [g]; exact x.valid, fun a named => released a ?_⟩
  · rw [sessions, List.getElem?_set_self (List.getElem?_eq_some_iff.1 x.at_k).1]
    rfl
  · rw [sessions, List.getElem?_set_ne other.symm]
  · rw [x.tmsHeld, x.tdiHeld, x.lowest.findIdx?] at named
    simpa only [Option.some.injEq, eq_comm] using named

/-- The whole of a transfer, on either engine (R146). -/
theorem result_of_busy {s1 s2 : State} {se : Session} {es : List EngineStep} (at_k : s.sessions[s.serving]? = some se)
    (present : se.gone = false) (idle : s.g.busy = false) (wf : (Instr.shift n tms tdi).wf s.cfg = true)
    (taken : exec (.shift n tms tdi) s = .next s1) (busy : s1.g.busy = true)
    (schedule : s1.performAll (engineInputs es) = .next s2) (free : s2.g.busy = false) : Result s s2 se n tms tdi := by
  obtain ⟨x, rfl, landed⟩ := lands_of_busy at_k present idle taken busy schedule free
  obtain ⟨positive, -⟩ := countError_eq_none.1 (Instr.wf_shift_iff.1 wf).1
  exact landed.result positive

end Transfer

/-- Settles O24: the schedule keeps the hardware transfer in flight until it lands. -/
theorem hardwareTransferResult : Obligations.HardwareTransferResult := by
  unfold Obligations.HardwareTransferResult
  intro s s1 s2 se n tms tdi es at_k present idle _ wf taken busy schedule free
  exact Transfer.result_of_busy at_k present idle wf taken busy schedule free

/-- Settles O25: the schedule keeps the software transfer in flight until it lands. -/
theorem softwareTransferResult : Obligations.SoftwareTransferResult := by
  unfold Obligations.SoftwareTransferResult
  intro s s1 s2 se n tms tdi es at_k present idle _ wf taken busy schedule free
  exact Transfer.result_of_busy at_k present idle wf taken busy schedule free

/-- Settles O26: both variants land, and what a landing leaves does not depend on `G.ENGINE`. -/
theorem variantsAgree : Obligations.VariantsAgree := by
  unfold Obligations.VariantsAgree
  intro s h1 h2 w1 w2 se n tms tdi eh ew at_k present idle _ takenH busyH takenW busyW scheduleH freeH scheduleW freeW
  obtain ⟨x, rfl, hw⟩ := Transfer.lands_of_busy (s := { s with g := { s.g with engine := .hw } }) at_k present idle takenH
    busyH scheduleH freeH
  obtain ⟨y, same, sw⟩ := Transfer.lands_of_busy (s := { s with g := { s.g with engine := .sw } }) at_k present idle takenW
    busyW scheduleW freeW
  have served : x.served = y.served := by rw [Transfer.served, Transfer.served, same]
  exact ⟨by rw [hw.sessions, sw.sessions, served], hw.target.trans sw.target.symm, hw.pins.trans sw.pins.symm⟩

end Sys2Proof.Machine
end

section
/-! A hardware transfer counted in steps (41_shift_engine.md R158): along a run of enabled steps the engine's registers count
them, and the last is the end step. -/

namespace Sys2Proof.Machine

theorem length_eq_count (es : List EngineStep) :
    es.length = es.count .feed + es.count .drain + es.count .bitStep + es.count .rxPush + es.count .hwEnd +
      es.count .swBitStep + es.count .swEnd := by
  induction es with
  | nil => rfl
  | cons e es ih =>
    rw [List.length_cons, ih]
    cases e <;> simp only [List.count_cons, reduceCtorEq, beq_iff_eq, if_true, if_false] <;> omega

theorem EngineRun.eq_nil_of_free {es : List EngineStep} {u v : State} (run : EngineRun es u v) (free : u.g.busy = false) :
    es = [] ∧ v = u := by
  cases run with
  | nil => exact ⟨rfl, rfl⟩
  | cons enabled => simp [State.engineStepEnabled, State.engineAnswers, free] at enabled

/-- An enabled step of the owner takes effect (R167). -/
theorem State.engineStep_of_enabled {s : State} {e : EngineStep} {k : Nat} {se : Session} (answers : s.engineAnswers = true)
    (owner : s.g.owner = some k) (at_k : s.sessions[k]? = some se) (enabled : s.engineEnabled e se.n = true) :
    s.engineStep e = s.engineEffect e k se := by
  simp only [State.engineStep, answers, owner, at_k, enabled, if_true]

namespace Transfer

variable {s : State} {n : Word} {tms tdi : List Byte} {x : Transfer s n tms tdi} {u v : State}

theorem HwRunning.answers (running : x.HwRunning u) (answering : s.e.hung = false) : u.engineAnswers = true := by
  rw [State.engineAnswers_iff, running.run.hung]
  exact ⟨running.run.busy, answering⟩

/-- The steps enabled in a hardware transfer are those enabled for its `n` bits (R152-R157, R167). -/
theorem HwRunning.engineStepEnabled_eq (running : x.HwRunning u) (answering : s.e.hung = false) (e : EngineStep) :
    u.engineStepEnabled e = u.engineEnabled e n := by
  have count : x.owner.n = n := x.count
  simp only [State.engineStepEnabled, running.answers answering, running.run.owner_eq, running.run.at_owner, count,
    Bool.true_and]

/-- An enabled step of a hardware transfer, taken as an input. -/
theorem HwRunning.perform (running : x.HwRunning u) (answering : s.e.hung = false) {e : EngineStep} (w : WriteOutcome)
    (enabled : u.engineStepEnabled e = true) :
    ∃ v, u.perform (.engine e w) = .next v ∧ x.HwStep e { u with write := w } v := by
  have latched := running.latch w
  have enabled' := (latched.engineStepEnabled_eq answering e).symm.trans enabled
  obtain ⟨v, effect, step⟩ := latched.step enabled'
  have count : x.owner.n = n := x.count
  exact ⟨v, (State.engineStep_of_enabled (latched.answers answering) latched.run.owner_eq latched.run.at_owner
    (by rw [count]; exact enabled')).trans effect, step⟩

/-- Along a run of enabled steps the engine counts every kind of step, up to the whole transfer's numbers at its end. -/
theorem HwRunning.run_progress (running : x.HwRunning u) (answering : s.e.hung = false) {es : List EngineStep}
    (run : EngineRun es u v) :
    (x.HwRunning v ∧ ∀ a, v.e.progress a = u.e.progress a + es.count a) ∨
      (v.g.busy = false ∧ ∀ a, stepsOf n a = u.e.progress a + es.count a) := by
  induction run with
  | nil => exact .inl ⟨running, fun a => rfl⟩
  | @cons e es u u' v enabled taken rest ih =>
    obtain ⟨v', answer, step⟩ := running.perform answering _ enabled
    cases answer.symm.trans taken
    have split (a : EngineStep) : (e :: es).count a = [e].count a + es.count a := List.count_append (l₁ := [e])
    cases step with
    | goesOn running' progress =>
      refine (ih running').imp (fun ⟨there, counts⟩ => ⟨there, fun a => ?_⟩) fun ⟨free, counts⟩ => ⟨free, fun a => ?_⟩
      · rw [counts, progress, split, Nat.add_assoc]
      · rw [counts, progress, split, Nat.add_assoc]
    | ends free progress _ =>
      obtain ⟨rfl, rfl⟩ := rest.eq_nil_of_free free
      exact .inr ⟨free, progress⟩

theorem HwRunning.progress_le (running : x.HwRunning u) (a : EngineStep) : u.e.progress a ≤ stepsOf n a := by
  have shifts := running.shifts
  cases a with
  | feed => exact shifts.fed
  | drain => exact (Nat.le_add_right _ _).trans shifts.pushed_le
  | bitStep => exact Nat.le.intro ((Nat.add_comm _ _).trans shifts.cntA)
  | rxPush => exact shifts.pushed_le
  | hwEnd | swBitStep | swEnd => exact Nat.zero_le _

end Transfer

theorem length_le_of_count_le {es : List EngineStep} {n : Word} (counts : ∀ a, es.count a ≤ stepsOf n a) :
    es.length ≤ n.toNat + 3 * vectorWords n + 1 := by
  have length := length_eq_count es
  have feed := counts .feed
  have drain := counts .drain
  have bitStep := counts .bitStep
  have rxPush := counts .rxPush
  have hwEnd := counts .hwEnd
  have swBitStep := counts .swBitStep
  have swEnd := counts .swEnd
  simp only [stepsOf] at feed drain bitStep rxPush hwEnd swBitStep swEnd
  omega

/-- Settles O27: from a start, where nothing is counted yet, the engine counts the steps of a run. -/
theorem hardwareTransferTerminates : Obligations.HardwareTransferTerminates := by
  unfold Obligations.HardwareTransferTerminates
  intro s s1 s2 n tms tdi es idle hw answering deep _ taken busy run
  obtain ⟨x, rfl⟩ := Transfer.of_busy idle taken busy
  have started : x.HwRunning (State.transferStart n x.dispatched) := .start hw
  have fresh (a : EngineStep) : (State.transferStart n x.dispatched).e.progress a = 0 := by
    rw [State.transferStart_of_hw (by exact hw)]
    cases a <;> rfl
  rcases started.run_progress answering run with ⟨running, counts⟩ | ⟨free, counts⟩
  · simp only [fresh, Nat.zero_add] at counts
    refine ⟨length_le_of_count_le fun a => counts a ▸ running.progress_le a, fun _ => ?_, fun free => ?_⟩
    · obtain ⟨e, enabled⟩ := running.some_enabled deep
      rw [← running.engineStepEnabled_eq answering] at enabled
      obtain ⟨s3, answer, -⟩ := running.perform answering _ enabled
      exact ⟨e, s3, enabled, answer⟩
    · simp [running.run.busy] at free
  · simp only [fresh, Nat.zero_add] at counts
    refine ⟨length_le_of_count_le fun a => (counts a).ge, fun busy => by simp [free] at busy, fun _ => ?_⟩
    exact ⟨(counts .bitStep).symm, (counts .feed).symm, (counts .rxPush).symm, (counts .drain).symm, (counts .hwEnd).symm⟩

end Sys2Proof.Machine
end

section
/-! The phases of a session and single flight under every step (42_session.md R185, R201, R203), read off the ways one input can
change the phases. -/

namespace Sys2Proof.Machine

/-- The transition table of a session's phase, staying and closing included (R185). -/
def Phase.Moves (p q : Phase) : Prop :=
  q = p ∨ q = .closed ∨ (p = .closed ∧ q = .accepted) ∨ (p = .accepted ∧ q = .awaitingCommand) ∨
  (p = .awaitingCommand ∧ q = .dispatching) ∨ (p = .dispatching ∧ q = .awaitingCommand)

/-- Every effect moves a phase along the table; a transfer's end moves the one session that dispatches (R185, R201). -/
theorem PhaseEffect.moves {s t : State} (h : PhaseEffect s t) (single : s.SingleFlight) {j : Nat} {p q : Phase}
    (before : s.phaseAt j = some p) (after : t.phaseAt j = some q) : p.Moves q := by
  have stays (same : t.phaseAt j = s.phaseAt j) : p.Moves q :=
    .inl (Option.some.inj (after.symm.trans (same.trans before)))
  have was {r : Phase} (h : s.phaseAt j = some r) : p = r := Option.some.inj (before.symm.trans h)
  have becomes {r : Phase} (h : t.phaseAt j = some r) : q = r := Option.some.inj (after.symm.trans h)
  cases h with
  | kept flight same => exact stays (same j)
  | moved k p' q' flight hp hq others idle quiet table =>
    by_cases hj : j = k
    · subst hj
      obtain rfl := was hp
      obtain rfl := becomes hq
      rcases table with closes | same | accepts | starts
      · exact .inr (.inl closes)
      · exact .inl same
      · exact .inr (.inr (.inl accepts))
      · exact .inr (.inr (.inr (.inl starts)))
    · exact stays (others j hj)
  | started k free flight hp hq others =>
    by_cases hj : j = k
    · subst hj
      exact .inr (.inr (.inr (.inr (.inl ⟨was hp, becomes hq⟩))))
    · exact stays (others j hj)
  | freed k busy owner flight ends others =>
    by_cases hj : j = k
    · subst hj
      have dispatching : s.phaseAt j = some .dispatching := ((s.singleFlight_iff.1 single).2 j).2 owner
      rcases ends q after with returns | closes
      · exact .inr (.inr (.inr (.inr (.inr ⟨was dispatching, returns⟩))))
      · exact .inr (.inl closes)
    · exact stays (others j hj)
  | cleared idle policy closed => exact .inr (.inl (closed j q after))

/-- Taking the input and latching leave BUSY, OWNER and the sessions as they are. -/
theorem State.SingleFlight.latched {s : State} (single : s.SingleFlight) (i : Input) :
    (s.takeInput.latch i).SingleFlight := by
  obtain ⟨-, g, sessions, -⟩ := s.latched_frame i
  rwa [State.SingleFlight, g, sessions]

/-- Settles O46: the input that the step takes has an effect on the phases, and every such effect keeps to the table. -/
theorem phaseTransitionsAreThoseOfTheTable : Obligations.PhaseTransitionsAreThoseOfTheTable := by
  unfold Obligations.PhaseTransitionsAreThoseOfTheTable
  intro s t k se se' single stepped at_k at_k'
  obtain ⟨-, effect⟩ := step_effect stepped
  obtain ⟨-, -, sessions, -⟩ := s.latched_frame s.nextInput
  exact effect.phases.moves (single.latched _) (State.phaseAt_of_some (by rw [sessions, at_k])) (State.phaseAt_of_some at_k')

/-- Settles O50: every effect on the phases keeps BUSY, OWNER and the dispatching session together. -/
theorem singleFlightIsKept : Obligations.SingleFlightIsKept := by
  unfold Obligations.SingleFlightIsKept
  intro s t single stepped
  obtain ⟨-, effect⟩ := step_effect stepped
  exact effect.phases.singleFlight (single.latched _)

end Sys2Proof.Machine
end

section
/-! A reply write that fails closes the session with `E_WRITE` (42_session.md R192, R193): after GETINFO and SETTCK, and at the
end of a transfer (40_commands.md R127). -/

namespace Sys2Proof.Machine

/-- Where the write is drawn to fail, or the peer has reset the connection, the session closes and nothing follows (R193). -/
theorem State.emitThen_of_failed {s : State} {k : Nat} {se : Session} (at_k : s.sessions[k]? = some se)
    (failed : s.write.ok = false ∨ se.gone = true) (bytes : List Byte) (cont : State → State) :
    s.emitThen k bytes cont =
      (s.mapSession k fun se => { se with seen := se.seen ++ bytes.take s.write.delivered }).close k .write := by
  rw [State.emitThen_of_some s k bytes cont se at_k, if_neg]
  rintro ⟨ok, connected⟩
  rcases failed with notOk | gone
  · simp [ok] at notOk
  · simp [connected] at gone

/-- The session after a failed reply write: TX as it was, a drawn prefix of the reply with the host (R193). -/
theorem State.emitThen_of_failed_session {s : State} {k : Nat} {se : Session} (at_k : s.sessions[k]? = some se)
    (failed : s.write.ok = false ∨ se.gone = true) (bytes : List Byte) (cont : State → State) :
    (s.emitThen k bytes cont).sessions[k]? =
      some (Session.closed .write { se with seen := se.seen ++ bytes.take s.write.delivered }) := by
  rw [State.emitThen_of_failed at_k failed, State.close_sessions, State.mapSession_sessions, List.modify_modify_eq,
    List.getElem?_modify_eq, at_k]
  rfl

/-- Slot `a` after a failed reply write: free if the session held it, its bytes untouched (R193; 60_exceptions.md R215). -/
theorem State.emitThen_of_failed_slot {s : State} {k a : Nat} {se : Session} {sl : Slot} (at_k : s.sessions[k]? = some se)
    (failed : s.write.ok = false ∨ se.gone = true) (at_a : s.arena[a]? = some sl) (bytes : List Byte)
    (cont : State → State) :
    (s.emitThen k bytes cont).arena[a]? =
      some { sl with
        owner := if se.tmsSlot = some a ∨ se.tdiSlot = some a ∨ se.tdoSlot = some a then none else sl.owner } := by
  have heard : (s.mapSession k fun se => { se with seen := se.seen ++ bytes.take s.write.delivered }).sessions[k]? =
      some { se with seen := se.seen ++ bytes.take s.write.delivered } := by simp [at_k]
  rw [State.emitThen_of_failed at_k failed]
  exact State.close_slot heard at_a .write

theorem OnlyStorage.emitThen_restart (s : State) (k : Nat) (bytes : List Byte) :
    OnlyStorage s (s.emitThen k bytes (State.restart k)) :=
  OnlyStorage.emitThen s k bytes _ fun u => OnlyStorage.mapSession u k _

/-- Settles O17: either command is a reply write, SETTCK's after the write of the divisor. -/
theorem failedReplyWriteCloses : Obligations.FailedReplyWriteCloses := by
  unfold Obligations.FailedReplyWriteCloses
  intro s se at_k failed
  refine ⟨?_, fun p => ?_⟩
  · simp only [exec, execGetInfo, at_k]
    exact ⟨_, rfl, (OnlyStorage.emitThen_restart s _ _).g, State.emitThen_of_failed_session at_k failed _ _⟩
  · have at_k' : (s.setDivisor p).sessions[s.serving]? = some se := by rw [State.setDivisor_eq]; exact at_k
    have failed' : (s.setDivisor p).write.ok = false ∨ se.gone = true := by rw [State.setDivisor_eq]; exact failed
    simp only [exec, execSetTck, at_k]
    refine ⟨_, rfl, ?_, ?_⟩
    · rw [(OnlyStorage.emitThen_restart (s.setDivisor p) _ _).g, State.setDivisor_eq]
    · rw [State.emitThen_of_failed_session at_k' failed', State.setDivisor_eq]
      rfl

/-- Where the TDO slot can be read, the end of a transfer frees the engine and replies with its bytes (40_commands.md R127). -/
theorem State.shiftEnd_of_read {s : State} {k o : Nat} {se : Session} {bytes : List Byte} (held : se.tdoSlot = some o)
    (read : s.memRead o 0 (vectorBytes se.n) = .next bytes) :
    s.shiftEnd k se = .next (s.freed.emitThen k bytes (State.shiftRelease k)) := by
  have readFreed : s.freed.memRead o 0 (vectorBytes se.n) = .next bytes := read
  rw [State.freed] at readFreed
  simp only [State.shiftEnd, State.freed, held, readFreed, andThen_next]

/-- Both variants end a transfer alike, the hardware one after it has stopped its machines (R127; 41_shift_engine.md R157,
R163). -/
theorem State.engineEffect_end {e : EngineStep} (ends : e = .hwEnd ∨ e = .swEnd) (k : Nat) (se : Session) (s : State) :
    ∃ stopped : Engine, s.engineEffect e k se = State.shiftEnd k se { s with e := stopped } := by
  rcases ends with rfl | rfl
  · exact ⟨_, rfl⟩
  · exact ⟨s.e, rfl⟩

/-- An enabled engine step is one that the owner's count enables while the engine answers (41_shift_engine.md R167). -/
theorem State.engineStepEnabled_iff {s : State} {e : EngineStep} {k : Nat} {se : Session} (owner : s.g.owner = some k)
    (at_k : s.sessions[k]? = some se) :
    s.engineStepEnabled e = true ↔ s.engineAnswers = true ∧ s.engineEnabled e se.n = true := by
  simp only [State.engineStepEnabled, owner, at_k, Bool.and_eq_true]

/-- Settles O28: the end step frees the engine, and its reply write fails. -/
theorem failedTransferReplyCloses : Obligations.FailedTransferReplyCloses := by
  unfold Obligations.FailedTransferReplyCloses
  intro s k o se bytes e w ends enabled owner at_k held read failed
  obtain ⟨answers, enabled⟩ := (State.engineStepEnabled_iff owner at_k).1 enabled
  obtain ⟨stopped, ended⟩ := State.engineEffect_end ends k se { s with write := w }
  let u : State := { s with write := w, e := stopped }
  have stepped : s.perform (.engine e w) = .next (u.freed.emitThen k bytes (State.shiftRelease k)) := by
    rw [State.perform, State.engineStep_of_enabled (s := { s with write := w }) answers owner at_k enabled, ended]
    exact State.shiftEnd_of_read held read
  have frame : OnlyStorage u.freed (u.freed.emitThen k bytes (State.shiftRelease k)) :=
    OnlyStorage.emitThen _ k bytes _ fun v => OnlyStorage.shiftRelease v k
  exact ⟨_, stepped, frame.g, frame.p, frame.target,
    State.emitThen_of_failed_session (s := u.freed) at_k failed bytes _,
    fun a sl at_a => State.emitThen_of_failed_slot (s := u.freed) at_k failed at_a bytes _⟩

end Sys2Proof.Machine
end

section
/-! The environment's events and the session steps beside the decoder (42_session.md R186-R194), and that BUSY disables them
(R203). -/

namespace Sys2Proof.Machine

/-! ## Accept -/

theorem State.accept_of_not_loopFree {s : State} (stopped : s.loopFree = false) : s.accept = s := by
  simp [State.accept, stopped]

/-- The lowest closed slot is taken (R186). -/
theorem State.accept_of_lowest {s : State} {k : Nat} {se : Session} (free : s.loopFree = true)
    (at_k : s.sessions[k]? = some se) (closed : se.phase = .closed)
    (lowest : ∀ (j : Nat) (sj : Session), j < k → s.sessions[j]? = some sj → sj.phase ≠ .closed) :
    s.accept = s.acceptInto k := by
  obtain ⟨inside, rfl⟩ := List.getElem?_eq_some_iff.1 at_k
  have found : s.sessions.findIdx? (fun se => decide (se.phase = .closed)) = some k := by
    refine List.findIdx?_eq_some_iff_getElem.2 ⟨inside, by simp [closed], fun j below => ?_⟩
    simpa using lowest j _ below (List.getElem?_eq_getElem (below.trans inside))
  simp [State.accept, free, found]

/-- Without a closed slot there is nothing to take (R186). -/
theorem State.accept_of_full {s : State} (full : ∀ se ∈ s.sessions, se.phase ≠ .closed) : s.accept = s := by
  have noneClosed : s.sessions.findIdx? (fun se => decide (se.phase = .closed)) = none := by
    simpa [List.findIdx?_eq_none_iff] using full
  simp [State.accept, noneClosed]

/-- Settles O36: the loop's guard, then the search for the lowest closed slot. -/
theorem acceptTakesLowestClosedSlot : Obligations.AcceptTakesLowestClosedSlot := by
  unfold Obligations.AcceptTakesLowestClosedSlot
  refine ⟨fun s k se idle running at_k closed lowest => ?_, fun s disabled => congrArg Host.Outcome.next ?_⟩
  · have free : s.loopFree = true := s.loopFree_iff.2 ⟨idle, running⟩
    rw [State.perform, State.accept_of_lowest free at_k closed lowest, State.acceptInto_eq, State.mapSession,
      modify_eq_set _ at_k]
    rfl
  · rcases disabled with busy | halted | full
    · exact State.accept_of_not_loopFree (by simp [State.loopFree, busy])
    · exact State.accept_of_not_loopFree (by simp [State.loopFree, halted])
    · exact State.accept_of_full full

/-! ## Arrivals and the end-of-stream -/

/-- A session that has received `bytes`, if it takes any (R187). -/
def Session.receive (bytes : List Byte) (se : Session) : Session :=
  { se with rx := if se.phase ≠ .closed ∧ se.eof = false then se.rx ++ bytes else se.rx }

/-- A session that has been told of the end-of-stream, if it is open (R189). -/
def Session.endStream (se : Session) : Session := { se with eof := se.eof || decide (se.phase ≠ .closed) }

theorem State.arrive_eq (s : State) (k : Nat) (bytes : List Byte) :
    s.arrive k bytes = s.mapSession k (Session.receive bytes) := by
  refine congrArg (s.mapSession k) (funext fun se => ?_)
  by_cases takes : se.phase ≠ .closed ∧ se.eof = false
  · simp [Session.receive, Session.isOpen, takes]
  · have refuses : ¬(se.isOpen && !se.eof) = true := by simpa [Session.isOpen] using takes
    rw [if_neg refuses, Session.receive, if_neg takes]

theorem State.peerEof_eq (s : State) (k : Nat) : s.peerEof k = s.mapSession k Session.endStream := by
  refine congrArg (s.mapSession k) (funext fun se => ?_)
  have byOpen : se.endStream = { se with eof := se.eof || se.isOpen } := rfl
  rw [byOpen]
  cases se.isOpen <;> simp

/-- A byte sequence may arrive in two parts (R187). -/
theorem Session.receive_receive (xs ys : List Byte) (se : Session) :
    (se.receive xs).receive ys = se.receive (xs ++ ys) := by
  by_cases takes : se.phase ≠ .closed ∧ se.eof = false
  · simp [Session.receive, takes]
  · simp only [Session.receive, if_neg takes]

/-- Settles O37: the two events are the updates of the one session, and those of two arrivals compose. -/
theorem arrivalsOnlyAppend : Obligations.ArrivalsOnlyAppend := by
  unfold Obligations.ArrivalsOnlyAppend
  refine ⟨fun s k se bytes at_k => ?_, fun s k se at_k => ?_, fun s k xs ys => ?_⟩
  · rw [State.perform, State.arrive_eq, State.mapSession, modify_eq_set _ at_k]
    rfl
  · rw [State.perform, State.peerEof_eq, State.mapSession, modify_eq_set _ at_k]
    rfl
  · have both : Session.receive ys ∘ Session.receive xs = Session.receive (xs ++ ys) :=
      funext (Session.receive_receive xs ys)
    simp only [State.performAll, State.perform, andThen_next, State.arrive_eq, State.mapSession_mapSession, both]

/-! ## The loop's steps that read no byte -/

theorem State.sessionStep_of_not_loopFree {s : State} (stopped : s.loopFree = false) (k : Nat) :
    s.sessionStep k = .next s := by
  cases at_k : s.sessions[k]? with
  | none => simp only [State.sessionStep, at_k]
  | some se => simp [State.sessionStep, at_k, stopped]

/-- The init step (R188). -/
theorem State.sessionStep_of_accepted {s : State} {k : Nat} {se : Session} (free : s.loopFree = true)
    (at_k : s.sessions[k]? = some se) (phase : se.phase = .accepted) : s.sessionStep k = .next (s.init k) := by
  simp only [State.sessionStep, at_k, free, phase, if_true]

/-- The end-of-stream step (R190, R198). -/
theorem State.sessionStep_of_endOfStream {s : State} {k : Nat} {se : Session} (free : s.loopFree = true)
    (at_k : s.sessions[k]? = some se) (phase : se.phase = .awaitingCommand) (incomplete : se.complete = false)
    (drained : se.rx = []) (eof : se.eof = true) : s.sessionStep k = .next (s.endOfStream k se) := by
  simp [State.sessionStep, State.awaitingStep, at_k, free, phase, incomplete, drained, eof]

/-- The reason of the close at the end-of-stream (R190). -/
theorem State.endOfStream_eq (s : State) (k : Nat) (se : Session) :
    s.endOfStream k se = s.close k (if se.kind ≠ none ∨ 0 < se.hlen then .eofMidCmd else .peerClosed) := by
  simp only [State.endOfStream, Bool.or_eq_true, decide_eq_true_eq, Option.isSome_iff_ne_none]
  split <;> rfl

/-- Settles O38: the loop serves the one step each time, and neither reads the latch. -/
theorem initAndEndOfStream : Obligations.InitAndEndOfStream := by
  unfold Obligations.InitAndEndOfStream
  refine ⟨fun s k w se free at_k phase => ?_, fun s k w se free at_k phase incomplete drained eof => ?_⟩
  · rw [State.perform, State.sessionStep_of_accepted (s := { s with serving := k, write := w }) free at_k phase, State.init,
      State.mapSession, modify_eq_set _ at_k]
  · rw [State.perform, State.sessionStep_of_endOfStream (s := { s with serving := k, write := w }) free at_k phase incomplete
      drained eof, State.endOfStream_eq]

/-! ## Peer reset and idle expiry -/

/-- Outside a transfer a peer reset closes the session (R191). -/
theorem State.peerReset_of_idle {s : State} {k : Nat} {se : Session} (at_k : s.sessions[k]? = some se)
    (idle : s.g.busy = false) (phase : se.phase = .accepted ∨ se.phase = .awaitingCommand) :
    s.peerReset k = s.close k .peerReset := by
  rcases phase with phase | phase <;> simp [State.peerReset, at_k, phase, idle]

/-- A session that is not dispatching is not reset during a transfer, nor when it is closed (R191, R203). -/
theorem State.peerReset_of_disabled {s : State} {k : Nat} {se : Session} (at_k : s.sessions[k]? = some se)
    (disabled : s.g.busy = true ∨ se.phase = .closed) (phase : se.phase ≠ .dispatching) : s.peerReset k = s := by
  cases hp : se.phase with
  | closed => simp [State.peerReset, at_k, hp]
  | dispatching => exact absurd hp phase
  | accepted | awaitingCommand => simp [State.peerReset, at_k, hp, disabled.resolve_right (by simp [hp])]

/-- Outside a transfer an idle expiry closes a session that awaits a command (R194). -/
theorem State.idle_of_awaiting {s : State} {k : Nat} {se : Session} (at_k : s.sessions[k]? = some se)
    (idle : s.g.busy = false) (phase : se.phase = .awaitingCommand) : s.idle k = s.close k .idle := by
  simp [State.idle, at_k, phase, idle]

theorem State.idle_of_busy {s : State} (busy : s.g.busy = true) (k : Nat) : s.idle k = s := by
  cases at_k : s.sessions[k]? <;> simp [State.idle, at_k, busy]

theorem State.idle_of_not_awaiting {s : State} {k : Nat} {se : Session} (at_k : s.sessions[k]? = some se)
    (phase : se.phase ≠ .awaitingCommand) : s.idle k = s := by
  simp [State.idle, at_k, phase]

/-- Settles O39: by the phase of the session, inside and outside a transfer. -/
theorem peerResetAndIdleClose : Obligations.PeerResetAndIdleClose := by
  unfold Obligations.PeerResetAndIdleClose
  intro s k se at_k
  refine ⟨fun idle phase => congrArg Host.Outcome.next (State.peerReset_of_idle at_k idle phase),
    fun idle phase => congrArg Host.Outcome.next (State.idle_of_awaiting at_k idle phase),
    fun disabled phase => ⟨congrArg Host.Outcome.next (State.peerReset_of_disabled at_k disabled phase),
      congrArg Host.Outcome.next ?_⟩⟩
  rcases disabled with busy | closed
  · exact State.idle_of_busy busy k
  · exact State.idle_of_not_awaiting at_k (by simp [closed])

/-- Settles O55: a busy block is not free for the loop, and each of the other events asks for BUSY = 0 itself. -/
theorem busyDisablesSessionSteps : Obligations.BusyDisablesSessionSteps := by
  unfold Obligations.BusyDisablesSessionSteps
  intro s busy
  have stopped : s.loopFree = false := by simp [State.loopFree, busy]
  refine ⟨congrArg Host.Outcome.next (State.accept_of_not_loopFree stopped),
    fun k => congrArg Host.Outcome.next (State.idle_of_busy busy k),
    fun k w => State.sessionStep_of_not_loopFree (s := { s with serving := k, write := w }) stopped k,
    fun k se at_k phase => congrArg Host.Outcome.next (State.peerReset_of_disabled at_k (.inl busy) phase),
    fun x => congrArg Host.Outcome.next ?_⟩
  simp only [State.targetMoves, busy, if_true]

end Sys2Proof.Machine
end

section
/-! Taking an exception (60_exceptions.md R215, R219, R220, R221): the close of one session, the SHIFT on an invalid backend,
the hardware fault, and the halt, which closes the open sessions one by one. -/

namespace Sys2Proof.Machine

/-! ## The close -/

/-- Settles O40: the close is one update of its session and of the slots that session names. -/
theorem closeReleasesAndRecords : Obligations.CloseReleasesAndRecords := by
  unfold Obligations.CloseReleasesAndRecords
  intro s k code se at_k
  have frame := OnlyStorage.close s k code
  refine ⟨?_, fun a sl at_a => State.close_slot at_k at_a code, State.close_arena_length s k code, frame.cfg, frame.g,
    frame.e, frame.p, frame.target⟩
  rw [State.close_sessions, modify_eq_set _ at_k]
  rfl

/-- A close changes no byte of a slot, and its owner only to free it (R215). -/
theorem State.close_slot_before {s : State} {k a : Nat} {code : CloseReason} {sl' : Slot}
    (after : (s.close k code).arena[a]? = some sl') :
    ∃ sl, s.arena[a]? = some sl ∧ sl'.bytes = sl.bytes ∧ (sl'.owner = sl.owner ∨ sl'.owner = none) := by
  rw [State.close_arena, Option.map_eq_some_iff] at after
  obtain ⟨sl, before, rfl⟩ := after
  refine ⟨sl, before, ?_⟩
  split
  · exact ⟨rfl, .inr rfl⟩
  · exact ⟨rfl, .inl rfl⟩

/-- With an invalid backend SHIFT is a close with `E_BACKEND_INVALID`, whatever its operands (R220). -/
theorem exec_shift_of_invalid {s : State} {se : Session} (at_k : s.sessions[s.serving]? = some se)
    (invalid : s.g.backendValid = false) (n : Word) (tms tdi : List Byte) :
    exec (.shift n tms tdi) s =
      .next ((s.mapSession s.serving fun se => { se with phase := .dispatching }).close s.serving .backendInvalid) := by
  simp [exec, execShift, at_k, invalid]

/-- Settles O21: the SHIFT is a close, and a close takes no slot and writes no byte. -/
theorem shiftWithInvalidBackendCloses : Obligations.ShiftWithInvalidBackendCloses := by
  unfold Obligations.ShiftWithInvalidBackendCloses
  intro s se n tms tdi at_k invalid
  have frame := (OnlyStorage.mapSession s s.serving fun se => { se with phase := .dispatching }).trans
    (OnlyStorage.close _ s.serving .backendInvalid)
  refine ⟨_, exec_shift_of_invalid at_k invalid n tms tdi, frame.g, frame.e, frame.p, frame.target, ?_,
    fun a sl' after => (State.close_slot_before after :)⟩
  rw [State.close_sessions, State.mapSession_sessions, List.modify_modify_eq, List.getElem?_modify_eq, at_k]
  rfl

/-! ## The hardware fault -/

/-- The block at a hardware fault of owner `k`, before the owner closes: the engine stopped, the pins and the target as
drawn, the backend invalid and the fault on record (R219). -/
def State.engineFaulted (k : Nat) (tck tms tdi : Bool) (x : TargetState) (s : State) : State :=
  { s with
    e := { s.e with runA := false, runB := false, txfA := [], txfB := [], rxfB := [] }
    p := { s.p with tck := tck, tms := tms, tdi := tdi }
    target := x
    g :=
      { s.g with
        backendValid := false, busy := false, owner := none
        faultLog := s.g.faultLog ++ [{ session := k, bitIndex := s.e.i, info := .peripheralUnresponsiveOrDesynchronized }] } }

/-- During a hardware transfer the drawn fault is taken (41_shift_engine.md R166). -/
theorem State.perform_hwFault {s : State} {k : Nat} (tck tms tdi : Bool) (x : TargetState) (busy : s.g.busy = true)
    (hw : s.g.engine = .hw) (answers : s.e.hung = false) (owner : s.g.owner = some k) :
    s.perform (.hwFault tck tms tdi x) =
      .next (if s.cfg.hwFaultPolicy = .haltAll then ((s.engineFaulted k tck tms tdi x).close k .hwFault).halt
        else (s.engineFaulted k tck tms tdi x).close k .hwFault) := by
  have possible : s.faultPossible = true := s.faultPossible_iff.2 ⟨busy, answers, hw⟩
  rw [State.perform, State.drawFault, if_pos possible]
  simp only [State.hwFault, owner]
  rfl

/-- Settles O41: without the halt the fault is a close of the owner on the stopped engine. -/
theorem hardwareFaultEffect : Obligations.HardwareFaultEffect := by
  unfold Obligations.HardwareFaultEffect
  intro s k se tck tms tdi x busy hw answers owner at_k policy
  have performed := State.perform_hwFault tck tms tdi x busy hw answers owner
  rw [if_neg (by simp [policy])] at performed
  have frame := OnlyStorage.close (s.engineFaulted k tck tms tdi x) k .hwFault
  refine ⟨_, performed, frame.e, frame.p, frame.target, frame.g, ?_, fun a sl at_a => ?_⟩
  · rw [State.close_sessions]
    exact modify_eq_set _ at_k
  · exact State.close_slot (s := s.engineFaulted k tck tms tdi x) at_k at_a .hwFault

/-! ## The halt -/

/-- A session after the halt: an open one has closed with `E_HALTED` (R221). -/
def Session.halted (se : Session) : Session := if se.phase = .closed then se else se.closed .halted

theorem Session.halted_of_closed {se : Session} (closed : se.phase = .closed) : se.halted = se := if_pos closed

theorem Session.halted_of_open {se : Session} (isOpen : se.phase ≠ .closed) : se.halted = se.closed .halted :=
  if_neg isOpen

@[simp] theorem Session.halted_phase (se : Session) : se.halted.phase = .closed := by
  unfold Session.halted
  split
  · assumption
  · rfl

@[simp] theorem Session.halted_tx (se : Session) : se.halted.tx = se.tx := by
  unfold Session.halted
  split <;> rfl

@[simp] theorem Session.halted_halted (se : Session) : se.halted.halted = se.halted :=
  Session.halted_of_closed se.halted_phase

theorem State.closeIfOpen_sessions (s : State) (k : Nat) :
    (s.closeIfOpen k).sessions = s.sessions.modify k Session.halted := by
  cases at_k : s.sessions[k]? with
  | none => simp only [State.closeIfOpen, at_k, State.modify_of_none _ _ _ at_k]
  | some se =>
    simp only [State.closeIfOpen, at_k, modify_eq_set _ at_k]
    split
    · next closed =>
      obtain ⟨inside, rfl⟩ := List.getElem?_eq_some_iff.1 at_k
      rw [Session.halted_of_closed closed, List.set_getElem_self]
    · next isOpen => rw [Session.halted_of_open isOpen, State.close_sessions, modify_eq_set _ at_k]

/-- Closing the open sessions of a list halts exactly the sessions it names. -/
theorem State.foldl_closeIfOpen_session (l : List Nat) (s : State) (j : Nat) :
    (l.foldl (fun s k => s.closeIfOpen k) s).sessions[j]? =
      (s.sessions[j]?).map fun se => if j ∈ l then se.halted else se := by
  induction l generalizing s with
  | nil => simp
  | cons k l ih =>
    rw [List.foldl_cons, ih, State.closeIfOpen_sessions, List.getElem?_modify, Option.map_eq_map, Option.map_map]
    congr 1
    funext se
    by_cases named : k = j
    · simp [named]
    · simp [named, Ne.symm named]

/-- The halt halts every session (R221). -/
theorem State.halt_sessions (s : State) : s.halt.sessions = s.sessions.map Session.halted := by
  apply List.ext_getElem?
  intro j
  rw [State.halt, State.foldl_closeIfOpen_session, List.getElem?_map]
  refine Option.map_congr fun se at_j => if_pos ?_
  exact List.mem_range.2 (List.getElem?_eq_some_iff.1 at_j).1

/-- Session `j` after a close of session `k` and the halt: the owner keeps the reason of its own close (R219, R221). -/
theorem State.close_halt_session {s : State} {j : Nat} {sj : Session} (at_j : s.sessions[j]? = some sj) (k : Nat)
    (code : CloseReason) :
    (s.close k code).halt.sessions[j]? = some (if k = j then sj.closed code else sj.halted) := by
  rw [State.halt_sessions, State.close_sessions, List.getElem?_map, List.getElem?_modify, at_j]
  by_cases named : k = j
  · simp [named, Session.halted_of_closed (se := sj.closed code) rfl]
  · simp [named]

/-- Settles O42: the owner closes with the fault, then the halt closes every session that is still open. -/
theorem haltClosesEverySession : Obligations.HaltClosesEverySession := by
  unfold Obligations.HaltClosesEverySession
  intro s k tck tms tdi x busy hw answers owner policy
  have performed := State.perform_hwFault tck tms tdi x busy hw answers owner
  rw [if_pos policy] at performed
  have globals := (State.halt_frame ((s.engineFaulted k tck tms tdi x).close k .hwFault)).g
  rw [State.close_g] at globals
  refine ⟨_, performed, by rw [globals], by rw [globals]; rfl, by rw [globals]; rfl, ?_, fun j sj at_j => ?_⟩
  · rw [State.halt_sessions, State.close_sessions, List.length_map, List.length_modify]
    rfl
  · refine ⟨_, State.close_halt_session (s := s.engineFaulted k tck tms tdi x) at_j k .hwFault, ?_⟩
    by_cases named : k = j
    · rw [if_pos named]
      exact ⟨rfl, rfl, fun _ => rfl, fun other => absurd named.symm other, fun other => absurd named.symm other⟩
    · rw [if_neg named]
      refine ⟨sj.halted_phase, sj.halted_tx, fun same => absurd same.symm named, fun _ isOpen => ?_, fun _ closed => ?_⟩
      · rw [Session.halted_of_open isOpen]
        rfl
      · exact Session.halted_of_closed closed

end Sys2Proof.Machine
end

section
/-! Recovery is by block reset only (60_exceptions.md R223): what the other inputs can still do to a halted block, and that
none of them undoes a fault. -/

namespace Sys2Proof.Machine

/-! ## The halted block -/

theorem State.mapSession_of_fixed {s : State} {f : Session → Session} (fixed : ∀ se ∈ s.sessions, f se = se) (k : Nat) :
    s.mapSession k f = s := by
  have same : s.sessions.modify k f = s.sessions := by
    apply List.ext_getElem?
    intro j
    rw [List.getElem?_modify, Option.map_eq_map]
    cases at_j : s.sessions[j]? with
    | none => rfl
    | some se => simp [fixed se (List.mem_of_getElem? at_j)]
  rw [State.mapSession, same]

/-- Whatever can still happen to a halted block but for block reset: the target moves (R221, R223). -/
theorem Effect.moves_target_of_halted {s t : State} {i : Input} (h : Effect i s t) (halted : s.g.halted = true)
    (halt : s.HaltedClosed) (notReset : ∀ x, i ≠ .blockReset x) : ∃ x, t = { s with target := x } := by
  obtain ⟨idle, -, closed⟩ := halt halted
  have phase_closed {k : Nat} {se : Session} (at_k : s.sessions[k]? = some se) : se.phase = .closed :=
    closed se (List.mem_of_getElem? at_k)
  have notFree : ¬s.loopFree = true := by simp [State.loopFree, halted]
  have noAnswer : ¬s.engineAnswers = true := by simp [State.engineAnswers, idle]
  have noFault : ¬s.faultPossible = true := by simp [State.faultPossible, noAnswer]
  cases h with
  | nothing => exact ⟨s.target, rfl⟩
  | moved _ x => exact ⟨x, rfl⟩
  | arrived _ k bytes =>
    exact ⟨s.target, State.mapSession_of_fixed (fun se mem => by simp [Session.isOpen, closed se mem]) k⟩
  | ended _ k => exact ⟨s.target, State.mapSession_of_fixed (fun se mem => by simp [Session.isOpen, closed se mem]) k⟩
  | reset _ x => exact absurd rfl (notReset x)
  | lost _ _ _ at_k phase | peerClosed _ _ _ at_k phase | expired _ _ _ at_k phase =>
    simp [phase_closed at_k] at phase
  | faulted _ _ _ _ _ _ possible | hung _ possible => exact absurd possible noFault
  | engine _ _ _ _ _ _ answers => exact absurd answers noAnswer
  | accepted _ _ _ free | started _ _ _ _ free | executed _ _ _ _ _ _ free | decoded _ _ _ _ _ free
  | streamEnded _ _ _ _ free =>
    exact absurd free notFree

/-- Settles O43: the latch moves nothing of the block, and then at most the target moves. -/
theorem haltedBlockOnlyResets : Obligations.HaltedBlockOnlyResets := by
  unfold Obligations.HaltedBlockOnlyResets
  intro s t i halted halt notReset performed
  obtain ⟨cfg, g, sessions, arena, e, p, -⟩ := s.latch_frame i
  have latched : (s.latch i).HaltedClosed := by rwa [State.HaltedClosed, cfg, g, sessions]
  obtain ⟨x, rfl⟩ := (State.perform_effect performed).moves_target_of_halted (by rw [g]; exact halted) latched notReset
  exact ⟨cfg, g, sessions, arena, e, p⟩

/-! ## What only block reset undoes -/

/-- `g'` has the engine of `g`, and the backend, the halt and the fault records of `g` or worse (R223). -/
structure Globals.NotRecovered (g g' : Globals) : Prop where
  engine : g'.engine = g.engine
  backend : g.backendValid = false → g'.backendValid = false
  halt : g.halted = true → g'.halted = true
  log : g.faultLog <+: g'.faultLog

/-- Every effect but block reset's leaves the four registers alone, but for the fault, which marks all of them (R219). -/
theorem RegisterEffect.notRecovered {s t : State} {i : Input} (h : RegisterEffect s t i)
    (notReset : ∀ x, i ≠ .blockReset x) : s.g.NotRecovered t.g := by
  cases h with
  | reset x => exact absurd rfl (notReset x)
  | fault _ _ _ _ _ _ _ _ _ _ g =>
    rw [g]
    exact ⟨rfl, fun _ => rfl, fun halted => by simp [Globals.faulted, halted], List.prefix_append ..⟩
  | same _ _ g | divisor _ _ _ _ _ _ _ g | hwStart _ _ _ _ _ _ _ g | swStart _ _ _ _ _ _ g | hang _ _ g
  | feed _ _ _ _ _ _ _ g | drain _ _ _ _ _ _ g | bitStep _ _ _ _ g | rxPush _ _ _ _ g | hwEnd _ _ _ _ _ g
  | swBitStep _ _ _ _ _ _ _ g | swEnd _ _ _ _ _ g =>
    rw [g]
    exact ⟨rfl, id, id, List.prefix_rfl⟩

/-- Settles O52: no effect writes a parameter, and none but block reset's recovers. -/
theorem onlyResetRecovers : Obligations.OnlyResetRecovers := by
  unfold Obligations.OnlyResetRecovers
  constructor
  · intro s t stepped
    obtain ⟨-, effect⟩ := step_effect stepped
    exact effect.registers.cfg_eq.trans (s.latched_frame s.nextInput).1
  · intro s t i performed notReset
    obtain ⟨-, g, -⟩ := s.latch_frame i
    have after := (State.perform_effect performed).registers.notRecovered notReset
    rw [g] at after
    obtain ⟨engine, backend, halt, more, log⟩ := after
    exact ⟨engine, backend, halt, more, log.symm⟩

end Sys2Proof.Machine
end

section
/-! A hardware transfer whose driver never drains (70_reset_and_hazards.md R248): the received words fill SM_B's queue, the
machines stop, and the feed stops behind them. -/

namespace Sys2Proof.Machine

/-- A free engine takes no step (41_shift_engine.md R167). -/
theorem State.performAll_engineInputs_free {u v : State} {es : List EngineStep} (free : u.g.busy = false)
    (taken : u.performAll (engineInputs es) = .next v) : v.g.busy = false := by
  induction es generalizing u with
  | nil => cases taken; exact free
  | cons e es ih =>
    obtain ⟨u', first, rest⟩ := (andThen_eq_next ..).1 taken
    refine ih ?_ rest
    rcases State.engineStep_eq_next first with rfl | ⟨answers, -⟩
    · exact free
    · simp [State.engineAnswers, free] at answers

namespace Transfer

variable {s : State} {n : Word} {tms tdi : List Byte} {x : Transfer s n tms tdi} {u v : State}

/-- An engine input of a hardware transfer, enabled or not: it does nothing, or is a step of `HwStep` (R167). -/
theorem HwRunning.perform_cases (running : x.HwRunning u) {e : EngineStep} {w : WriteOutcome}
    (taken : u.perform (.engine e w) = .next v) : v = { u with write := w } ∨ x.HwStep e { u with write := w } v := by
  have latched := running.latch w
  refine (State.engineStep_eq_next taken).imp id fun ⟨_, k, se, owner, at_k, enabled, effect⟩ => ?_
  obtain rfl : s.serving = k := Option.some.inj (latched.run.owner_eq.symm.trans owner)
  obtain rfl : x.owner = se := Option.some.inj (latched.run.at_owner.symm.trans at_k)
  obtain ⟨v', answer, step⟩ := latched.step (x.count ▸ enabled)
  cases answer.symm.trans effect
  exact step

/-- `u` is in a hardware transfer with its queues within QDEPTH, and no word has been drained. -/
structure Undrained (x : Transfer s n tms tdi) (u : State) : Prop where
  running : x.HwRunning u
  bounds : u.EngineBounds
  none_drained : u.e.outW = 0

namespace Undrained

theorem start (hw : s.g.engine = .hw) : x.Undrained (State.transferStart n x.dispatched) := by
  have running : x.HwRunning (State.transferStart n x.dispatched) := .start hw
  rw [State.transferStart_of_hw (by exact hw)] at running ⊢
  exact ⟨running, ⟨Nat.zero_le _, Nat.zero_le _, Nat.zero_le _, Nat.zero_le _, Nat.zero_le _, Nat.zero_le _⟩, rfl⟩

/-- QDEPTH words wait to be pulled and QDEPTH to be drained, and between them the machines hold one more (R248). -/
theorem inW_le (undrained : x.Undrained u) : u.e.inW ≤ 2 * s.cfg.qdepth + 1 := by
  obtain ⟨running, ⟨txfA, -, rxfB, -⟩, none_drained⟩ := undrained
  rw [running.run.cfg] at txfA rxfB
  have pushed : u.e.pushed ≤ s.cfg.qdepth := by rwa [Engine.pushed, none_drained, Nat.zero_add]
  have pulled : ceilDiv u.e.i 32 ≤ u.e.pushed + 1 := by
    have behind := running.shifts.behind
    simp only [ceilDiv]
    omega
  have waiting : u.e.inW - ceilDiv u.e.i 32 ≤ s.cfg.qdepth :=
    calc u.e.inW - ceilDiv u.e.i 32 = u.e.txfA.length := by
          rw [show u.e.txfA = _ from running.shifts.laneA.queue, length_streamWords]
      _ ≤ s.cfg.qdepth := txfA
  omega

/-- A step that is not a drain drains nothing, and every step keeps the queues within QDEPTH. -/
theorem perform (undrained : x.Undrained u) {e : EngineStep} {w : WriteOutcome} (other : e ≠ .drain)
    (taken : u.perform (.engine e w) = .next v) : x.Undrained v ∨ v.g.busy = false := by
  obtain ⟨running, bounds, none_drained⟩ := undrained
  have bounds' : v.EngineBounds := (State.perform_effect taken).registers.engineBounds bounds
  rcases running.perform_cases taken with rfl | ⟨running', progress⟩ | ⟨free, -, -⟩
  · exact .inl ⟨running.latch w, bounds, none_drained⟩
  · have drained : v.e.outW = u.e.outW + [e].count .drain := progress .drain
    exact .inl ⟨running', bounds', by rw [drained, none_drained, List.count_singleton, if_neg (by simpa using other)]⟩
  · exact .inr free

/-- While it is busy, a schedule without drains keeps the transfer undrained. -/
theorem performAll (undrained : x.Undrained u) {es : List EngineStep} (others : .drain ∉ es)
    (taken : u.performAll (engineInputs es) = .next v) (busy : v.g.busy = true) : x.Undrained v := by
  induction es generalizing u with
  | nil => cases taken; exact undrained
  | cons e es ih =>
    obtain ⟨u', first, rest⟩ := (andThen_eq_next ..).1 taken
    obtain ⟨other, others⟩ := List.ne_and_not_mem_of_not_mem_cons others
    rcases undrained.perform other.symm first with undrained | free
    · exact ih undrained others rest
    · simp [State.performAll_engineInputs_free free rest] at busy

end Undrained

end Transfer

/-- Settles O60: the transfer starts undrained and stays so, and then the full queues bound what has been fed. -/
theorem withoutDrainsTheFeedStalls : Obligations.WithoutDrainsTheFeedStalls := by
  unfold Obligations.WithoutDrainsTheFeedStalls
  intro s s1 s2 n tms tdi es idle hw taken busy others schedule still
  obtain ⟨x, rfl⟩ := Transfer.of_busy idle taken busy
  exact ((Transfer.Undrained.start hw).performAll others schedule still).inW_le

end Sys2Proof.Machine
end

section
/-! The state after reset (70_reset_and_hazards.md R240-R244): its registers, the invariant, and block reset. -/

namespace Sys2Proof.Machine

variable {c : Config} {t : TargetState}

theorem State.eq_reset_of_mem_sessions {se : Session} (mem : se ∈ (State.resetWith c t).sessions) : se = Session.reset :=
  List.eq_of_mem_replicate mem

theorem State.eq_free_of_mem_arena {sl : Slot} (mem : sl ∈ (State.resetWith c t).arena) :
    sl = { owner := none, bytes := [] } :=
  List.eq_of_mem_replicate mem

/-- Settles O9: every session is `Session.reset`, every slot is free and empty, the other registers are read off. -/
theorem resetValues : Obligations.ResetValues := by
  unfold Obligations.ResetValues
  intro c t
  have sessions : (State.resetWith c t).sessions.length = c.maxSessions := List.length_replicate ..
  have slots : (State.resetWith c t).arena.length = c.arenaSlots := List.length_replicate ..
  refine ⟨rfl, rfl, rfl, sessions, fun se mem => ?_, slots, fun sl mem => ?_, ?_⟩
  · rw [State.eq_reset_of_mem_sessions mem]
    simp [Session.reset]
  · rw [State.eq_free_of_mem_arena mem]
    exact ⟨rfl, fun _ => rfl⟩
  · simp [State.resetWith, Engine.reset]

/-- After reset no session dispatches and the engine is free (42_session.md R201). -/
theorem State.resetWith_singleFlight (c : Config) (t : TargetState) : (State.resetWith c t).SingleFlight := by
  refine ⟨fun _ => ⟨rfl, fun se mem => ?_⟩, nofun⟩
  rw [State.eq_reset_of_mem_sessions mem]
  nofun

/-- A session after reset is closed with an empty decoder (10_state.md R51). -/
theorem Session.reset_ok (c : Config) : Session.positionOk c Session.reset ∧ Session.phaseOk Session.reset :=
  ⟨⟨Nat.zero_le _, rfl, rfl, rfl⟩, rfl, rfl, rfl, rfl⟩

theorem State.resetWith_sessionsOk (c : Config) (t : TargetState) : (State.resetWith c t).SessionsOk := by
  intro k se at_k
  rw [State.eq_reset_of_mem_sessions (List.mem_of_getElem? at_k)]
  exact Session.reset_ok c

/-- Reset over legal parameters establishes the invariant (R244). -/
theorem State.resetWith_inv (valid : c.valid = true) (t : TargetState) : (State.resetWith c t).Inv where
  config := valid
  shape := ⟨List.length_replicate .., List.length_replicate .., rfl, nofun, nofun⟩
  divisor := State.resetWith_divisorLegal valid t
  memory := State.resetWith_memoryCanonical c t
  lockStep := ⟨rfl, rfl, rfl, rfl⟩
  bounds := ⟨Nat.zero_le _, Nat.zero_le _, Nat.zero_le _, Nat.zero_le _, Nat.zero_le _, Nat.zero_le _⟩
  flight := State.resetWith_singleFlight c t
  halt := nofun
  sessions := State.resetWith_sessionsOk c t
  owned := State.resetWith_ownership c t
  clock := fun _ => rfl

/-- After reset every session is closed, so no step is owed (42_session.md R204). -/
theorem State.resetWith_quiescent (c : Config) (t : TargetState) : (State.resetWith c t).quiescent = true := by
  have waits : (State.resetWith c t).sessions.all Session.waits = true := List.all_eq_true.2 fun se mem => by
    rw [State.eq_reset_of_mem_sessions mem]
    rfl
  rw [State.quiescent, waits]
  rfl

/-- Settles O10: reset establishes the invariant, and the parameters of `State.reset` are legal. -/
theorem resetSatisfiesInvariant : Obligations.ResetSatisfiesInvariant := by
  unfold Obligations.ResetSatisfiesInvariant
  have vectorsValid : Config.vectors.valid = true := by decide
  exact ⟨fun c t valid => ⟨State.resetWith_inv valid t, State.resetWith_quiescent c t⟩, State.resetWith_inv vectorsValid 0⟩

/-- Settles O11: the input is performed as `State.blockReset`, which is this state. -/
theorem blockResetRestoresResetValues : Obligations.BlockResetRestoresResetValues := by
  unfold Obligations.BlockResetRestoresResetValues
  intro s t
  rfl

end Sys2Proof.Machine
end
